-- ==== Sys2Proof/Word.lean ====
section
/-! DEFINITION. The word types of SoundGenerator CORE and their names. -/

namespace Sys2Proof

/-- A value of `S` under `NUM_F32` (00_scope R12): a binary32 bit pattern. -/
abbrev Sample := BitVec 32

/-- The 32-bit `operand` field of a command and the 32-bit integer registers (30_encoding R91, R93). -/
abbrev Word32 := BitVec 32

/-- A command word, the block's only instruction format `C` (30_encoding R90, R91). -/
abbrev CmdWord := BitVec 64

/-- The 8-bit `unit` field: a voice, string, envelope or generator index (30_encoding R91). -/
abbrev UnitIx := BitVec 8

end Sys2Proof
end

