-- ==== Sys2Proof/Config.lean ====
section
/-! DEFINITION. The configuration record `CFG` (00_scope R9), the parameter values the model names, and the free values
(constants without a body: nothing can be proved of their value). -/

namespace Sys2Proof

/-- The parameters of `CFG` that the units' formulas read (00_scope R9), over the numerics type `S`. -/
structure Params (S : Type) where
  /-- `CAP`: delay-line capacity in words, 1 to 65536. -/
  cap : Nat
  /-- `SAMPLE_RATE`, in hertz. -/
  sampleRate : S
  /-- `DAMPING`: string feedback damping. -/
  damping : S
  /-- `BLEND_A`: string blend weight. -/
  blendA : S
  /-- `STR_GAIN`: string output gain. -/
  strGain : S
  /-- `HARM_RATIO`: harmonic number of the excitation sine. -/
  harmRatio : Nat
  /-- `HARM_AMP`: amplitude of the excitation sine. -/
  harmAmp : S
deriving DecidableEq, Repr

/-- `CFG` of 00_scope R9 less the numerics record and the constants its table calls fixed by source: the unit counts
(each 1 to 256) and the parameters. -/
structure Cfg where
  /-- `NV`: FM voices. -/
  nv : Nat
  /-- `NS`: string voices. -/
  ns : Nat
  /-- `ND`: discrete envelopes. -/
  nd : Nat
  /-- `NQ`: square generators. -/
  nq : Nat
  /-- `NN`: noise generators. -/
  nn : Nat
  /-- The parameters of the string voice. -/
  par : Params Sample
deriving DecidableEq, Repr

/-- `HOST_BYTE_ORDER` (20_memory R62). -/
inductive ByteOrder where
  | little
  | big
deriving DecidableEq, Repr

/-- Which operation of `NUM_F32` generated a NaN. -/
inductive NanSource where
  | add
  | sub
  | mul
  | div
deriving DecidableEq, Repr

/-- Default of `SAMPLE_RATE`: 44100.0 (00_scope R10). -/
def Config.sampleRate : Sample := 0x472C4400#32

/-- Default of `DAMPING`: the binary32 value nearest 0.995 (00_scope R10). -/
def Config.damping : Sample := 0x3F7EB852#32

/-- Default of `BLEND_A`: the binary32 value nearest 0.8 (00_scope R10). -/
def Config.blendA : Sample := 0x3F4CCCCD#32

/-- `TWO_PI` of `NUM_F32` (00_scope R12): 6.2831855. -/
def Config.twoPi : Sample := 0x40C90FDB#32

/-- Default of `HOST_BYTE_ORDER` (20_memory R62). -/
def Config.hostByteOrder : ByteOrder := .little

/-- The instance that the reset state carries: the counts and `CAP` of 95_test_vectors B.1, the gain and amplitude of
its program P2, the defaults of R9. DESIGN CHOICE (unsafe, log 4): R9 leaves all but the defaults open. -/
def Config.vectorCfg : Cfg where
  nv := 2
  ns := 1
  nd := 1
  nq := 1
  nn := 1
  par :=
    { cap := 8
      sampleRate := Config.sampleRate
      damping := Config.damping
      blendA := Config.blendA
      strGain := 0x3F000000#32
      harmRatio := 1
      harmAmp := 0#32 }

/-- `SIN32`, the sine of `NUM_F32`: "a configuration function ... of which the spec assumes nothing" (00_scope R12,
I9). Free value, log 8 (safe). -/
opaque Config.sin32 : Sample → Sample

/-- The bit pattern proposed for a generated NaN, by operation and operands ("any value among NaNs", I10). Free value,
log 7 (safe); `F32.nan` keeps it among the NaNs. -/
opaque Config.freeNan : NanSource → Sample → Sample → Sample

/-- `rnd` of a value that is not finite, where 00_scope R12 leaves it undefined. Free value, log 9 (safe). -/
opaque Config.freeRnd : Sample → Int

/-- The pattern proposed for a string voice's draw number `i` ever, by the voice's index and `i` (43_string_voice R141).
Free value, log 10 (safe); `drawAt` keeps it in the interval from -1 to 1. -/
opaque Config.freeDraw : Nat → Nat → Sample

/-- `a / 0` under `NUM_REAL`, by `a`: 00_scope R11 makes the operation total and R12's exact quotient has no value there.
DESIGN CHOICE (safe), free value, log 23. -/
noncomputable opaque Config.realDivByZero : ℝ → ℝ

/-- `ofF32` under `NUM_REAL` of a word that is not finite, by the word: 00_scope R12 gives it of finite words only.
DESIGN CHOICE (safe), free value, log 24. -/
noncomputable opaque Config.realOfNonFinite : Word32 → ℝ

/-- The configuration ranges of 00_scope R9, and the sample rate a positive finite pattern (log 16). -/
abbrev Cfg.wf (c : Cfg) : Prop :=
  (1 ≤ c.nv ∧ c.nv ≤ 256) ∧ (1 ≤ c.ns ∧ c.ns ≤ 256) ∧ (1 ≤ c.nd ∧ c.nd ≤ 256) ∧
  (1 ≤ c.nq ∧ c.nq ≤ 256) ∧ (1 ≤ c.nn ∧ c.nn ≤ 256) ∧ (1 ≤ c.par.cap ∧ c.par.cap ≤ 65536) ∧
  (0 < c.par.sampleRate.toNat ∧ c.par.sampleRate.toNat < 0x7F800000)

end Sys2Proof
end

