-- ==== Sys2Proof/Machine/Float32.lean ====
section
/-! DEFINITION. Binary32 arithmetic on bit patterns, the operations of `NUM_F32` (00_scope R12): round to nearest, ties to
even, gradual underflow, overflow to infinity. The IEEE 754 facts are general knowledge (G1; PRESUMED, log 6). Every finite
pattern is an integer multiple of 2^-149, so each operation is exact integer arithmetic in that unit followed by one
rounding. -/

namespace Sys2Proof.Machine.F32

/-- Sign bit 31. -/
def sign (x : Sample) : Bool := x.msb

/-- Exponent field, bits 30:23. -/
def expField (x : Sample) : Nat := x.toNat / 2 ^ 23 % 2 ^ 8

/-- Fraction field, bits 22:0. -/
def frac (x : Sample) : Nat := x.toNat % 2 ^ 23

/-- The pattern without its sign bit. Among patterns that are not NaNs it orders magnitudes. -/
def absBits (x : Sample) : Nat := x.toNat % 2 ^ 31

/-- Exponent bits not all ones (30_encoding R93): zeros, subnormal and normal numbers. -/
def isFinite (x : Sample) : Bool := expField x != 255

def isNan (x : Sample) : Bool := expField x == 255 && frac x != 0

def isInf (x : Sample) : Bool := expField x == 255 && frac x == 0

/-- Both zeros. -/
def isZero (x : Sample) : Bool := absBits x == 0

/-- The magnitude of a finite pattern in units of 2^-149. -/
def magnitude (x : Sample) : Nat :=
  if expField x = 0 then frac x else (2 ^ 23 + frac x) * 2 ^ (expField x - 1)

/-- The value of a finite pattern in units of 2^-149. -/
def toInt (x : Sample) : Int := if sign x then -(magnitude x : Int) else magnitude x

/-- The pattern with sign `s` and the other 31 bits `b`. -/
def pack (s : Bool) (b : Nat) : Sample := BitVec.ofNat 32 ((if s then 2 ^ 31 else 0) + b)

/-- Infinity of sign `s`. -/
def inf (s : Bool) : Sample := pack s 0x7F800000

/-- Zero of sign `s`. -/
def zero (s : Bool) : Sample := pack s 0

/-- `n / d` rounded to the nearest integer, ties to even. -/
def roundHalfEven (n d : Nat) : Nat :=
  let q := n / d
  let r := n % d
  if 2 * r < d then q
  else if d < 2 * r then q + 1
  else if q % 2 = 0 then q else q + 1

/-- The 31 low bits of the pattern nearest the magnitude `n / d` units, ties to even. With the unit in the last place at
`2 ^ k`, a significand `m` of at most 2^24 is the pattern `k * 2 ^ 23 + m`: the hidden bit adds one to the exponent field,
and a carry out of the significand moves to the next binade by itself. Overflow gives infinity. -/
def roundBits (n d : Nat) : Nat :=
  let k := Nat.log2 (n / d) - 23
  min (k * 2 ^ 23 + roundHalfEven n (d * 2 ^ k)) 0x7F800000

/-- The pattern of sign `s` nearest the magnitude `n / d` units of 2^-149 (`d` positive), ties to even. -/
def round (s : Bool) (n d : Nat) : Sample := pack s (roundBits n d)

/-- A generated or propagated NaN: some NaN, which one is a free value (I10, log 7). -/
def nan (src : NanSource) (x y : Sample) : Sample :=
  let v := Config.freeNan src x y
  if isNan v then v else 0x7FC00000#32

/-- Negation: the sign bit flipped. -/
def neg (x : Sample) : Sample := x ^^^ 0x80000000#32

/-- IEEE 754 sum. An exact zero sum is `+0` unless both operands are `-0` (round to nearest). -/
def addAs (src : NanSource) (x y : Sample) : Sample :=
  if isNan x || isNan y then nan src x y
  else if isInf x then (if isInf y && (sign x != sign y) then nan src x y else x)
  else if isInf y then y
  else
    let z := toInt x + toInt y
    if z = 0 then zero (sign x && sign y) else round (decide (z < 0)) z.natAbs 1

def add (x y : Sample) : Sample := addAs .add x y

/-- `x - y` is `x + (-y)`, the difference of IEEE 754 (log 6). -/
def sub (x y : Sample) : Sample := addAs .sub x (neg y)

/-- IEEE 754 product. -/
def mul (x y : Sample) : Sample :=
  if isNan x || isNan y then nan .mul x y
  else if isInf x || isInf y then
    (if isZero x || isZero y then nan .mul x y else inf (sign x != sign y))
  else round (sign x != sign y) (magnitude x * magnitude y) (2 ^ 149)

/-- IEEE 754 quotient; a finite non-zero value over a zero is infinity. -/
def div (x y : Sample) : Sample :=
  if isNan x || isNan y then nan .div x y
  else if isInf x then (if isInf y then nan .div x y else inf (sign x != sign y))
  else if isInf y then zero (sign x != sign y)
  else if isZero y then
    (if isZero x then nan .div x y else inf (sign x != sign y))
  else round (sign x != sign y) (magnitude x * 2 ^ 149) (magnitude y)

/-- The ordered value of a pattern that is not a NaN: both zeros are 0, infinities are the extremes. -/
def order (x : Sample) : Int := if sign x then -(absBits x : Int) else absBits x

/-- IEEE ordered `<`: false if either operand is a NaN. -/
def lt (x y : Sample) : Bool := !isNan x && !isNan y && decide (order x < order y)

/-- IEEE ordered `<=`: false if either operand is a NaN. -/
def le (x y : Sample) : Bool := !isNan x && !isNan y && decide (order x ≤ order y)

/-- `ofNat(n)`: `n` rounded to nearest, ties to even (R12). -/
def ofNat (n : Nat) : Sample := round false (n * 2 ^ 149) 1

/-- `rnd` (R11): the nearest integer, ties away from zero. "Applied only to finite values" (R12); elsewhere a free value,
which no command of a well-formed configuration reaches (log 9). -/
def rnd (x : Sample) : Int :=
  if isFinite x then
    let r : Nat := (2 * magnitude x + 2 ^ 149) / 2 ^ 150
    if sign x then -(r : Int) else r
  else Config.freeRnd x

end Sys2Proof.Machine.F32
end

