-- ==== Sys2Proof/Machine/Num.lean ====
section
/-! DEFINITION. The numerics record `NUM` (00_scope R11): the type `S` and its operations. The units' formulas are
written once over it; the block runs them with `numF32` (Machine/NumF32.lean), and `numReal` (Machine/NumReal.lean) is the
reference profile. -/

namespace Sys2Proof.Machine

/-- `NUM` over `S` (00_scope R11). "The rules assume nothing of `NUM` except that each operation is a total function of
its operands alone." `a > b` is `lt b a`, `a >= b` is `le b a`. -/
structure Num (S : Type) where
  add : S → S → S
  sub : S → S → S
  mul : S → S → S
  div : S → S → S
  sin : S → S
  lt : S → S → Bool
  le : S → S → Bool
  ofNat : Nat → S
  /-- Rounding to the nearest integer, ties away from zero. -/
  rnd : S → Int
  /-- Conversion at the command port. -/
  ofF32 : Word32 → S
  /-- Conversion at the result port. -/
  toF32 : S → Word32
  twoPi : S

/-- The constant written `0` in the rules (R11). -/
def Num.zero {S : Type} (num : Num S) : S := num.ofNat 0

/-- The constant written `1` in the rules (R11). -/
def Num.one {S : Type} (num : Num S) : S := num.ofNat 1

/-- The constant written `2` in the rules (R11). -/
def Num.two {S : Type} (num : Num S) : S := num.ofNat 2

/-- The constant written `4` in the rules (R11). -/
def Num.four {S : Type} (num : Num S) : S := num.ofNat 4

/-- `HALF`, that is `1 / 2` (R11). -/
def Num.half {S : Type} (num : Num S) : S := num.div num.one num.two

end Sys2Proof.Machine
end

