-- ==== Sys2Proof/Machine/NumF32.lean ====
section
/-! DEFINITION. `NUM_F32`, the numerics profile of the hardware datapath (00_scope R12). -/

namespace Sys2Proof.Machine

/-- `NUM_F32` (00_scope R12): `ofF32` and `toF32` are the identity on bit patterns, `sin` is the free `SIN32`. -/
def numF32 : Num Sample where
  add := F32.add
  sub := F32.sub
  mul := F32.mul
  div := F32.div
  sin := Config.sin32
  lt := F32.lt
  le := F32.le
  ofNat := F32.ofNat
  rnd := F32.rnd
  ofF32 := fun w => w
  toF32 := fun x => x
  twoPi := Config.twoPi

end Sys2Proof.Machine
end

