-- ==== Sys2Proof/Syntax.lean ====
section
/-! DEFINITION. The 19 commands of `SGC-CMD version 1` (30_encoding R98), one constructor per row of the opcode table,
and the locations that `RD` and `WR` name (30_encoding R94, 47_register_access R192). -/

namespace Sys2Proof

/-- Operator index `k` within an FM voice, `op` field 0 to 2 (30_encoding R91): 0 is the carrier, 1 and 2 are the
modulators (00_scope R17). -/
inductive OpIx where
  | op0
  | op1
  | op2
deriving DecidableEq, Repr

/-- Registers 0x00 to 0x06 of class 0: one continuous envelope (10_state R20). -/
inductive EnvReg where
  | A
  | D
  | SL
  | R
  | st
  | t
  | out
deriving DecidableEq, Repr

/-- Registers 0x08 to 0x0D of class 0: one oscillator (10_state R23). -/
inductive OscReg where
  | w
  | p
  | vol
  | m
  | raw
  | tgt
deriving DecidableEq, Repr

/-- Registers of class 1: one string voice (10_state R27). -/
inductive StrReg where
  | N
  | cur
deriving DecidableEq, Repr

/-- Registers of class 2: one discrete envelope (10_state R30). -/
inductive DenvReg where
  | period
  | counter
  | flags
  | sel
  | out
deriving DecidableEq, Repr

/-- Registers of class 3: one square generator (10_state R33). -/
inductive SqReg where
  | period
  | counter
  | out
deriving DecidableEq, Repr

/-- Registers of class 4: one noise generator (10_state R34). -/
inductive NzReg where
  | period
  | counter
  | out
  | rng
deriving DecidableEq, Repr

/-- A location of the register space or of a delay line (47_register_access R192). -/
inductive Loc where
  /-- Class 0, registers 0x00 to 0x06: an envelope register of operator `k` of voice `v`. -/
  | env (v : UnitIx) (k : OpIx) (r : EnvReg)
  /-- Class 0, registers 0x08 to 0x0D: an oscillator register. -/
  | osc (v : UnitIx) (k : OpIx) (r : OscReg)
  /-- Class 1: a register of string voice `s`. -/
  | str (s : UnitIx) (r : StrReg)
  /-- Class 2: a register of discrete envelope `d`. -/
  | denv (d : UnitIx) (r : DenvReg)
  /-- Class 3: a register of square generator `q`. -/
  | sq (q : UnitIx) (r : SqReg)
  /-- Class 4: a register of noise generator `n`. -/
  | nz (n : UnitIx) (r : NzReg)
  /-- Class 5: word `a` of the delay line of string voice `s`. -/
  | dl (s : UnitIx) (a : Word32)
deriving DecidableEq, Repr

/-- The command set. `F` operands (`dt`, `f`) are the operand's bit pattern; `STR.TICK` keeps its ignored operand and
`DENV.SETFLAGS` its ignored upper bits, so that every bit of a word is in the syntax. -/
inductive Instr where
  /-- `RD loc` (R193). -/
  | rd (loc : Loc)
  /-- `WR loc, value` (R195). -/
  | wr (loc : Loc) (value : Word32)
  /-- `ENV.SET v.k, gate` (R113). -/
  | envSet (v : UnitIx) (k : OpIx) (gate : Bool)
  /-- `ENV.UPD v.k, dt` (R116). -/
  | envUpd (v : UnitIx) (k : OpIx) (dt : Word32)
  /-- `ENV.OUT v.k` (R121). -/
  | envOut (v : UnitIx) (k : OpIx)
  /-- `OSC.SETF v.k, f` (R126). -/
  | oscSetF (v : UnitIx) (k : OpIx) (f : Word32)
  /-- `OSC.UPD v.k, dt` (R127). -/
  | oscUpd (v : UnitIx) (k : OpIx) (dt : Word32)
  /-- `OSC.OUT v.k` (R129). -/
  | oscOut (v : UnitIx) (k : OpIx)
  /-- `FM.NOTEON v, f` (R134). -/
  | fmNoteOn (v : UnitIx) (f : Word32)
  /-- `FM.NOTEOFF v` (R135). -/
  | fmNoteOff (v : UnitIx)
  /-- `FM.TICK v, dt` (R136). -/
  | fmTick (v : UnitIx) (dt : Word32)
  /-- `STR.NOTEON s, f` (R142). -/
  | strNoteOn (s : UnitIx) (f : Word32)
  /-- `STR.NOTEOFF s` (R146). -/
  | strNoteOff (s : UnitIx)
  /-- `STR.TICK s[, dt]` (R147); the operand is ignored. -/
  | strTick (s : UnitIx) (ignored : Word32)
  /-- `DENV.SETFLAGS d, flags` (R163); bits 31:4 of the operand are ignored. -/
  | denvSetFlags (d : UnitIx) (flags : Word32)
  /-- `DENV.TICK d` (R165). -/
  | denvTick (d : UnitIx)
  /-- `SQ.TICK q` (R178). -/
  | sqTick (q : UnitIx)
  /-- `NZ.TICK n` (R181). -/
  | nzTick (n : UnitIx)
  /-- `BANK.TICK dt` (R187). -/
  | bankTick (dt : Word32)
deriving DecidableEq, Repr

end Sys2Proof
end

