-- ==== Sys2Proof/Machine/State.lean ====
section
/-! DEFINITION. The architectural state (10_state R19 to R34), its reset value (R49), and the outcomes a step can have. -/

namespace Sys2Proof.Machine

/-- State of a continuous envelope (00_scope R14). -/
inductive EnvState where
  | attack
  | decay
  | sustain
  | release
  | off
deriving DecidableEq, Repr

/-- State of a discrete envelope (00_scope R14, 44_discrete_envelope R161). -/
inductive DSel where
  | decay
  | attack
  | holdLow
  | holdHigh
deriving DecidableEq, Repr

/-- One continuous envelope `ENV[v][k]` (10_state R20). -/
structure Envelope (S : Type) where
  /-- attackTime, seconds. -/
  A : S
  /-- decayTime, seconds. -/
  D : S
  /-- sustainLevel. -/
  SL : S
  /-- releaseTime, seconds. -/
  R : S
  /-- state. -/
  st : EnvState
  /-- elapsedInState, seconds. -/
  t : S
  /-- currentOutput, not clamped. -/
  out : S
deriving DecidableEq, Repr

/-- One oscillator `OSC[v][k]` (10_state R23) less the hardwired `tgt` (R24), which is `oscTarget` (log 19). -/
structure Oscillator (S : Type) where
  /-- angularFrequency, rad/s. -/
  w : S
  /-- phaseAccumulator, seconds. -/
  p : S
  /-- volume. -/
  vol : S
  /-- modulationAccumulator, radians. -/
  m : S
  /-- rawOutput. -/
  raw : S
deriving DecidableEq, Repr

/-- One operator: an (oscillator, envelope) pair (00_scope R18). -/
structure Operator (S : Type) where
  env : Envelope S
  osc : Oscillator S
deriving DecidableEq, Repr

/-- One FM voice: three operators and no register of its own (10_state R26). -/
structure FmVoice (S : Type) where
  /-- The carrier. -/
  op0 : Operator S
  /-- A modulator. -/
  op1 : Operator S
  /-- A modulator. -/
  op2 : Operator S
deriving DecidableEq, Repr

/-- A delay-line memory (10_state R28): the words that differ from the reset value 0, by word address, in one canonical
form (`Memory.wf`: addresses strictly rising, no entry holding 0). Log 11. -/
abbrev Memory (S : Type) := List (Nat × S)

/-- One string voice `STR[s]` with its delay line `DL[s]` (10_state R27, R28). -/
structure StringVoice (S : Type) where
  /-- Buffer length in words. -/
  N : Nat
  /-- Read cursor. -/
  cur : Nat
  /-- The delay line. -/
  dl : Memory S
  /-- The model's own: how many excitation draws the voice has taken (log 10). -/
  taken : Nat
deriving DecidableEq, Repr

/-- One discrete envelope `DENV[d]` (10_state R30). -/
structure Denv (S : Type) where
  period : Word32
  counter : Word32
  /-- Control bits: 0 hold, 1 alternate, 2 attack-first, 3 continue (R162). -/
  flags : BitVec 4
  sel : DSel
  out : S
deriving DecidableEq, Repr

/-- One square generator `SQ[q]` (10_state R33). -/
structure Square where
  period : Word32
  counter : Word32
  out : BitVec 1
deriving DecidableEq, Repr

/-- One noise generator `NZ[n]` (10_state R34). -/
structure Noise where
  period : Word32
  counter : Word32
  out : BitVec 1
  rng : BitVec 17
deriving DecidableEq, Repr

/-- The result of a command (30_encoding R96). -/
inductive Result (S : Type) where
  | none
  | sample (x : S)
  | word (w : Word32)
deriving DecidableEq, Repr

/-- The block's state (10_state R19) and, after `nz`, the model's own fields: the parameters of `CFG` (log 3), the host's
command words not yet executed, first one next (log 1), and the result of the step just made (log 2). The unit counts of
`CFG` are the lengths of the unit lists (log 3). -/
structure State where
  fm : List (FmVoice Sample)
  str : List (StringVoice Sample)
  denv : List (Denv Sample)
  sq : List Square
  nz : List Noise
  par : Params Sample
  cmds : List CmdWord
  result : Result Sample
deriving DecidableEq, Repr

/-- `CFG` as the state carries it. -/
def State.cfg (s : State) : Cfg where
  nv := s.fm.length
  ns := s.str.length
  nd := s.denv.length
  nq := s.sq.length
  nn := s.nz.length
  par := s.par

/-- No step faults: "The block raises no synchronous exception" (60_exceptions R200), so there is no reason to name. -/
inductive Fault where
deriving DecidableEq, Repr

/-- Why a step could be refused. -/
inductive Refusal where
  /-- Raised by an arm of `exec` whose instruction has no meaning yet; safe. No arm of this model raises it. -/
  | notModelled (mnemonic : String)
deriving DecidableEq, Repr

/-- Reset value of an envelope: every register 0, state Off (R49). -/
def Envelope.reset : Envelope Sample where
  A := 0#32
  D := 0#32
  SL := 0#32
  R := 0#32
  st := .off
  t := 0#32
  out := 0#32

/-- Reset value of an oscillator: `vol` is 1 (0x3F800000), every other register 0 (R49). -/
def Oscillator.reset : Oscillator Sample where
  w := 0#32
  p := 0#32
  vol := 0x3F800000#32
  m := 0#32
  raw := 0#32

/-- Reset value of an operator (R49). -/
def Operator.reset : Operator Sample where
  env := Envelope.reset
  osc := Oscillator.reset

/-- Reset value of an FM voice (R49). -/
def FmVoice.reset : FmVoice Sample where
  op0 := Operator.reset
  op1 := Operator.reset
  op2 := Operator.reset

/-- Reset value of a string voice: `N = 1`, `cur = 0`, every delay-line word 0 (R49), no draw taken (log 10). -/
def StringVoice.reset : StringVoice Sample where
  N := 1
  cur := 0
  dl := []
  taken := 0

/-- Reset value of a discrete envelope: all zero, `sel` Decay (R49). -/
def Denv.reset : Denv Sample where
  period := 0#32
  counter := 0#32
  flags := 0#4
  sel := .decay
  out := 0#32

/-- Reset value of a square generator (R49). -/
def Square.reset : Square where
  period := 0#32
  counter := 0#32
  out := 0#1

/-- Reset value of a noise generator: `rng` is 1 (R49). -/
def Noise.reset : Noise where
  period := 0#32
  counter := 0#32
  out := 0#1
  rng := 1#17

/-- `State.reset(CFG)` of 70_reset R220: the reset state of an instance. -/
def State.resetOf (c : Cfg) : State where
  fm := List.replicate c.nv FmVoice.reset
  str := List.replicate c.ns StringVoice.reset
  denv := List.replicate c.nd Denv.reset
  sq := List.replicate c.nq Square.reset
  nz := List.replicate c.nn Noise.reset
  par := c.par
  cmds := []
  result := .none

/-- The reset state of the instance `Config.vectorCfg` (log 4), with no command presented (log 1). -/
def State.reset : State := State.resetOf Config.vectorCfg

end Sys2Proof.Machine
end

