-- ==== Sys2Proof/Machine/Operands.lean ====
section
/-! DEFINITION. Operand kinds and their legality (30_encoding R93), the register map's numbers, access rights and integer
codes (10_state R20 to R34, R42, R43). -/

namespace Sys2Proof.Machine

/-- The five operand kinds (R93). -/
inductive OperandKind where
  | F
  | U
  | G
  | Z
  | X
deriving DecidableEq, Repr

/-- The legality column of R93. -/
def operandLegal (k : OperandKind) (operand : Word32) : Bool :=
  match k with
  | .F => F32.isFinite operand
  | .U => true
  | .G => operand.extractLsb' 1 31 == 0#31
  | .Z => operand == 0#32
  | .X => true

/-- `gate = operand[0]` (R93). -/
def gateOf (operand : Word32) : Bool := operand.getLsbD 0

/-- The operand word of a gate. -/
def gateWord (gate : Bool) : Word32 := if gate then 1#32 else 0#32

/-- The `op` field of an operator index (R91). -/
def opCode : OpIx → BitVec 4
  | .op0 => 0#4
  | .op1 => 1#4
  | .op2 => 2#4

/-- The operator index of an `op` field; none when `op > 2`. -/
def opOfCode (b : BitVec 4) : Option OpIx :=
  if b = 0#4 then some .op0 else if b = 1#4 then some .op1 else if b = 2#4 then some .op2 else none

/-- The registers a class 0 to 4 `reg` number can name, as a location of instance `u` and operator `k`. -/
inductive RegName where
  | env (r : EnvReg)
  | osc (r : OscReg)
  | str (r : StrReg)
  | denv (r : DenvReg)
  | sq (r : SqReg)
  | nz (r : NzReg)
deriving DecidableEq, Repr

/-- Class and register number (10_state R20, R23, R27, R30, R33, R34). -/
def RegName.address : RegName → BitVec 4 × BitVec 8
  | .env .A => (0#4, 0x00#8)
  | .env .D => (0#4, 0x01#8)
  | .env .SL => (0#4, 0x02#8)
  | .env .R => (0#4, 0x03#8)
  | .env .st => (0#4, 0x04#8)
  | .env .t => (0#4, 0x05#8)
  | .env .out => (0#4, 0x06#8)
  | .osc .w => (0#4, 0x08#8)
  | .osc .p => (0#4, 0x09#8)
  | .osc .vol => (0#4, 0x0A#8)
  | .osc .m => (0#4, 0x0B#8)
  | .osc .raw => (0#4, 0x0C#8)
  | .osc .tgt => (0#4, 0x0D#8)
  | .str .N => (1#4, 0x00#8)
  | .str .cur => (1#4, 0x01#8)
  | .denv .period => (2#4, 0x00#8)
  | .denv .counter => (2#4, 0x01#8)
  | .denv .flags => (2#4, 0x02#8)
  | .denv .sel => (2#4, 0x03#8)
  | .denv .out => (2#4, 0x04#8)
  | .sq .period => (3#4, 0x00#8)
  | .sq .counter => (3#4, 0x01#8)
  | .sq .out => (3#4, 0x02#8)
  | .nz .period => (4#4, 0x00#8)
  | .nz .counter => (4#4, 0x01#8)
  | .nz .out => (4#4, 0x02#8)
  | .nz .rng => (4#4, 0x03#8)

/-- The registers of class 0, in the map's order (10_state R20, R23). -/
def RegName.operator : List RegName :=
  [.env .A, .env .D, .env .SL, .env .R, .env .st, .env .t, .env .out,
   .osc .w, .osc .p, .osc .vol, .osc .m, .osc .raw, .osc .tgt]

/-- The registers of classes 1 to 4, in the map's order (10_state R27, R30, R33, R34). -/
def RegName.others : List RegName :=
  [.str .N, .str .cur,
   .denv .period, .denv .counter, .denv .flags, .denv .sel, .denv .out,
   .sq .period, .sq .counter, .sq .out,
   .nz .period, .nz .counter, .nz .out, .nz .rng]

/-- Every register of the map (10_state R42). -/
def RegName.all : List RegName := RegName.operator ++ RegName.others

/-- The register a (class, reg) pair names; every other pair is undefined (10_state R42). -/
def RegName.ofAddress (cls : BitVec 4) (reg : BitVec 8) : Option RegName :=
  RegName.all.find? fun n => n.address == (cls, reg)

/-- The location of register `n` in instance `u`, operator `k` (`k` is used in class 0 only). -/
def RegName.loc (u : UnitIx) (k : OpIx) : RegName → Loc
  | .env r => .env u k r
  | .osc r => .osc u k r
  | .str r => .str u r
  | .denv r => .denv u r
  | .sq r => .sq u r
  | .nz r => .nz u r

/-- The host-writable registers (10_state R43, 47_register_access R195; the list is followed, log 13). -/
def locWritable : Loc → Bool
  | .env _ _ .A => true
  | .env _ _ .D => true
  | .env _ _ .SL => true
  | .env _ _ .R => true
  | .osc _ _ .vol => true
  | .denv _ .period => true
  | .sq _ .period => true
  | .nz _ .period => true
  | .nz _ .rng => true
  | _ => false

/-- The operand kind of a `WR` to a location (R94): `F` for `S` registers, `U` for integer registers. -/
def wrKind : Loc → OperandKind
  | .env _ _ .st => .U
  | .env _ _ _ => .F
  | .osc _ _ .tgt => .U
  | .osc _ _ _ => .F
  | .denv _ .out => .F
  | .dl _ _ => .F
  | _ => .U

/-- The integer code of an envelope state (00_scope R14, 47_register_access R193). -/
def envStateCode : EnvState → Word32
  | .attack => 0#32
  | .decay => 1#32
  | .sustain => 2#32
  | .release => 3#32
  | .off => 4#32

/-- The integer code of a discrete selector (00_scope R14). -/
def dselCode : DSel → Word32
  | .decay => 0#32
  | .attack => 1#32
  | .holdLow => 2#32
  | .holdHigh => 3#32

/-- The output target of operator `k`: operators 1 and 2 feed operator 0, which has none. Hardwired (10_state R24). -/
def oscTarget : OpIx → Option OpIx
  | .op0 => none
  | .op1 => some .op0
  | .op2 => some .op0

/-- `tgt` as a register reads: 3 means no target (10_state R24). -/
def targetCode (k : OpIx) : Word32 :=
  match oscTarget k with
  | none => 3#32
  | some .op0 => 0#32
  | some .op1 => 1#32
  | some .op2 => 2#32

end Sys2Proof.Machine
end

