-- ==== Sys2Proof/WellFormed.lean ====
section
/-! DEFINITION. The checks on a command's fields that need neither the configuration nor the numerics (30_encoding R93,
R94, R103 (e), (g)). What `CFG` and `0 < f` decide is `legal` (Machine/Ops.lean). -/

namespace Sys2Proof

open Sys2Proof.Machine

/-- A well-formed command: `F` operands are finite, `WR` names a host-writable register and its operand is of that
register's kind. The other checks of R103 hold of every term, since the syntax has no other values. -/
def wellFormed : Instr → Bool
  | .rd _ => true
  | .wr loc x => locWritable loc && operandLegal (wrKind loc) x
  | .envSet _ _ _ => true
  | .envUpd _ _ dt => operandLegal .F dt
  | .envOut _ _ => true
  | .oscSetF _ _ f => operandLegal .F f
  | .oscUpd _ _ dt => operandLegal .F dt
  | .oscOut _ _ => true
  | .fmNoteOn _ f => operandLegal .F f
  | .fmNoteOff _ => true
  | .fmTick _ dt => operandLegal .F dt
  | .strNoteOn _ f => operandLegal .F f
  | .strNoteOff _ => true
  | .strTick _ x => operandLegal .X x
  | .denvSetFlags _ x => operandLegal .U x
  | .denvTick _ => true
  | .sqTick _ => true
  | .nzTick _ => true
  | .bankTick dt => operandLegal .F dt

end Sys2Proof
end

