-- ==== Sys2Proof/Decode.lean ====
section
/-! DEFINITION. The decoder of 30_encoding R100, total on all 2^64 words and rejecting by name, less the checks that depend
on `CFG` or on the numerics (`legal`, Machine/Ops.lean; log 12); then the encoder, the match and mask table of R99, and the
host's view of the decoder. -/

namespace Sys2Proof

open Sys2Proof.Machine

/-- The fields of format `C` (R91). -/
structure Fields where
  opcode : BitVec 8
  unit : BitVec 8
  op : BitVec 4
  cls : BitVec 4
  reg : BitVec 8
  operand : Word32
deriving DecidableEq, Repr

/-- The fields of a word: opcode 63:56, unit 55:48, op 47:44, cls 43:40, reg 39:32, operand 31:0 (R91). -/
def Fields.ofWord (w : CmdWord) : Fields where
  opcode := w.extractLsb' 56 8
  unit := w.extractLsb' 48 8
  op := w.extractLsb' 44 4
  cls := w.extractLsb' 40 4
  reg := w.extractLsb' 32 8
  operand := w.extractLsb' 0 32

/-- The word of the fields (R91). -/
def Fields.toWord (f : Fields) : CmdWord :=
  f.opcode ++ f.unit ++ f.op ++ f.cls ++ f.reg ++ f.operand

/-- Why a word is no command: the clauses of R103 that need only the word. -/
inductive DecodeError where
  /-- (a) the opcode is not one of the 19 (R102). -/
  | reservedOpcode
  /-- (b) a field that must be 0 is not. -/
  | fieldNotZero
  /-- (c), (g) the operator index is above 2. -/
  | operatorRange
  /-- (e) the operand violates its kind. -/
  | operandKind
  /-- (g) a reserved class or an undefined (class, reg) pair. -/
  | undefinedRegister
  /-- (g) a `WR` to a read-only register or to class 5. -/
  | readOnly
deriving DecidableEq, Repr

/-- What a decoder answers. -/
abbrev Decoded := Except DecodeError Instr

/-- A command that addresses one operator: `cls` and `reg` 0, `op` 0 to 2, operand of kind `kind` (R98). -/
def decodeOperator (kind : OperandKind) (mk : UnitIx → OpIx → Word32 → Instr) (f : Fields) : Decoded :=
  if f.cls ≠ 0#4 ∨ f.reg ≠ 0#8 then .error .fieldNotZero
  else match opOfCode f.op with
    | none => .error .operatorRange
    | some k => if operandLegal kind f.operand then .ok (mk f.unit k f.operand) else .error .operandKind

/-- A command that addresses one unit: `cls`, `reg` and `op` 0, operand of kind `kind` (R98). -/
def decodeUnit (kind : OperandKind) (mk : UnitIx → Word32 → Instr) (f : Fields) : Decoded :=
  if f.cls ≠ 0#4 ∨ f.reg ≠ 0#8 ∨ f.op ≠ 0#4 then .error .fieldNotZero
  else if operandLegal kind f.operand then .ok (mk f.unit f.operand) else .error .operandKind

/-- `BANK.TICK`: `unit` must be 0 as well (R98). -/
def decodeBank (f : Fields) : Decoded :=
  if f.unit ≠ 0#8 then .error .fieldNotZero else decodeUnit .F (fun _ x => .bankTick x) f

/-- The operator index of a register access: 0 to 2 in class 0, 0 in every other class (R94). -/
def decodeAccessOp (f : Fields) : Option OpIx :=
  if f.cls = 0#4 then opOfCode f.op else if f.op = 0#4 then some .op0 else none

/-- The location of a register access of classes 0 to 4 (R94, R192). -/
def decodeRegister (f : Fields) : Except DecodeError Loc :=
  match decodeAccessOp f, RegName.ofAddress f.cls f.reg with
  | none, _ => .error .operatorRange
  | some _, none => .error .undefinedRegister
  | some k, some n => .ok (n.loc f.unit k)

/-- `RD` (R94, R192): operand `Z`, in class 5 the word address. -/
def decodeRd (f : Fields) : Decoded :=
  if f.cls = 5#4 then
    if f.op ≠ 0#4 then .error .operatorRange
    else if f.reg ≠ 0#8 then .error .undefinedRegister
    else .ok (.rd (.dl f.unit f.operand))
  else match decodeRegister f with
    | .error e => .error e
    | .ok loc => if operandLegal .Z f.operand then .ok (.rd loc) else .error .operandKind

/-- `WR` (R94, R192): a host-writable register of classes 0 to 4, operand of the register's kind. -/
def decodeWr (f : Fields) : Decoded :=
  if f.cls = 5#4 then .error .readOnly
  else match decodeRegister f with
    | .error e => .error e
    | .ok loc =>
      if ¬ locWritable loc then .error .readOnly
      else if operandLegal (wrKind loc) f.operand then .ok (.wr loc f.operand)
      else .error .operandKind

/-- The command of the fields (R98, R100). -/
def decodeFields (f : Fields) : Decoded :=
  if f.opcode = 0x01#8 then decodeRd f
  else if f.opcode = 0x02#8 then decodeWr f
  else if f.opcode = 0x10#8 then decodeOperator .G (fun v k x => .envSet v k (gateOf x)) f
  else if f.opcode = 0x11#8 then decodeOperator .F .envUpd f
  else if f.opcode = 0x12#8 then decodeOperator .Z (fun v k _ => .envOut v k) f
  else if f.opcode = 0x20#8 then decodeOperator .F .oscSetF f
  else if f.opcode = 0x21#8 then decodeOperator .F .oscUpd f
  else if f.opcode = 0x22#8 then decodeOperator .Z (fun v k _ => .oscOut v k) f
  else if f.opcode = 0x30#8 then decodeUnit .F .fmNoteOn f
  else if f.opcode = 0x31#8 then decodeUnit .Z (fun v _ => .fmNoteOff v) f
  else if f.opcode = 0x32#8 then decodeUnit .F .fmTick f
  else if f.opcode = 0x40#8 then decodeUnit .F .strNoteOn f
  else if f.opcode = 0x41#8 then decodeUnit .Z (fun s _ => .strNoteOff s) f
  else if f.opcode = 0x42#8 then decodeUnit .X .strTick f
  else if f.opcode = 0x50#8 then decodeUnit .U .denvSetFlags f
  else if f.opcode = 0x51#8 then decodeUnit .Z (fun d _ => .denvTick d) f
  else if f.opcode = 0x60#8 then decodeUnit .Z (fun q _ => .sqTick q) f
  else if f.opcode = 0x61#8 then decodeUnit .Z (fun n _ => .nzTick n) f
  else if f.opcode = 0x70#8 then decodeBank f
  else .error .reservedOpcode

/-- The decoder. -/
def decode (w : CmdWord) : Decoded := decodeFields (Fields.ofWord w)

/-- The fields of a command that addresses operator `k` of voice `v`. -/
def operatorFields (opcode : BitVec 8) (v : UnitIx) (k : OpIx) (operand : Word32) : Fields :=
  ⟨opcode, v, opCode k, 0#4, 0#8, operand⟩

/-- The fields of a command that addresses unit `u`. -/
def unitFields (opcode : BitVec 8) (u : UnitIx) (operand : Word32) : Fields :=
  ⟨opcode, u, 0#4, 0#4, 0#8, operand⟩

/-- The fields of an access to register `n` of instance `u`, operator field `op`. -/
def registerFields (opcode : BitVec 8) (n : RegName) (u : UnitIx) (op : BitVec 4) (operand : Word32) : Fields :=
  ⟨opcode, u, op, n.address.1, n.address.2, operand⟩

/-- The fields of a register access (R94); a delay-line word is class 5. -/
def accessFields (opcode : BitVec 8) (loc : Loc) (operand : Word32) : Fields :=
  match loc with
  | .env v k r => registerFields opcode (.env r) v (opCode k) operand
  | .osc v k r => registerFields opcode (.osc r) v (opCode k) operand
  | .str s r => registerFields opcode (.str r) s 0#4 operand
  | .denv d r => registerFields opcode (.denv r) d 0#4 operand
  | .sq q r => registerFields opcode (.sq r) q 0#4 operand
  | .nz n r => registerFields opcode (.nz r) n 0#4 operand
  | .dl s _ => ⟨opcode, s, 0#4, 5#4, 0#8, operand⟩

/-- The operand of an `RD`: the word address in class 5, else 0 (R94). -/
def rdOperand : Loc → Word32
  | .dl _ a => a
  | _ => 0#32

/-- The fields of a command, from the list of R98. -/
def encodeFields : Instr → Fields
  | .rd loc => accessFields 0x01#8 loc (rdOperand loc)
  | .wr loc x => accessFields 0x02#8 loc x
  | .envSet v k g => operatorFields 0x10#8 v k (gateWord g)
  | .envUpd v k dt => operatorFields 0x11#8 v k dt
  | .envOut v k => operatorFields 0x12#8 v k 0#32
  | .oscSetF v k f => operatorFields 0x20#8 v k f
  | .oscUpd v k dt => operatorFields 0x21#8 v k dt
  | .oscOut v k => operatorFields 0x22#8 v k 0#32
  | .fmNoteOn v f => unitFields 0x30#8 v f
  | .fmNoteOff v => unitFields 0x31#8 v 0#32
  | .fmTick v dt => unitFields 0x32#8 v dt
  | .strNoteOn s f => unitFields 0x40#8 s f
  | .strNoteOff s => unitFields 0x41#8 s 0#32
  | .strTick s x => unitFields 0x42#8 s x
  | .denvSetFlags d x => unitFields 0x50#8 d x
  | .denvTick d => unitFields 0x51#8 d 0#32
  | .sqTick q => unitFields 0x60#8 q 0#32
  | .nzTick n => unitFields 0x61#8 n 0#32
  | .bankTick dt => unitFields 0x70#8 0#8 dt

/-- The encoder: the one word of a command. -/
def encode (i : Instr) : CmdWord := (encodeFields i).toWord

/-- A row of the opcode table (R99). -/
structure Row where
  mnemonic : String
  pattern : CmdWord
  mask : CmdWord
deriving DecidableEq, Repr

/-- The `match` and `mask` of each command, as spec/opcode_table.json lists them (R99). -/
def rowOf : Instr → Row
  | .rd _ => ⟨"RD", 0x0100000000000000#64, 0xFF00000000000000#64⟩
  | .wr _ _ => ⟨"WR", 0x0200000000000000#64, 0xFF00000000000000#64⟩
  | .envSet _ _ _ => ⟨"ENV.SET", 0x1000000000000000#64, 0xFF000FFFFFFFFFFE#64⟩
  | .envUpd _ _ _ => ⟨"ENV.UPD", 0x1100000000000000#64, 0xFF000FFF00000000#64⟩
  | .envOut _ _ => ⟨"ENV.OUT", 0x1200000000000000#64, 0xFF000FFFFFFFFFFF#64⟩
  | .oscSetF _ _ _ => ⟨"OSC.SETF", 0x2000000000000000#64, 0xFF000FFF00000000#64⟩
  | .oscUpd _ _ _ => ⟨"OSC.UPD", 0x2100000000000000#64, 0xFF000FFF00000000#64⟩
  | .oscOut _ _ => ⟨"OSC.OUT", 0x2200000000000000#64, 0xFF000FFFFFFFFFFF#64⟩
  | .fmNoteOn _ _ => ⟨"FM.NOTEON", 0x3000000000000000#64, 0xFF00FFFF00000000#64⟩
  | .fmNoteOff _ => ⟨"FM.NOTEOFF", 0x3100000000000000#64, 0xFF00FFFFFFFFFFFF#64⟩
  | .fmTick _ _ => ⟨"FM.TICK", 0x3200000000000000#64, 0xFF00FFFF00000000#64⟩
  | .strNoteOn _ _ => ⟨"STR.NOTEON", 0x4000000000000000#64, 0xFF00FFFF00000000#64⟩
  | .strNoteOff _ => ⟨"STR.NOTEOFF", 0x4100000000000000#64, 0xFF00FFFFFFFFFFFF#64⟩
  | .strTick _ _ => ⟨"STR.TICK", 0x4200000000000000#64, 0xFF00FFFF00000000#64⟩
  | .denvSetFlags _ _ => ⟨"DENV.SETFLAGS", 0x5000000000000000#64, 0xFF00FFFF00000000#64⟩
  | .denvTick _ => ⟨"DENV.TICK", 0x5100000000000000#64, 0xFF00FFFFFFFFFFFF#64⟩
  | .sqTick _ => ⟨"SQ.TICK", 0x6000000000000000#64, 0xFF00FFFFFFFFFFFF#64⟩
  | .nzTick _ => ⟨"NZ.TICK", 0x6100000000000000#64, 0xFF00FFFFFFFFFFFF#64⟩
  | .bankTick _ => ⟨"BANK.TICK", 0x7000000000000000#64, 0xFFFFFFFF00000000#64⟩

/-- The instruction the decoder reads from a word numbered as spec/opcode_table.json numbers it: bit 0 is the least
significant bit. A command is one 64-bit word (R90); the bits at and above `nbits` are 0. -/
def decodeTableWord (nbits w : Nat) : Option Instr :=
  match decode (BitVec.ofNat 64 (w % 2 ^ nbits)) with
  | .ok i => some i
  | .error _ => none

end Sys2Proof
end

