-- ==== Sys2Proof/Machine/Flags.lean ====
section
/-! DEFINITION. The block has no status flags and no condition codes (10_state R41). What is called `flags` is the control
field of a discrete envelope; its bits are named here (44_discrete_envelope R162), with the transition table it indexes
(R168). -/

namespace Sys2Proof.Machine

/-- Bit 0, hold (R162). -/
def flagHold (flags : BitVec 4) : Bool := flags.getLsbD 0

/-- Bit 1, alternate (R162). -/
def flagAlternate (flags : BitVec 4) : Bool := flags.getLsbD 1

/-- Bit 2, attack-first (R162). -/
def flagAttackFirst (flags : BitVec 4) : Bool := flags.getLsbD 2

/-- Bit 3, continue (R162). -/
def flagContinue (flags : BitVec 4) : Bool := flags.getLsbD 3

/-- The `direction` index of the table (R161). -/
inductive Direction where
  | leavingDecay
  | leavingAttack
deriving DecidableEq, Repr

/-- The ROM `TT` in its stored encoding, 3 bits per entry, -1 as 0b111 (10_state R31); the rows are those of R168. -/
def ttRom : Direction → List (BitVec 3)
  | .leavingDecay => [2#3, 2#3, 2#3, 2#3, 7#3, 7#3, 7#3, 7#3] ++ [0#3, 2#3, 1#3, 3#3, 7#3, 7#3, 1#3, 7#3]
  | .leavingAttack => [7#3, 7#3, 7#3, 7#3, 2#3, 2#3, 2#3, 2#3] ++ [7#3, 7#3, 0#3, 7#3, 1#3, 3#3, 0#3, 2#3]

/-- The selector a stored entry names; none is -1, "remain" (R166). The ROM holds no other code. -/
def ttSelector (e : BitVec 3) : Option DSel :=
  if e = 0#3 then some .decay
  else if e = 1#3 then some .attack
  else if e = 2#3 then some .holdLow
  else if e = 3#3 then some .holdHigh
  else none

/-- `TT[dir][flags]` (R168). -/
def ttEntry (dir : Direction) (flags : BitVec 4) : Option DSel :=
  ttSelector ((ttRom dir)[flags.toNat]?.getD 7#3)

end Sys2Proof.Machine
end

