-- ==== Sys2Proof/Machine/Ops.lean ====
section
/-! DEFINITION. The named operations over memory, registers and commands: delay-line reads and writes (20_memory), the access
of one unit of a bank, the register space (47_register_access), legality (30_encoding R103), the effect of an illegal
command, and the shape every meaning has.

Taking an exception and returning from one: the block has neither (60_exceptions R200, R206, R207), so there is no
operation for them. "Every command either completes all of its state changes or, when illegal, none of them" (R206):
`perform` is that sentence. -/

namespace Sys2Proof.Machine

variable {S : Type}

/-- Word `a` of a delay line; `z` is the 0 an unlisted word reads as (10_state R28). `MemRead` of 00_scope R15. -/
def Memory.read (z : S) : Memory S → Nat → S
  | [], _ => z
  | (b, v) :: rest, a => if b = a then v else Memory.read z rest a

/-- The list without the entry of word `a`. -/
def Memory.erase : Memory S → Nat → Memory S
  | [], _ => []
  | (b, v) :: rest, a => if b = a then Memory.erase rest a else (b, v) :: Memory.erase rest a

/-- The list with the entry `(a, v)` put where the addresses keep rising, in place of an entry of word `a`. -/
def Memory.insert : Memory S → Nat → S → Memory S
  | [], a, v => [(a, v)]
  | (b, w) :: rest, a, v =>
    if a < b then (a, v) :: (b, w) :: rest
    else if a = b then (a, v) :: rest
    else (b, w) :: Memory.insert rest a v

/-- Word `a` written with `v`; writing the 0 that an unlisted word reads as removes the entry. `MemWrite` of R15. -/
def Memory.write [DecidableEq S] (z : S) (m : Memory S) (a : Nat) (v : S) : Memory S :=
  if v = z then Memory.erase m a else Memory.insert m a v

/-- Words `0 .. n-1` written with `f 0 .. f (n-1)`, in rising order. -/
def Memory.fill [DecidableEq S] (z : S) (f : Nat → S) (m : Memory S) : Nat → Memory S
  | 0 => m
  | n + 1 => Memory.write z (Memory.fill z f m n) n (f n)

/-- The addresses rise strictly. -/
def Memory.sorted : Memory S → Bool
  | [] => true
  | (a, _) :: rest => rest.all (fun c => decide (a < c.1)) && Memory.sorted rest

/-- The canonical form of a delay line of `cap` words: addresses strictly rising and below `cap`, no entry equal to what an
unlisted word reads as. -/
def Memory.wf [DecidableEq S] (z : S) (cap : Nat) (m : Memory S) : Bool :=
  Memory.sorted m && m.all (fun c => decide (c.1 < cap) && decide (c.2 ≠ z))

/-- Operator `k` of a voice. -/
def FmVoice.op (v : FmVoice S) : OpIx → Operator S
  | .op0 => v.op0
  | .op1 => v.op1
  | .op2 => v.op2

/-- A voice with operator `k` replaced. -/
def FmVoice.setOp (v : FmVoice S) (k : OpIx) (o : Operator S) : FmVoice S :=
  match k with
  | .op0 => { v with op0 := o }
  | .op1 => { v with op1 := o }
  | .op2 => { v with op2 := o }

/-- A voice with the envelope of operator `k` replaced. -/
def FmVoice.setEnv (v : FmVoice S) (k : OpIx) (e : Envelope S) : FmVoice S :=
  v.setOp k { v.op k with env := e }

/-- A voice with the oscillator of operator `k` replaced. -/
def FmVoice.setOsc (v : FmVoice S) (k : OpIx) (o : Oscillator S) : FmVoice S :=
  v.setOp k { v.op k with osc := o }

/-- The result multiplexer (46_bank_mixer R189): the result of the command just executed. -/
def State.withResult (s : State) (r : Result Sample) : State := { s with result := r }

/-- What appears on the 32-bit result port (30_encoding R96): nothing for `none`. -/
def Result.port (num : Num S) : Result S → Option Word32
  | .none => Option.none
  | .sample x => some (num.toF32 x)
  | .word w => some w

/-- An illegal command: "no register and no memory word changes, and the result is `none`" (30_encoding R103). -/
def State.ignore (s : State) : State := s.withResult .none

/-- The bank of FM voices replaced. -/
def State.withFm (s : State) (xs : List (FmVoice Sample)) : State := { s with fm := xs }

/-- The bank of string voices replaced. -/
def State.withStr (s : State) (xs : List (StringVoice Sample)) : State := { s with str := xs }

/-- The bank of discrete envelopes replaced. -/
def State.withDenv (s : State) (xs : List (Denv Sample)) : State := { s with denv := xs }

/-- The bank of square generators replaced. -/
def State.withSq (s : State) (xs : List Square) : State := { s with sq := xs }

/-- The bank of noise generators replaced. -/
def State.withNz (s : State) (xs : List Noise) : State := { s with nz := xs }

/-- The host's stream less its first word. -/
def State.withCmds (s : State) (ws : List CmdWord) : State := { s with cmds := ws }

/-- Unit `i` of a bank `xs` of the state, stepped by `f`, put back by `put`, its result on the port. A unit that does not
exist is an illegal command (R103 (d)). -/
def State.onUnit {α : Type} (s : State) (xs : List α) (put : State → List α → State) (i : UnitIx)
    (f : α → α × Result Sample) : State :=
  match xs[i.toNat]? with
  | some x => (put s (xs.set i.toNat (f x).1)).withResult (f x).2
  | none => s.ignore

/-- One FM voice stepped. -/
def State.onVoice (s : State) (v : UnitIx) (f : FmVoice Sample → FmVoice Sample × Result Sample) : State :=
  s.onUnit s.fm State.withFm v f

/-- One string voice stepped. -/
def State.onString (s : State) (i : UnitIx) (f : StringVoice Sample → StringVoice Sample × Result Sample) : State :=
  s.onUnit s.str State.withStr i f

/-- One discrete envelope stepped. -/
def State.onDenv (s : State) (d : UnitIx) (f : Denv Sample → Denv Sample × Result Sample) : State :=
  s.onUnit s.denv State.withDenv d f

/-- One square generator stepped. -/
def State.onSquare (s : State) (q : UnitIx) (f : Square → Square × Result Sample) : State :=
  s.onUnit s.sq State.withSq q f

/-- One noise generator stepped. -/
def State.onNoise (s : State) (n : UnitIx) (f : Noise → Noise × Result Sample) : State :=
  s.onUnit s.nz State.withNz n f

/-- What `RD` presents of an envelope register (47_register_access R193). -/
def envRegResult (e : Envelope S) : EnvReg → Result S
  | .A => .sample e.A
  | .D => .sample e.D
  | .SL => .sample e.SL
  | .R => .sample e.R
  | .st => .word (envStateCode e.st)
  | .t => .sample e.t
  | .out => .sample e.out

/-- What `RD` presents of an oscillator register (R193). -/
def oscRegResult (k : OpIx) (o : Oscillator S) : OscReg → Result S
  | .w => .sample o.w
  | .p => .sample o.p
  | .vol => .sample o.vol
  | .m => .sample o.m
  | .raw => .sample o.raw
  | .tgt => .word (targetCode k)

/-- What `RD` presents of a string register (R193). -/
def strRegResult (v : StringVoice S) : StrReg → Result S
  | .N => .word (BitVec.ofNat 32 v.N)
  | .cur => .word (BitVec.ofNat 32 v.cur)

/-- What `RD` presents of a discrete envelope register (R193). -/
def denvRegResult (g : Denv S) : DenvReg → Result S
  | .period => .word g.period
  | .counter => .word g.counter
  | .flags => .word (g.flags.setWidth 32)
  | .sel => .word (dselCode g.sel)
  | .out => .sample g.out

/-- What `RD` presents of a square generator register (R193). -/
def sqRegResult (g : Square) : SqReg → Result S
  | .period => .word g.period
  | .counter => .word g.counter
  | .out => .word (g.out.setWidth 32)

/-- What `RD` presents of a noise generator register (R193). -/
def nzRegResult (g : Noise) : NzReg → Result S
  | .period => .word g.period
  | .counter => .word g.counter
  | .out => .word (g.out.setWidth 32)
  | .rng => .word (g.rng.setWidth 32)

/-- What `RD` presents of a location (R193); `none` where the location does not exist (R192). -/
def State.readLoc (s : State) : Loc → Result Sample
  | .env v k r =>
    match s.fm[v.toNat]? with
    | some x => envRegResult (x.op k).env r
    | none => .none
  | .osc v k r =>
    match s.fm[v.toNat]? with
    | some x => oscRegResult k (x.op k).osc r
    | none => .none
  | .str i r =>
    match s.str[i.toNat]? with
    | some x => strRegResult x r
    | none => .none
  | .denv d r =>
    match s.denv[d.toNat]? with
    | some x => denvRegResult x r
    | none => .none
  | .sq q r =>
    match s.sq[q.toNat]? with
    | some x => sqRegResult x r
    | none => .none
  | .nz n r =>
    match s.nz[n.toNat]? with
    | some x => nzRegResult x r
    | none => .none
  | .dl i a =>
    match s.str[i.toNat]? with
    | some x => if a.toNat < s.par.cap then .sample (Memory.read numF32.zero x.dl a.toNat) else .none
    | none => .none

/-- An envelope with a writable register written; the other registers are not writable (47_register_access R195). -/
def writeEnvReg (e : Envelope S) (r : EnvReg) (x : S) : Envelope S :=
  match r with
  | .A => { e with A := x }
  | .D => { e with D := x }
  | .SL => { e with SL := x }
  | .R => { e with R := x }
  | .st => e
  | .t => e
  | .out => e

/-- An oscillator with a writable register written (R195). -/
def writeOscReg (o : Oscillator S) (r : OscReg) (x : S) : Oscillator S :=
  match r with
  | .vol => { o with vol := x }
  | .w => o
  | .p => o
  | .m => o
  | .raw => o
  | .tgt => o

/-- A discrete envelope with a writable register written: all 32 operand bits (R195). -/
def writeDenvReg (g : Denv S) (r : DenvReg) (x : Word32) : Denv S :=
  match r with
  | .period => { g with period := x }
  | .counter => g
  | .flags => g
  | .sel => g
  | .out => g

/-- A square generator with a writable register written (R195). -/
def writeSqReg (g : Square) (r : SqReg) (x : Word32) : Square :=
  match r with
  | .period => { g with period := x }
  | .counter => g
  | .out => g

/-- A noise generator with a writable register written: `rng` keeps operand bits 16:0 (R195). -/
def writeNzReg (g : Noise) (r : NzReg) (x : Word32) : Noise :=
  match r with
  | .period => { g with period := x }
  | .rng => { g with rng := x.extractLsb' 0 17 }
  | .counter => g
  | .out => g

/-- The effect of `WR` on a location (R195): only the named register changes, nothing is recomputed (R196). -/
def State.writeLoc (s : State) (loc : Loc) (x : Word32) : State :=
  match loc with
  | .env v k r =>
    s.onVoice v fun y => (y.setEnv k (writeEnvReg (y.op k).env r (numF32.ofF32 x)), .none)
  | .osc v k r =>
    s.onVoice v fun y => (y.setOsc k (writeOscReg (y.op k).osc r (numF32.ofF32 x)), .none)
  | .denv d r => s.onDenv d fun y => (writeDenvReg y r x, .none)
  | .sq q r => s.onSquare q fun y => (writeSqReg y r x, .none)
  | .nz n r => s.onNoise n fun y => (writeNzReg y r x, .none)
  | .str _ _ => s.ignore
  | .dl _ _ => s.ignore

/-- A location exists in an instance: its unit is below the count of the class, a delay-line word below `CAP`
(30_encoding R103 (d), (g)). -/
def locExists (c : Cfg) : Loc → Bool
  | .env v _ _ => decide (v.toNat < c.nv)
  | .osc v _ _ => decide (v.toNat < c.nv)
  | .str i _ => decide (i.toNat < c.ns)
  | .denv d _ => decide (d.toNat < c.nd)
  | .sq q _ => decide (q.toNat < c.nq)
  | .nz n _ => decide (n.toNat < c.nn)
  | .dl i a => decide (i.toNat < c.ns) && decide (a.toNat < c.par.cap)

/-- The checks of R103 that `CFG` or the numerics decide: the `unit` bound of R98, the location, and `0 < f` for
`STR.NOTEON`. -/
def inRange (c : Cfg) : Instr → Bool
  | .rd loc => locExists c loc
  | .wr loc _ => locExists c loc
  | .envSet v _ _ => decide (v.toNat < c.nv)
  | .envUpd v _ _ => decide (v.toNat < c.nv)
  | .envOut v _ => decide (v.toNat < c.nv)
  | .oscSetF v _ _ => decide (v.toNat < c.nv)
  | .oscUpd v _ _ => decide (v.toNat < c.nv)
  | .oscOut v _ => decide (v.toNat < c.nv)
  | .fmNoteOn v _ => decide (v.toNat < c.nv)
  | .fmNoteOff v => decide (v.toNat < c.nv)
  | .fmTick v _ => decide (v.toNat < c.nv)
  | .strNoteOn i f => decide (i.toNat < c.ns) && numF32.lt numF32.zero (numF32.ofF32 f)
  | .strNoteOff i => decide (i.toNat < c.ns)
  | .strTick i _ => decide (i.toNat < c.ns)
  | .denvSetFlags d _ => decide (d.toNat < c.nd)
  | .denvTick d => decide (d.toNat < c.nd)
  | .sqTick q => decide (q.toNat < c.nq)
  | .nzTick n => decide (n.toNat < c.nn)
  | .bankTick _ => true

/-- A legal command of an instance: no clause of R103 holds. -/
def legal (c : Cfg) (i : Instr) : Bool := wellFormed i && inRange c i

/-- The whole decoding algorithm of R100: the command of a word, or none where R103 makes it illegal. -/
def decodeCommand (c : Cfg) (w : CmdWord) : Option Instr :=
  match decode w with
  | .ok i => if legal c i then some i else none
  | .error _ => none

/-- The outcome of a step of this block. -/
abbrev StepOutcome := Host.Outcome State Fault Refusal

/-- The shape of every meaning: a legal command has its effect, an illegal one changes nothing and presents no result
(R103, 60_exceptions R206). -/
def perform (i : Instr) (s : State) (effect : State → State) : StepOutcome :=
  .next (if legal s.cfg i then effect s else s.ignore)

/-- The next command word of the host's stream and the state without it; none when the host presents nothing (R92). -/
def State.fetch (s : State) : Option (CmdWord × State) :=
  match s.cmds with
  | [] => none
  | w :: rest => some (w, s.withCmds rest)

/-- The host presents a word before the rest of its stream (R92, log 1). -/
def State.present (s : State) (w : CmdWord) : State := s.withCmds (w :: s.cmds)

/-- A string voice at the reset event: every register and word at its reset value, the noise source where it was. -/
def StringVoice.resetEvent (v : StringVoice Sample) : StringVoice Sample := { StringVoice.reset with taken := v.taken }

/-- The reset event (70_reset R220): every register and word at its reset value in the same instance. What the host and the
noise source have still to give is theirs and stays (log 17). No command does this. -/
def State.resetEvent (s : State) : State :=
  { State.resetOf s.cfg with str := s.str.map StringVoice.resetEvent, cmds := s.cmds }

end Sys2Proof.Machine
end

