-- ==== Sys2Proof/Machine/Envelope.lean ====
section
/-! DEFINITION. The continuous ADSR envelope generator: ENV.SET, ENV.UPD, ENV.OUT (40_envelope). -/

namespace Sys2Proof.Machine

variable {S : Type}

/-- The output function of R112. -/
def envf (num : Num S) (st : EnvState) (t A D SL R : S) : S :=
  match st with
  | .attack => if num.le A num.zero then num.one else num.div t A
  | .decay =>
    let frac := if num.le D num.zero then num.one else num.div t D
    num.add (num.sub num.one frac) (num.mul frac SL)
  | .sustain => SL
  | .release =>
    if num.le R num.zero then num.zero else num.mul SL (num.sub num.one (num.div t R))
  | .off => num.zero

/-- The output of an envelope in state `st` at elapsed time `t`. -/
def envOutput (num : Num S) (e : Envelope S) (st : EnvState) (t : S) : S :=
  envf num st t e.A e.D e.SL e.R

/-- ENV.SET (R113): the timer restarts in Attack or Release and the output is that of the new state at 0. -/
def envSet (num : Num S) (gate : Bool) (e : Envelope S) : Envelope S :=
  let st := if gate then .attack else .release
  { e with st := st, t := num.zero, out := envOutput num e st num.zero }

/-- The duration and successor of a timed state; Sustain and Off have none (R115). -/
def envTimeout (e : Envelope S) : Option (S × EnvState) :=
  match e.st with
  | .attack => some (e.A, .decay)
  | .decay => some (e.D, .sustain)
  | .release => some (e.R, .off)
  | .sustain => none
  | .off => none

/-- Step 3 of ENV.UPD (R116): a timed state whose duration the timer exceeds is left, and the timer restarts. -/
def envLeave (num : Num S) (e : Envelope S) : Envelope S :=
  match envTimeout e with
  | some (duration, next) => if num.lt duration e.t then { e with st := next, t := num.zero } else e
  | none => e

/-- ENV.UPD (R116): advance, recompute in the state held on entry, then at most one time-out. -/
def envUpd (num : Num S) (dt : S) (e : Envelope S) : Envelope S :=
  let t := num.add e.t dt
  envLeave num { e with t := t, out := envOutput num e e.st t }

/-- The meaning of `ENV.SET v.k, gate` (R113). -/
def execEnvSet (v : UnitIx) (k : OpIx) (gate : Bool) (s : State) : StepOutcome :=
  perform (.envSet v k gate) s fun s =>
    s.onVoice v fun x => (x.setEnv k (envSet numF32 gate (x.op k).env), .none)

/-- The meaning of `ENV.UPD v.k, dt` (R116). -/
def execEnvUpd (v : UnitIx) (k : OpIx) (dt : Word32) (s : State) : StepOutcome :=
  perform (.envUpd v k dt) s fun s =>
    s.onVoice v fun x => (x.setEnv k (envUpd numF32 (numF32.ofF32 dt) (x.op k).env), .none)

/-- The meaning of `ENV.OUT v.k` (R121): the stored output, nothing recomputed. -/
def execEnvOut (v : UnitIx) (k : OpIx) (s : State) : StepOutcome :=
  perform (.envOut v k) s fun s => s.onVoice v fun x => (x, .sample (x.op k).env.out)

end Sys2Proof.Machine
end

