-- ==== Sys2Proof/Machine/Oscillator.lean ====
section
/-! DEFINITION. The oscillator phase accumulator with FM modulation input: OSC.SETF, OSC.UPD, OSC.OUT (41_oscillator). -/

namespace Sys2Proof.Machine

variable {S : Type}

/-- OSC.SETF (R126). -/
def oscSetF (num : Num S) (f : S) (o : Oscillator S) : Oscillator S :=
  { o with w := num.mul num.twoPi f, p := num.zero }

/-- Steps 1 to 3 of OSC.UPD (R127): sample with the phase before the advance, advance, consume the modulation. -/
def oscAdvance (num : Num S) (dt : S) (o : Oscillator S) : Oscillator S :=
  { o with raw := num.sin (num.add (num.mul o.w o.p) o.m), p := num.add o.p dt, m := num.zero }

/-- `x` added to the modulation accumulator. -/
def oscPush (num : Num S) (x : S) (o : Oscillator S) : Oscillator S := { o with m := num.add o.m x }

/-- OSC.UPD on operator `k` of a voice (R127): steps 1 to 3, then the raw sample pushed to the target, if any. -/
def oscUpd (num : Num S) (k : OpIx) (dt : S) (v : FmVoice S) : FmVoice S :=
  let o := oscAdvance num dt (v.op k).osc
  let v := v.setOsc k o
  match oscTarget k with
  | none => v
  | some j => v.setOsc j (oscPush num o.raw (v.op j).osc)

/-- OSC.OUT (R129): the product formed now, with the volume of now. -/
def oscOut (num : Num S) (o : Oscillator S) : S := num.mul o.raw o.vol

/-- The meaning of `OSC.SETF v.k, f` (R126). -/
def execOscSetF (v : UnitIx) (k : OpIx) (f : Word32) (s : State) : StepOutcome :=
  perform (.oscSetF v k f) s fun s =>
    s.onVoice v fun x => (x.setOsc k (oscSetF numF32 (numF32.ofF32 f) (x.op k).osc), .none)

/-- The meaning of `OSC.UPD v.k, dt` (R127). -/
def execOscUpd (v : UnitIx) (k : OpIx) (dt : Word32) (s : State) : StepOutcome :=
  perform (.oscUpd v k dt) s fun s =>
    s.onVoice v fun x => (oscUpd numF32 k (numF32.ofF32 dt) x, .none)

/-- The meaning of `OSC.OUT v.k` (R129). -/
def execOscOut (v : UnitIx) (k : OpIx) (s : State) : StepOutcome :=
  perform (.oscOut v k) s fun s => s.onVoice v fun x => (x, .sample (oscOut numF32 (x.op k).osc))

end Sys2Proof.Machine
end

