-- ==== Sys2Proof/Machine/Voice.lean ====
section
/-! DEFINITION. The FM voice: FM.NOTEON, FM.NOTEOFF, FM.TICK (42_fm_voice), fixed sequences of the unit operations. -/

namespace Sys2Proof.Machine

variable {S : Type}

/-- `ENV.SET(v, k, gate)` as a sub-step (42_fm_voice). -/
def voiceEnvSet (num : Num S) (k : OpIx) (gate : Bool) (v : FmVoice S) : FmVoice S :=
  v.setEnv k (envSet num gate (v.op k).env)

/-- `ENV.UPD(v, k, dt)` as a sub-step. -/
def voiceEnvUpd (num : Num S) (k : OpIx) (dt : S) (v : FmVoice S) : FmVoice S :=
  v.setEnv k (envUpd num dt (v.op k).env)

/-- `OSC.SETF(v, k, f)` as a sub-step. -/
def voiceOscSetF (num : Num S) (k : OpIx) (f : S) (v : FmVoice S) : FmVoice S :=
  v.setOsc k (oscSetF num f (v.op k).osc)

/-- `ENV.SET` with the same gate on the three envelopes, in index order. -/
def voiceGate (num : Num S) (gate : Bool) (v : FmVoice S) : FmVoice S :=
  voiceEnvSet num .op2 gate (voiceEnvSet num .op1 gate (voiceEnvSet num .op0 gate v))

/-- FM.NOTEON (R134): frequencies `f`, `2 * f`, `4 * f`, then every envelope to Attack. -/
def fmNoteOn (num : Num S) (f : S) (v : FmVoice S) : FmVoice S :=
  let v := voiceOscSetF num .op0 f v
  let v := voiceOscSetF num .op1 (num.mul num.two f) v
  let v := voiceOscSetF num .op2 (num.mul num.four f) v
  voiceGate num true v

/-- FM.NOTEOFF (R135): every envelope to Release. -/
def fmNoteOff (num : Num S) (v : FmVoice S) : FmVoice S := voiceGate num false v

/-- The state changes of FM.TICK (R136): the envelopes, then the modulators, then the carrier. -/
def fmAdvance (num : Num S) (dt : S) (v : FmVoice S) : FmVoice S :=
  let v := voiceEnvUpd num .op0 dt v
  let v := voiceEnvUpd num .op1 dt v
  let v := voiceEnvUpd num .op2 dt v
  let v := oscUpd num .op1 dt v
  let v := oscUpd num .op2 dt v
  oscUpd num .op0 dt v

/-- The output multiplier, step 4 of FM.TICK (R136). -/
def fmSample (num : Num S) (v : FmVoice S) : S := num.mul (oscOut num v.op0.osc) v.op0.env.out

/-- FM.TICK (R136): the voice afterwards and its sample. -/
def fmTick (num : Num S) (dt : S) (v : FmVoice S) : FmVoice S × S :=
  let v := fmAdvance num dt v
  (v, fmSample num v)

/-- The meaning of `FM.NOTEON v, f` (R134). -/
def execFmNoteOn (v : UnitIx) (f : Word32) (s : State) : StepOutcome :=
  perform (.fmNoteOn v f) s fun s =>
    s.onVoice v fun x => (fmNoteOn numF32 (numF32.ofF32 f) x, .none)

/-- The meaning of `FM.NOTEOFF v` (R135). -/
def execFmNoteOff (v : UnitIx) (s : State) : StepOutcome :=
  perform (.fmNoteOff v) s fun s => s.onVoice v fun x => (fmNoteOff numF32 x, .none)

/-- The meaning of `FM.TICK v, dt` (R136). -/
def execFmTick (v : UnitIx) (dt : Word32) (s : State) : StepOutcome :=
  perform (.fmTick v dt) s fun s =>
    s.onVoice v fun x =>
      let (y, sample) := fmTick numF32 (numF32.ofF32 dt) x
      (y, .sample sample)

end Sys2Proof.Machine
end

