-- ==== Sys2Proof/Machine/Bank.lean ====
section
/-! DEFINITION. The voice bank summer: BANK.TICK (46_bank_mixer). -/

namespace Sys2Proof.Machine

variable {S : Type}

/-- The loop of BANK.TICK (R187) from an accumulator: every voice ticked once in ascending order, its sample added on the
right. -/
def bankTick (num : Num S) (dt : S) : List (FmVoice S) → S → List (FmVoice S) × S
  | [], acc => ([], acc)
  | v :: rest, acc =>
    let (v', y) := fmTick num dt v
    let (rest', total) := bankTick num dt rest (num.add acc y)
    (v' :: rest', total)

/-- The meaning of `BANK.TICK dt` (R187). -/
def execBankTick (dt : Word32) (s : State) : StepOutcome :=
  perform (.bankTick dt) s fun s =>
    let (voices, total) := bankTick numF32 (numF32.ofF32 dt) s.fm numF32.zero
    (s.withFm voices).withResult (.sample total)

end Sys2Proof.Machine
end

