-- ==== Sys2Proof/Machine/DiscreteEnvelope.lean ====
section
/-! DEFINITION. The discrete envelope state-machine controller: DENV.SETFLAGS, DENV.TICK (44_discrete_envelope). -/

namespace Sys2Proof.Machine

variable {S : Type}

/-- DENV.SETFLAGS (R163): the low 4 operand bits, and the start state of bit 2; nothing else. -/
def denvSetFlags (operand : Word32) (g : Denv S) : Denv S :=
  let flags := operand.extractLsb' 0 4
  { g with flags := flags, sel := if flagAttackFirst flags then .attack else .decay }

/-- The ramp fraction (R164). -/
def rampfrac (num : Num S) (c P : Word32) : S :=
  if P = 0#32 then num.one else num.div (num.ofNat c.toNat) (num.ofNat P.toNat)

/-- `advance(dir)` (R165): the increment is computed without wrap (10_state R38), the comparison is strict, the counter
reset does not depend on the table entry, and an entry of -1 keeps the selector (R166). -/
def denvAdvance (dir : Direction) (g : Denv S) : Denv S :=
  let c := g.counter.toNat + 1
  if g.period.toNat < c then
    { g with counter := 0#32, sel := (ttEntry dir g.flags).getD g.sel }
  else { g with counter := BitVec.ofNat 32 c }

/-- DENV.TICK (R165): the envelope afterwards; its `out` is the result. -/
def denvTick (num : Num S) (g : Denv S) : Denv S :=
  match g.sel with
  | .decay => denvAdvance .leavingDecay { g with out := num.sub num.one (rampfrac num g.counter g.period) }
  | .attack => denvAdvance .leavingAttack { g with out := rampfrac num g.counter g.period }
  | .holdLow => { g with out := num.zero }
  | .holdHigh => { g with out := num.one }

/-- The meaning of `DENV.SETFLAGS d, flags` (R163). -/
def execDenvSetFlags (d : UnitIx) (flags : Word32) (s : State) : StepOutcome :=
  perform (.denvSetFlags d flags) s fun s => s.onDenv d fun g => (denvSetFlags flags g, .none)

/-- The meaning of `DENV.TICK d` (R165). -/
def execDenvTick (d : UnitIx) (s : State) : StepOutcome :=
  perform (.denvTick d) s fun s =>
    s.onDenv d fun g => (denvTick numF32 g, .sample (denvTick numF32 g).out)

end Sys2Proof.Machine
end

