-- ==== Sys2Proof/Machine/Registers.lean ====
section
/-! DEFINITION. Register access: RD, WR (47_register_access). -/

namespace Sys2Proof.Machine

/-- The meaning of `RD loc` (R193): no state changes at any location. -/
def execRd (loc : Loc) (s : State) : StepOutcome :=
  perform (.rd loc) s fun s => s.withResult (s.readLoc loc)

/-- The meaning of `WR loc, value` (R195). -/
def execWr (loc : Loc) (value : Word32) (s : State) : StepOutcome :=
  perform (.wr loc value) s fun s => s.writeLoc loc value

end Sys2Proof.Machine
end

