-- ==== Sys2Proof/Machine/SquareNoise.lean ====
section
/-! DEFINITION. The square and noise generators: SQ.TICK, NZ.TICK (45_square_noise). -/

namespace Sys2Proof.Machine

/-- `count(c, P)` (R176): increment without wrap, then fire and reset when the count has reached the period. -/
def countTick (c P : Word32) : Word32 × Bool :=
  let c1 := c.toNat + 1
  if P.toNat ≤ c1 then (0#32, true) else (BitVec.ofNat 32 c1, false)

/-- SQ.TICK (R178): the generator afterwards; its `out` is the result. -/
def sqTick (g : Square) : Square :=
  let (c, fire) := countTick g.counter g.period
  { g with counter := c, out := if fire then g.out ^^^ 1#1 else g.out }

/-- The LFSR step (R180): `fb ++ rng[16:1]` with feedback `rng[0] xor rng[3]`. -/
def lfsr (rng : BitVec 17) : BitVec 17 :=
  (rng.extractLsb' 0 1 ^^^ rng.extractLsb' 3 1) ++ rng.extractLsb' 1 16

/-- NZ.TICK (R181): the generator afterwards; `out` is recomputed at every tick, after the possible advance. -/
def nzTick (g : Noise) : Noise :=
  let (c, fire) := countTick g.counter g.period
  let rng := if fire then lfsr g.rng else g.rng
  { g with counter := c, rng := rng, out := rng.extractLsb' 0 1 }

/-- The meaning of `SQ.TICK q` (R178). -/
def execSqTick (q : UnitIx) (s : State) : StepOutcome :=
  perform (.sqTick q) s fun s =>
    s.onSquare q fun g => (sqTick g, .word ((sqTick g).out.setWidth 32))

/-- The meaning of `NZ.TICK n` (R181). -/
def execNzTick (n : UnitIx) (s : State) : StepOutcome :=
  perform (.nzTick n) s fun s =>
    s.onNoise n fun g => (nzTick g, .word ((nzTick g).out.setWidth 32))

end Sys2Proof.Machine
end

