-- ==== Sys2Proof/Machine/Strings.lean ====
section
/-! DEFINITION. The string voice: STR.NOTEON, STR.NOTEOFF, STR.TICK (43_string_voice). -/

namespace Sys2Proof.Machine

variable {S : Type}

/-- `(i - 1) mod n` for `i < n` (00_scope R13): the word before word `i`, word `n - 1` before word 0. -/
def prevIndex (i n : Nat) : Nat := (i + (n - 1)) % n

/-- The buffer length of STR.NOTEON (R142): `SAMPLE_RATE / f` rounded, between 1 and `CAP`. -/
def stringLength (num : Num S) (par : Params S) (f : S) : Nat :=
  let q := num.div par.sampleRate f
  if num.le (num.ofNat par.cap) q then par.cap else (max 1 (num.rnd q)).toNat

/-- Word `i` of the unsmoothed excitation of `n` words (R142, R143): the draw plus the harmonic sine. -/
def excitation (num : Num S) (par : Params S) (draw : Nat → S) (n i : Nat) : S :=
  num.add (draw i)
    (num.mul par.harmAmp
      (num.sin (num.div (num.mul (num.mul num.twoPi (num.ofNat par.harmRatio)) (num.ofNat i)) (num.ofNat n))))

/-- Word `i` after the one smoothing pass (R144): the average with the unsmoothed word before it, circular. -/
def smoothed (num : Num S) (x : Nat → S) (n i : Nat) : S :=
  num.mul (num.add (x i) (x (prevIndex i n))) num.half

/-- STR.NOTEON (R142). Words at and above the new length keep what they held; `n` draws are consumed (R141). -/
def strNoteOn [DecidableEq S] (num : Num S) (par : Params S) (draw : Nat → S) (f : S) (v : StringVoice S) :
    StringVoice S :=
  let n := stringLength num par f
  { N := n
    cur := 0
    dl := Memory.fill num.zero (smoothed num (excitation num par draw n) n) v.dl n
    taken := v.taken + n }

/-- The damped blend of the current and the previous sample (R147). -/
def stringBlend (num : Num S) (par : Params S) (cur0 prev : S) : S :=
  num.mul par.damping
    (num.add (num.mul par.blendA cur0) (num.mul (num.sub num.one par.blendA) prev))

/-- The sample that STR.TICK writes (R147). -/
def stringSample (num : Num S) (par : Params S) (v : StringVoice S) : S :=
  stringBlend num par (Memory.read num.zero v.dl v.cur) (Memory.read num.zero v.dl (prevIndex v.cur v.N))

/-- STR.TICK (R147): the voice afterwards and the scaled sample. -/
def strTick [DecidableEq S] (num : Num S) (par : Params S) (v : StringVoice S) : StringVoice S × S :=
  let y := stringSample num par v
  ({ v with dl := Memory.write num.zero v.dl v.cur y, cur := (v.cur + 1) % v.N }, num.mul y par.strGain)

/-- Draw number `j` ever of string voice `i`: any value in [-1, 1] (R141, I11). The free value where it lies in the
interval, else 0 (log 10). -/
def drawAt (i j : Nat) : Sample :=
  let x := Config.freeDraw i j
  if F32.le 0xBF800000#32 x && F32.le x 0x3F800000#32 then x else 0#32

/-- `draw(j)` of a command on string voice `i` (00_scope R15): the draws are the command's own (R16), consumed in index
order (R141), so that commands on different strings commute (20_memory R68 (c)). -/
def StringVoice.draw {S : Type} (v : StringVoice S) (i : UnitIx) (j : Nat) : Sample := drawAt i.toNat (v.taken + j)

/-- The meaning of `STR.NOTEON s, f` (R142). -/
def execStrNoteOn (i : UnitIx) (f : Word32) (s : State) : StepOutcome :=
  perform (.strNoteOn i f) s fun s =>
    s.onString i fun x => (strNoteOn numF32 s.par (x.draw i) (numF32.ofF32 f) x, .none)

/-- The meaning of `STR.NOTEOFF s` (R146): a legal command that changes nothing. -/
def execStrNoteOff (i : UnitIx) (s : State) : StepOutcome :=
  perform (.strNoteOff i) s fun s => s.withResult .none

/-- The meaning of `STR.TICK s[, dt]` (R147); the operand is ignored. -/
def execStrTick (i : UnitIx) (ignored : Word32) (s : State) : StepOutcome :=
  perform (.strTick i ignored) s fun s =>
    s.onString i fun x =>
      let (y, sample) := strTick numF32 s.par x
      (y, .sample sample)

end Sys2Proof.Machine
end

