-- ==== Sys2Proof/Machine/Dispatch.lean ====
section
/-! DEFINITION. One arm per command: `exec` calls the meaning of each. -/

namespace Sys2Proof.Machine

def exec (i : Instr) (s : State) : Host.Outcome State Fault Refusal :=
  match i with
  | .rd loc => Sys2Proof.Machine.execRd loc s
  | .wr loc value => Sys2Proof.Machine.execWr loc value s
  | .envSet v k gate => Sys2Proof.Machine.execEnvSet v k gate s
  | .envUpd v k dt => Sys2Proof.Machine.execEnvUpd v k dt s
  | .envOut v k => Sys2Proof.Machine.execEnvOut v k s
  | .oscSetF v k f => Sys2Proof.Machine.execOscSetF v k f s
  | .oscUpd v k dt => Sys2Proof.Machine.execOscUpd v k dt s
  | .oscOut v k => Sys2Proof.Machine.execOscOut v k s
  | .fmNoteOn v f => Sys2Proof.Machine.execFmNoteOn v f s
  | .fmNoteOff v => Sys2Proof.Machine.execFmNoteOff v s
  | .fmTick v dt => Sys2Proof.Machine.execFmTick v dt s
  | .strNoteOn j f => Sys2Proof.Machine.execStrNoteOn j f s
  | .strNoteOff j => Sys2Proof.Machine.execStrNoteOff j s
  | .strTick j ignored => Sys2Proof.Machine.execStrTick j ignored s
  | .denvSetFlags d flags => Sys2Proof.Machine.execDenvSetFlags d flags s
  | .denvTick d => Sys2Proof.Machine.execDenvTick d s
  | .sqTick q => Sys2Proof.Machine.execSqTick q s
  | .nzTick n => Sys2Proof.Machine.execNzTick n s
  | .bankTick dt => Sys2Proof.Machine.execBankTick dt s

end Sys2Proof.Machine
end

