-- ==== Sys2Proof/Machine/Step.lean ====
section
/-! DEFINITION. One step of the block: the next command word of the host's stream is decoded and executed to completion
(30_encoding R92, R100). -/

namespace Sys2Proof.Machine

/-- One step (00_scope R16). A word that is no command is ignored (R103); with no word presented the block is idle and
holds its state, and nothing is on the result port (R92, 46_bank_mixer R189, log 1). -/
def step (s : State) : Host.Outcome State Fault Refusal :=
  match s.fetch with
  | none => .next s.ignore
  | some (w, s') =>
    match decode w with
    | .ok i => exec i s'
    | .error _ => .next s'.ignore

/-- The state in which the host presents the word `w` next (log 1): a command is one 64-bit word, numbered as
spec/opcode_table.json numbers it, the bits at and above `nbits` 0. -/
def State.withFetchWord (s : State) (nbits w : Nat) : State := s.present (BitVec.ofNat 64 (w % 2 ^ nbits))

end Sys2Proof.Machine
end

