-- ==== Sys2Proof/Machine/Assembler.lean ====
section
/-! DEFINITION. The spec's textual form of a command (30_encoding R106) and its pseudo-instructions (R107). No step uses
this file; what R106 leaves open of the text is in log 20. -/

namespace Sys2Proof.Machine.Asm

/-- A piece of a source line. -/
abbrev Text := List Char

/-- The pseudo-instructions of R107. -/
inductive Pseudo where
  | envOn (v : UnitIx) (k : OpIx)
  | envOff (v : UnitIx) (k : OpIx)
  | envAdsr (v : UnitIx) (k : OpIx) (a d s r : Word32)
  | oscVol (v : UnitIx) (k : OpIx) (x : Word32)
  | denvPeriod (d : UnitIx) (n : Word32)
  | sqPeriod (q : UnitIx) (n : Word32)
  | nzPeriod (n : UnitIx) (p : Word32)
  | nzSeed (n : UnitIx) (x : Word32)
deriving DecidableEq, Repr

/-- The expansions of R107. -/
def Pseudo.expand : Pseudo → List Instr
  | .envOn v k => [.envSet v k true]
  | .envOff v k => [.envSet v k false]
  | .envAdsr v k a d s r =>
    [.wr (.env v k .A) a, .wr (.env v k .D) d, .wr (.env v k .SL) s, .wr (.env v k .R) r]
  | .oscVol v k x => [.wr (.osc v k .vol) x]
  | .denvPeriod d n => [.wr (.denv d .period) n]
  | .sqPeriod q n => [.wr (.sq q .period) n]
  | .nzPeriod n p => [.wr (.nz n .period) p]
  | .nzSeed n x => [.wr (.nz n .rng) x]

/-- The pieces of a text between occurrences of `c`. -/
def split (c : Char) : Text → List Text
  | [] => [[]]
  | x :: xs =>
    if x = c then [] :: split c xs
    else match split c xs with
      | [] => [[x]]
      | p :: ps => (x :: p) :: ps

/-- A text without spaces at its ends. -/
def trim (t : Text) : Text :=
  ((t.dropWhile fun c => c == ' ').reverse.dropWhile fun c => c == ' ').reverse

/-- A decimal digit. -/
def digit (c : Char) : Option Nat :=
  if '0'.toNat ≤ c.toNat ∧ c.toNat ≤ '9'.toNat then some (c.toNat - '0'.toNat) else none

/-- A hexadecimal digit, either case. -/
def hexDigit (c : Char) : Option Nat :=
  if 'A'.toNat ≤ c.toNat ∧ c.toNat ≤ 'F'.toNat then some (c.toNat - 'A'.toNat + 10)
  else if 'a'.toNat ≤ c.toNat ∧ c.toNat ≤ 'f'.toNat then some (c.toNat - 'a'.toNat + 10)
  else digit c

/-- The digits of a text in a base, after a value already read. -/
def digits (base : Nat) (dig : Char → Option Nat) : Text → Nat → Option Nat
  | [], acc => some acc
  | c :: cs, acc => (dig c).bind fun d => digits base dig cs (acc * base + d)

/-- A non-empty digit string. -/
def number (base : Nat) (dig : Char → Option Nat) (t : Text) : Option Nat :=
  if t.isEmpty then none else digits base dig t 0

/-- An unsigned integer of 32 bits, decimal or `0x` hexadecimal (kinds `U` and `G`). -/
def integer (t : Text) : Option Word32 :=
  let value := match t with
    | '0' :: 'x' :: rest => number 16 hexDigit rest
    | _ => number 10 digit t
  value.bind fun n => if n < 2 ^ 32 then some (BitVec.ofNat 32 n) else none

/-- A decimal real, converted to the nearest binary32 with ties to even (kind `F`). -/
def decimal (t : Text) : Option Word32 :=
  let (sign, t) := match t with
    | '-' :: rest => (true, rest)
    | _ => (false, t)
  match split '.' t with
  | [whole] => (number 10 digit whole).map fun n => F32.round sign (n * 2 ^ 149) 1
  | [whole, fraction] =>
    (number 10 digit whole).bind fun _ =>
      (number 10 digit fraction).bind fun _ =>
        (number 10 digit (whole ++ fraction)).map fun n =>
          F32.round sign (n * 2 ^ 149) (10 ^ fraction.length)
  | _ => none

/-- A real argument: `0f` and 8 hexadecimal digits for an exact pattern, else a decimal. -/
def real (t : Text) : Option Word32 :=
  match t with
  | '0' :: 'f' :: rest =>
    if rest.length = 8 then (number 16 hexDigit rest).map (BitVec.ofNat 32) else none
  | _ => decimal t

/-- A unit target `<letter><n>`, `n` below 256. -/
def unitIx (letter : Char) (t : Text) : Option UnitIx :=
  match t with
  | c :: rest =>
    if c = letter then (number 10 digit rest).bind fun n => if n < 256 then some (BitVec.ofNat 8 n) else none
    else none
  | [] => none

/-- An operator number. -/
def opIx (t : Text) : Option OpIx :=
  if t = ['0'] then some .op0 else if t = ['1'] then some .op1 else if t = ['2'] then some .op2 else none

/-- An operator target `v<v>.<k>`. -/
def operator (t : Text) : Option (UnitIx × OpIx) :=
  match split '.' t with
  | [v, k] => (unitIx 'v' v).bind fun v => (opIx k).map fun k => (v, k)
  | _ => none

/-- A register of class 0 by its name in R106. -/
def operatorReg (v : UnitIx) (k : OpIx) (name : Text) : Option Loc :=
  if name = "A".toList then some (.env v k .A)
  else if name = "D".toList then some (.env v k .D)
  else if name = "SL".toList then some (.env v k .SL)
  else if name = "R".toList then some (.env v k .R)
  else if name = "ST".toList then some (.env v k .st)
  else if name = "T".toList then some (.env v k .t)
  else if name = "EOUT".toList then some (.env v k .out)
  else if name = "W".toList then some (.osc v k .w)
  else if name = "P".toList then some (.osc v k .p)
  else if name = "VOL".toList then some (.osc v k .vol)
  else if name = "M".toList then some (.osc v k .m)
  else if name = "RAW".toList then some (.osc v k .raw)
  else if name = "TGT".toList then some (.osc v k .tgt)
  else none

/-- The word address of `DL[<a>]`. -/
def dlAddress (name : Text) : Option Word32 :=
  match name with
  | 'D' :: 'L' :: '[' :: rest =>
    match rest.reverse with
    | ']' :: rev => integer rev.reverse
    | _ => none
  | _ => none

/-- A register of classes 1 to 5 by its name in R106. -/
def unitReg (u name : Text) : Option Loc :=
  match u with
  | 's' :: _ => (unitIx 's' u).bind fun s =>
    if name = "N".toList then some (.str s .N)
    else if name = "CUR".toList then some (.str s .cur)
    else (dlAddress name).map fun a => .dl s a
  | 'd' :: _ => (unitIx 'd' u).bind fun d =>
    if name = "PERIOD".toList then some (.denv d .period)
    else if name = "COUNTER".toList then some (.denv d .counter)
    else if name = "FLAGS".toList then some (.denv d .flags)
    else if name = "SEL".toList then some (.denv d .sel)
    else if name = "OUT".toList then some (.denv d .out)
    else none
  | 'q' :: _ => (unitIx 'q' u).bind fun q =>
    if name = "PERIOD".toList then some (.sq q .period)
    else if name = "COUNTER".toList then some (.sq q .counter)
    else if name = "OUT".toList then some (.sq q .out)
    else none
  | 'n' :: _ => (unitIx 'n' u).bind fun n =>
    if name = "PERIOD".toList then some (.nz n .period)
    else if name = "COUNTER".toList then some (.nz n .counter)
    else if name = "OUT".toList then some (.nz n .out)
    else if name = "RNG".toList then some (.nz n .rng)
    else none
  | _ => none

/-- A location by its name in R106. -/
def location (t : Text) : Option Loc :=
  match split '.' t with
  | [v, k, name] => (unitIx 'v' v).bind fun v => (opIx k).bind fun k => operatorReg v k name
  | [u, name] => unitReg u name
  | _ => none

/-- The argument of a `WR`, by the register's kind. -/
def wrArgument (loc : Loc) (t : Text) : Option Word32 :=
  match wrKind loc with
  | .F => real t
  | _ => integer t

/-- A gate argument: 0 or 1. -/
def gate (t : Text) : Option Bool :=
  (integer t).bind fun w => if w = 1#32 then some true else if w = 0#32 then some false else none

/-- A command on one operator with a real argument. -/
def operatorReal (mk : UnitIx → OpIx → Word32 → Instr) (args : List Text) : Option (List Instr) :=
  match args with
  | [t, x] => (operator t).bind fun vk => (real x).map fun w => [mk vk.1 vk.2 w]
  | _ => none

/-- A command on one operator without argument. -/
def operatorPlain (mk : UnitIx → OpIx → List Instr) (args : List Text) : Option (List Instr) :=
  match args with
  | [t] => (operator t).map fun vk => mk vk.1 vk.2
  | _ => none

/-- A command on one unit with an argument read by `arg`. -/
def unitArg (letter : Char) (arg : Text → Option Word32) (mk : UnitIx → Word32 → List Instr)
    (args : List Text) : Option (List Instr) :=
  match args with
  | [t, x] => (unitIx letter t).bind fun u => (arg x).map fun w => mk u w
  | _ => none

/-- A command on one unit without argument. -/
def unitPlain (letter : Char) (mk : UnitIx → Instr) (args : List Text) : Option (List Instr) :=
  match args with
  | [t] => (unitIx letter t).map fun u => [mk u]
  | _ => none

/-- `STR.TICK`: the argument of kind `X` is optional, 0 by default, an integer or an exact pattern or a real. -/
def stringTick (args : List Text) : Option (List Instr) :=
  match args with
  | [t] => (unitIx 's' t).map fun u => [.strTick u 0#32]
  | [t, x] => (unitIx 's' t).bind fun u => ((integer x).or (real x)).map fun w => [.strTick u w]
  | _ => none

/-- `ENV.ADSR v.k, a, d, s, r`. -/
def adsr (args : List Text) : Option (List Instr) :=
  match args with
  | [t, a, d, s, r] =>
    (operator t).bind fun vk => (real a).bind fun a => (real d).bind fun d => (real s).bind fun s =>
      (real r).map fun r => (Pseudo.envAdsr vk.1 vk.2 a d s r).expand
  | _ => none

/-- The commands of a mnemonic or pseudo-instruction with its comma-separated fields (R106, R107). -/
def command (m : Text) (args : List Text) : Option (List Instr) :=
  if m = "RD".toList then
    match args with
    | [t] => (location t).map fun loc => [.rd loc]
    | _ => none
  else if m = "WR".toList then
    match args with
    | [t, x] => (location t).bind fun loc => (wrArgument loc x).map fun w => [.wr loc w]
    | _ => none
  else if m = "ENV.SET".toList then
    match args with
    | [t, x] => (operator t).bind fun vk => (gate x).map fun g => [.envSet vk.1 vk.2 g]
    | _ => none
  else if m = "ENV.UPD".toList then operatorReal .envUpd args
  else if m = "ENV.OUT".toList then operatorPlain (fun v k => [.envOut v k]) args
  else if m = "OSC.SETF".toList then operatorReal .oscSetF args
  else if m = "OSC.UPD".toList then operatorReal .oscUpd args
  else if m = "OSC.OUT".toList then operatorPlain (fun v k => [.oscOut v k]) args
  else if m = "FM.NOTEON".toList then unitArg 'v' real (fun v f => [.fmNoteOn v f]) args
  else if m = "FM.NOTEOFF".toList then unitPlain 'v' .fmNoteOff args
  else if m = "FM.TICK".toList then unitArg 'v' real (fun v dt => [.fmTick v dt]) args
  else if m = "STR.NOTEON".toList then unitArg 's' real (fun s f => [.strNoteOn s f]) args
  else if m = "STR.NOTEOFF".toList then unitPlain 's' .strNoteOff args
  else if m = "STR.TICK".toList then stringTick args
  else if m = "DENV.SETFLAGS".toList then unitArg 'd' integer (fun d x => [.denvSetFlags d x]) args
  else if m = "DENV.TICK".toList then unitPlain 'd' .denvTick args
  else if m = "SQ.TICK".toList then unitPlain 'q' .sqTick args
  else if m = "NZ.TICK".toList then unitPlain 'n' .nzTick args
  else if m = "BANK.TICK".toList then
    match args with
    | [x] => (real x).map fun dt => [.bankTick dt]
    | _ => none
  else if m = "ENV.ON".toList then operatorPlain (fun v k => (Pseudo.envOn v k).expand) args
  else if m = "ENV.OFF".toList then operatorPlain (fun v k => (Pseudo.envOff v k).expand) args
  else if m = "ENV.ADSR".toList then adsr args
  else if m = "OSC.VOL".toList then
    match args with
    | [t, x] => (operator t).bind fun vk => (real x).map fun w => (Pseudo.oscVol vk.1 vk.2 w).expand
    | _ => none
  else if m = "DENV.PERIOD".toList then unitArg 'd' integer (fun d n => (Pseudo.denvPeriod d n).expand) args
  else if m = "SQ.PERIOD".toList then unitArg 'q' integer (fun q n => (Pseudo.sqPeriod q n).expand) args
  else if m = "NZ.PERIOD".toList then unitArg 'n' integer (fun n p => (Pseudo.nzPeriod n p).expand) args
  else if m = "NZ.SEED".toList then unitArg 'n' integer (fun n x => (Pseudo.nzSeed n x).expand) args
  else none

/-- The commands of a source line: `MNEMONIC target[, argument]`, `;` starting a comment; an empty line has none. -/
def line (t : Text) : Option (List Instr) :=
  let t := trim (t.takeWhile fun c => c != ';')
  if t.isEmpty then some []
  else
    let m := t.takeWhile fun c => c != ' '
    let rest := trim (t.dropWhile fun c => c != ' ')
    command m (if rest.isEmpty then [] else (split ',' rest).map trim)

/-- The command words of a source line. -/
def assemble (t : Text) : Option (List CmdWord) := (line t).map fun is => is.map encode

end Sys2Proof.Machine.Asm
end

