-- ==== Sys2Proof/Machine/NumReal.lean ====
section
/-! DEFINITION. `NUM_REAL`, the exact reference profile (00_scope R12). "A claim proved under `NUM_REAL` is a claim about the
idealised block, not about the `NUM_F32` hardware": the step of this model never uses it; claims about the units do. -/

namespace Sys2Proof.Machine

/-- `ofF32` of `NUM_REAL`: the value of a finite binary32 word, read from its fields. Of an infinity or a NaN (exponent
field 255), of which R12 gives no value, a free value: DESIGN CHOICE (safe), log 24. -/
noncomputable def realOfF32 (w : Word32) : ℝ :=
  let e : Nat := w.toNat / 2 ^ 23 % 2 ^ 8
  let f : Nat := w.toNat % 2 ^ 23
  let a : ℝ := if e = 0 then f * 2 ^ (-149 : ℤ) else (2 ^ 23 + f) * 2 ^ ((e : ℤ) - 150)
  if e = 255 then Config.realOfNonFinite w else if w.msb then -a else a

/-- The nearest natural to a non-negative real, ties to even. -/
noncomputable def realRoundHalfEven (u : ℝ) : Nat :=
  let n : Nat := ⌊u⌋₊
  if u - n < 1 / 2 then n else if 1 / 2 < u - n then n + 1 else if n % 2 = 0 then n else n + 1

/-- `toF32` of `NUM_REAL`: the binary32 word nearest `x`, ties to even. `a` is the magnitude in units of 2^-149, `2 ^ k`
the unit in the last place of the nearest pattern's binade. No infinity is at a finite distance from a real, so R12 does not
give the word of a real beyond the range of binary32: the model gives the infinity of its sign from the threshold at which
`NUM_F32` overflows (2^128 - 2^103), and the largest finite word below it. DESIGN CHOICE (unsafe), log 26. Nor does R12 say
which of the two zero words is nearest: the model gives 0x80000000 for a negative real that rounds to zero and 0x00000000
for 0 and for a positive one. DESIGN CHOICE (unsafe), log 25. -/
noncomputable def realToF32 (x : ℝ) : Word32 :=
  let a := |x| * 2 ^ 149
  let k : Nat := Nat.log2 ⌊a⌋₊ - 23
  let m := realRoundHalfEven (a / 2 ^ k)
  BitVec.ofNat 32 ((if x < 0 then 2 ^ 31 else 0) + min (k * 2 ^ 23 + m) 0x7F800000)

/-- `rnd` of `NUM_REAL`: nearest integer, ties away from zero (R11). -/
noncomputable def realRnd (x : ℝ) : Int :=
  if 0 ≤ x then ⌊x + 1 / 2⌋ else -⌊-x + 1 / 2⌋

open Classical in
/-- `NUM_REAL` (00_scope R12): every operation exact. A quotient by 0, total by R11 and of no value by R12, is a free
value: DESIGN CHOICE (safe), log 23. The sign of a zero word and the word of a real beyond the range are those of
`realToF32` (logs 25, 26). -/
noncomputable def numReal : Num ℝ where
  add := fun a b => a + b
  sub := fun a b => a - b
  mul := fun a b => a * b
  div := fun a b => if b = 0 then Config.realDivByZero a else a / b
  sin := Real.sin
  lt := fun a b => decide (a < b)
  le := fun a b => decide (a ≤ b)
  ofNat := fun n => (n : ℝ)
  rnd := realRnd
  ofF32 := realOfF32
  toF32 := realToF32
  twoPi := 2 * Real.pi

end Sys2Proof.Machine
end

