-- ==== Sys2Proof/Safety.lean ====
section
/-! DEFINITION. The terms claims are stated in: the invariant of every reachable state (10_state R48 and what R38, R128,
R169 derive), which command may write which register (R42), what "nothing else changes" means, and R103's account of an
illegal word in terms of its raw fields, and which units a command is to (20_memory R68). -/

namespace Sys2Proof.Machine

/-- A string voice of an instance is well formed (R27, R28, R48): `1 <= N <= CAP`, `cur < N`, the delay line canonical with
every word below `CAP`. -/
abbrev StringVoice.ok (par : Params Sample) (v : StringVoice Sample) : Prop :=
  (1 ≤ v.N ∧ v.N ≤ par.cap ∧ v.cur < v.N) ∧ Memory.wf 0#32 par.cap v.dl = true

/-- "`OSC[v][1].m` and `OSC[v][2].m` are 0 in every reachable state" (41_oscillator R128 (a)). -/
abbrev FmVoice.ok (v : FmVoice Sample) : Prop := v.op1.osc.m = 0#32 ∧ v.op2.osc.m = 0#32

/-- A discrete envelope never stands where it would look up a -1 entry (44_discrete_envelope R169), and its counter is 0 in
a hold state (it is entered only by a wrap and does not count, R165), so that R38's bound holds after every tick. -/
abbrev Denv.ok (g : Denv Sample) : Prop :=
  (g.sel = .decay → ttEntry .leavingDecay g.flags ≠ none) ∧
  (g.sel = .attack → ttEntry .leavingAttack g.flags ≠ none) ∧
  (g.sel = .holdLow ∨ g.sel = .holdHigh → g.counter = 0#32)

/-- The invariant of every reachable state. The other bounds of R48 hold by the types of the registers. -/
abbrev State.Inv (s : State) : Prop :=
  s.cfg.wf ∧ (∀ v ∈ s.fm, v.ok) ∧ (∀ v ∈ s.str, v.ok s.par) ∧ (∀ g ∈ s.denv, g.ok)

/-- `t` has the configuration and the host's stream of `s`, and every register and delay-line word outside `W` reads as in
`s`. -/
def State.OnlyChanges (s t : State) (W : Loc → Prop) : Prop :=
  t.cfg = s.cfg ∧ t.cmds = s.cmds ∧ ∀ loc, ¬ W loc → t.readLoc loc = s.readLoc loc

/-- The column "written by" of R42: whether a command may write a location. `STR.NOTEON` and `STR.TICK` may write any word of
their string's delay line here; which words they do write is in their own statements. -/
def mayWrite : Instr → Loc → Bool
  | .wr target _, loc => decide (target = loc) && locWritable loc
  | .envSet v k _, .env v' k' r => decide (v = v') && decide (k = k') && envTickReg r
  | .envUpd v k _, .env v' k' r => decide (v = v') && decide (k = k') && envTickReg r
  | .oscSetF v k _, .osc v' k' r => decide (v = v') && decide (k = k') && (r == .w || r == .p)
  | .oscUpd v k _, .osc v' k' r =>
    decide (v = v') && ((decide (k = k') && (r == .p || r == .m || r == .raw)) ||
      (decide (oscTarget k = some k') && r == .m))
  | .fmNoteOn v _, .env v' _ r => decide (v = v') && envTickReg r
  | .fmNoteOn v _, .osc v' _ r => decide (v = v') && (r == .w || r == .p)
  | .fmNoteOff v, .env v' _ r => decide (v = v') && envTickReg r
  | .fmTick v _, .env v' _ r => decide (v = v') && envTickReg r
  | .fmTick v _, .osc v' _ r => decide (v = v') && (r == .p || r == .m || r == .raw)
  | .strNoteOn i _, .str i' _ => decide (i = i')
  | .strNoteOn i _, .dl i' _ => decide (i = i')
  | .strTick i _, .str i' r => decide (i = i') && r == .cur
  | .strTick i _, .dl i' _ => decide (i = i')
  | .denvSetFlags d _, .denv d' r => decide (d = d') && (r == .flags || r == .sel)
  | .denvTick d, .denv d' r => decide (d = d') && (r == .counter || r == .sel || r == .out)
  | .sqTick q, .sq q' r => decide (q = q') && (r == .counter || r == .out)
  | .nzTick n, .nz n' r => decide (n = n') && (r == .counter || r == .out || r == .rng)
  | .bankTick _, .env _ _ r => envTickReg r
  | .bankTick _, .osc _ _ r => r == .p || r == .m || r == .raw
  | _, _ => false
where
  /-- `st`, `t` and `out` (R20). -/
  envTickReg (r : EnvReg) : Bool := r == .st || r == .t || r == .out

/-- A unit as 20_memory R68 (c) tells units apart: a voice (R18) by its envelopes and oscillators, a string with its delay
line, a generator. -/
inductive UnitId where
  | env (v : UnitIx) (k : OpIx)
  | osc (v : UnitIx) (k : OpIx)
  | str (i : UnitIx)
  | denv (d : UnitIx)
  | sq (q : UnitIx)
  | nz (n : UnitIx)
deriving DecidableEq, Repr

/-- The unit that holds a location. -/
def locUnit : Loc → UnitId
  | .env v k _ => .env v k
  | .osc v k _ => .osc v k
  | .str i _ => .str i
  | .denv d _ => .denv d
  | .sq q _ => .sq q
  | .nz n _ => .nz n
  | .dl i _ => .str i

/-- Whether a command is to a unit (R98). An `OSC.UPD` on a modulator is to the carrier as well, whose `m` it writes: the
exception of R68 (c). -/
def touches : Instr → UnitId → Bool
  | .rd loc, u => u == locUnit loc
  | .wr loc _, u => u == locUnit loc
  | .envSet v k _, u => u == .env v k
  | .envUpd v k _, u => u == .env v k
  | .envOut v k, u => u == .env v k
  | .oscSetF v k _, u => u == .osc v k
  | .oscUpd v k _, u => u == .osc v k || (oscTarget k).any (fun j => u == .osc v j)
  | .oscOut v k, u => u == .osc v k
  | .fmNoteOn v _, u => ofVoice v u
  | .fmNoteOff v, .env v' _ => v == v'
  | .fmNoteOff _, _ => false
  | .fmTick v _, u => ofVoice v u
  | .strNoteOn i _, u => u == .str i
  | .strNoteOff i, u => u == .str i
  | .strTick i _, u => u == .str i
  | .denvSetFlags d _, u => u == .denv d
  | .denvTick d, u => u == .denv d
  | .sqTick q, u => u == .sq q
  | .nzTick n, u => u == .nz n
  | .bankTick _, .env _ _ => true
  | .bankTick _, .osc _ _ => true
  | .bankTick _, _ => false
where
  /-- The envelopes and oscillators of voice `v`. -/
  ofVoice (v : UnitIx) : UnitId → Bool
    | .env v' _ => v == v'
    | .osc v' _ => v == v'
    | _ => false

/-- The opcodes of R98. -/
def opcodes : List Nat :=
  [0x01, 0x02, 0x10, 0x11, 0x12, 0x20, 0x21, 0x22, 0x30, 0x31, 0x32] ++ [0x40, 0x41, 0x42, 0x50, 0x51, 0x60, 0x61, 0x70]

/-- The operand kind of an opcode other than `RD` and `WR` (R98). -/
def opcodeKind (opcode : Nat) : OperandKind :=
  if opcode = 0x10 then .G
  else if opcode ∈ [0x12, 0x22, 0x31, 0x41, 0x51, 0x60, 0x61] then .Z
  else if opcode = 0x42 then .X
  else if opcode = 0x50 then .U
  else .F

/-- The exclusive upper bound of the `unit` field of an opcode other than `RD` and `WR` (R98). -/
def opcodeUnits (c : Cfg) (opcode : Nat) : Nat :=
  if opcode < 0x40 then c.nv
  else if opcode < 0x50 then c.ns
  else if opcode < 0x60 then c.nd
  else if opcode = 0x60 then c.nq
  else if opcode = 0x61 then c.nn
  else 1

/-- The unit count of a register class (R103 (d)). -/
def classUnits (c : Cfg) (cls : Nat) : Nat :=
  if cls = 0 then c.nv else if cls = 1 then c.ns else if cls = 2 then c.nd
  else if cls = 3 then c.nq else if cls = 4 then c.nn else c.ns

/-- The register numbers of a class (47_register_access R192). -/
def classRegs (cls : Nat) : List Nat :=
  if cls = 0 then [0, 1, 2, 3, 4, 5, 6, 8, 9, 10, 11, 12, 13]
  else if cls = 1 then [0, 1]
  else if cls = 2 then [0, 1, 2, 3, 4]
  else if cls = 3 then [0, 1, 2]
  else if cls = 4 then [0, 1, 2, 3]
  else if cls = 5 then [0]
  else []

/-- The (class, register) pairs that hold a value of `S` and are RW (R43). -/
def writableSample : List (Nat × Nat) := [(0, 0), (0, 1), (0, 2), (0, 3), (0, 10)]

/-- The (class, register) pairs of integer type that are RW (R43). -/
def writableInteger : List (Nat × Nat) := [(2, 0), (3, 0), (4, 0), (4, 3)]

/-- The exponent bits 30:23 of an operand are all ones (R93). -/
abbrev nonFinite (operand : Nat) : Prop := operand / 2 ^ 23 % 256 = 255

/-- R103 read clause by clause on the raw fields of a word, as naturals: the word is illegal in the instance. -/
def IllegalWord (c : Cfg) (w : CmdWord) : Prop :=
  let n := w.toNat
  let operand := n % 2 ^ 32
  let reg := n / 2 ^ 32 % 2 ^ 8
  let cls := n / 2 ^ 40 % 2 ^ 4
  let op := n / 2 ^ 44 % 2 ^ 4
  let unit := n / 2 ^ 48 % 2 ^ 8
  let opcode := n / 2 ^ 56
  let access := opcode = 0x01 ∨ opcode = 0x02
  let onOperator := 0x10 ≤ opcode ∧ opcode < 0x30
  -- (a) the opcode is reserved
  opcode ∉ opcodes
  -- (b) a field that R98 requires to be 0 is not (the `unit` of BANK.TICK is in (d): its bound is 1)
  ∨ (¬ access ∧ (cls ≠ 0 ∨ reg ≠ 0)) ∨ (¬ access ∧ ¬ onOperator ∧ op ≠ 0)
  -- (c) `op > 2` where "0..2"
  ∨ (onOperator ∧ 2 < op)
  -- (d) `unit` is not below its bound
  ∨ (¬ access ∧ opcodeUnits c opcode ≤ unit) ∨ (access ∧ classUnits c cls ≤ unit)
  -- (e) the operand violates its kind
  ∨ (¬ access ∧ opcodeKind opcode = .F ∧ nonFinite operand)
  ∨ (¬ access ∧ opcodeKind opcode = .G ∧ 1 < operand)
  ∨ (¬ access ∧ opcodeKind opcode = .Z ∧ operand ≠ 0)
  ∨ (opcode = 0x01 ∧ cls ≠ 5 ∧ operand ≠ 0)
  ∨ (opcode = 0x02 ∧ (cls, reg) ∈ writableSample ∧ nonFinite operand)
  -- (f) STR.NOTEON with `f <= 0`: a zero or a negative pattern
  ∨ (opcode = 0x40 ∧ (operand = 0 ∨ 2 ^ 31 ≤ operand))
  -- (g) register access: class, pair, op, class 5, access right
  ∨ (access ∧ 5 < cls) ∨ (access ∧ reg ∉ classRegs cls) ∨ (access ∧ cls ≠ 0 ∧ op ≠ 0)
  ∨ (access ∧ cls = 0 ∧ 2 < op) ∨ (opcode = 0x01 ∧ cls = 5 ∧ c.par.cap ≤ operand)
  ∨ (opcode = 0x02 ∧ (cls, reg) ∉ writableSample ++ writableInteger)

/-- What every location reads right after reset (R49): 0 of its type, but for `st` Off, `vol` 1, `tgt` hardwired, `N` 1 and
`rng` 1. -/
def resetRead : Loc → Result Sample
  | .env _ _ .st => .word 4#32
  | .env _ _ _ => .sample 0#32
  | .osc _ _ .vol => .sample 0x3F800000#32
  | .osc _ .op0 .tgt => .word 3#32
  | .osc _ _ .tgt => .word 0#32
  | .osc _ _ _ => .sample 0#32
  | .str _ .N => .word 1#32
  | .str _ .cur => .word 0#32
  | .denv _ .out => .sample 0#32
  | .denv _ _ => .word 0#32
  | .sq _ _ => .word 0#32
  | .nz _ .rng => .word 1#32
  | .nz _ _ => .word 0#32
  | .dl _ _ => .sample 0#32

end Sys2Proof.Machine
end

