-- ==== Sys2Proof/Certificates/Slice0/Obligations.lean ====
section
/-! DEFINITION. The statements for the provers. `0x3F800000` is 1, `0x40000000` is 2, `0x40800000` is 4, `0x3F000000` is
one half in binary32. A location that does not exist reads `none`, so a frame that speaks of every location speaks of every
register and every delay-line word. -/

open Sys2Proof Sys2Proof.Machine

/-! ## Encoding -/

/-- R98, R99, R100: the decoder inverts the encoder on every well-formed command, with every operand at every value the
encoding admits. -/
def Obligations.DecodeInvertsEncode : Prop :=
  ∀ i : Instr, wellFormed i = true → decode (encode i) = .ok i

/-- R98, R100: a word the decoder reads as a command is the one word of that command, and the command is well formed. -/
def Obligations.EncodeInvertsDecode : Prop :=
  ∀ (w : CmdWord) (i : Instr), decode w = .ok i → encode i = w ∧ wellFormed i = true

/-- R99: a word the decoder reads as a command has the bits that the command's row of the opcode table fixes. -/
def Obligations.DecodedWordMatchesItsRow : Prop :=
  ∀ (w : CmdWord) (i : Instr), decode w = .ok i → w &&& (rowOf i).mask = (rowOf i).pattern

/-- R100, R103: the whole decoding algorithm rejects exactly the words that R103, read clause by clause on the raw fields,
calls illegal, in every configuration. -/
def Obligations.DecodingRejectsExactlyIllegalWords : Prop :=
  ∀ (c : Cfg) (w : CmdWord), decodeCommand c w = none ↔ IllegalWord c w

/-- R108: the worked encodings, as text, as word and as command. -/
def Obligations.WorkedEncodingsOfTheSpec : Prop :=
  (Asm.assemble "FM.NOTEON v0, 440.0".toList = some [0x3000000043DC0000#64] ∧
    decode 0x3000000043DC0000#64 = .ok (.fmNoteOn 0#8 0x43DC0000#32)) ∧
  (Asm.assemble "ENV.SET v1.2, 1".toList = some [0x1001200000000001#64] ∧
    decode 0x1001200000000001#64 = .ok (.envSet 1#8 .op2 true)) ∧
  (Asm.assemble "WR v0.1.A, 0.5".toList = some [0x020010003F000000#64] ∧
    decode 0x020010003F000000#64 = .ok (.wr (.env 0#8 .op1 .A) 0x3F000000#32)) ∧
  (Asm.assemble "RD s0.DL[5]".toList = some [0x0100050000000005#64] ∧
    decode 0x0100050000000005#64 = .ok (.rd (.dl 0#8 5#32))) ∧
  (Asm.assemble "DENV.TICK d0".toList = some [0x5100000000000000#64] ∧
    decode 0x5100000000000000#64 = .ok (.denvTick 0#8)) ∧
  (Asm.assemble "WR n0.RNG, 1".toList = some [0x0200040300000001#64] ∧
    decode 0x0200040300000001#64 = .ok (.wr (.nz 0#8 .rng) 1#32))

/-! ## The step -/

/-- R16, R92: when the next word the host presents decodes, the step is that command's meaning on the state with the word
taken from the host's stream, and nothing else changed. -/
def Obligations.StepRunsTheDecodedCommand : Prop :=
  ∀ (s : State) (w : CmdWord) (rest : List CmdWord) (i : Instr), s.cmds = w :: rest → decode w = .ok i →
    step s = exec i { s with cmds := rest }

/-- R103: an illegal word changes no register and no memory word, and the result is `none`. -/
def Obligations.IllegalWordIsIgnored : Prop :=
  ∀ (s : State) (w : CmdWord) (rest : List CmdWord), s.cmds = w :: rest → IllegalWord s.cfg w →
    step s = .next { s with cmds := rest, result := .none }

/-- R103 at the level of commands: an illegal command (a unit or word that does not exist, `f <= 0`, a field outside its
kind) changes nothing and presents no result. -/
def Obligations.IllegalCommandIsIgnored : Prop :=
  ∀ (s : State) (i : Instr), legal s.cfg i = false → exec i s = .next { s with result := .none }

/-- The model's choice (log 1): with no word presented the block holds its state (R92, R213) and presents no result (R189). -/
def Obligations.IdleBlockHoldsItsState : Prop :=
  ∀ s : State, s.cmds = [] → step s = .next { s with result := .none }

/-- R200, R206: no step faults and none is refused. -/
def Obligations.EveryStepAnswersNext : Prop := ∀ s : State, ∃ t, step s = .next t

/-- R48 with R28, R38, R128, R169: every step keeps the invariant, from every state that has it. -/
def Obligations.StepKeepsTheInvariant : Prop :=
  ∀ s t : State, s.Inv → step s = .next t → t.Inv

/-- R48, R49: the reset state of every instance has the invariant. -/
def Obligations.ResetHasTheInvariant : Prop :=
  (∀ c : Cfg, c.wf → (State.resetOf c).Inv) ∧ State.reset.Inv

/-- R47, R221: no step changes the configuration. -/
def Obligations.StepKeepsTheConfiguration : Prop :=
  ∀ s t : State, step s = .next t → t.cfg = s.cfg

/-- R49: what every register and every delay-line word holds after reset, in every instance. -/
def Obligations.ResetValuesOfEveryLocation : Prop :=
  ∀ (c : Cfg) (loc : Loc), locExists c loc = true → (State.resetOf c).readLoc loc = resetRead loc

/-- R220: the reset event puts every location of any state at its reset value, in the same configuration. -/
def Obligations.ResetEventRestoresEveryLocation : Prop :=
  ∀ s : State, s.resetEvent.cfg = s.cfg ∧
    ∀ loc : Loc, locExists s.cfg loc = true → s.resetEvent.readLoc loc = resetRead loc

/-- R42: a command leaves every location that its entry of the column "written by" does not name, the configuration and the
host's stream. The clause on `taken` is the model's choice (log 10): R16 says only that the draws are consulted by
`STR.NOTEON`; that each string counts its own, and that only `STR.NOTEON` on it moves its count, is the model's. -/
def Obligations.CommandWritesOnlyItsLocations : Prop :=
  ∀ (i : Instr) (s t : State), exec i s = .next t →
    s.OnlyChanges t (fun loc => mayWrite i loc = true) ∧
    ∀ j : UnitIx, (∀ f, i ≠ .strNoteOn j f) →
      (t.str[j.toNat]?).map (·.taken) = (s.str[j.toNat]?).map (·.taken)

/-- R68 (c): two commands to different units commute: either order leaves the same state and gives each command the same
result. That the draws of two note-ons do not depend on their order rests on the model's counting of draws by string (log 10).
`touches` counts a modulator's `OSC.UPD` as a command to the carrier too, which is the rule's exception. -/
def Obligations.CommandsOnDifferentUnitsCommute : Prop :=
  ∀ (i j : Instr) (s : State), (∀ u, touches i u = true → touches j u = false) →
    ∃ si sij sj sji : State, exec i s = .next si ∧ exec j si = .next sij ∧
      exec j s = .next sj ∧ exec i sj = .next sji ∧
      sij.withResult .none = sji.withResult .none ∧ si.result = sji.result ∧ sij.result = sj.result

/-- R212, R19: `RD` sees all of the block's state. Two states with the invariant that read alike at every location, and agree
on the configuration and the model's own fields (`cmds`, `result` and each string's `taken`: logs 1, 2, 10), are equal. -/
def Obligations.ReadableStateIsTheWholeState : Prop :=
  ∀ s t : State, s.Inv → t.Inv → s.cfg = t.cfg → s.cmds = t.cmds → s.result = t.result →
    s.str.map (·.taken) = t.str.map (·.taken) → (∀ loc, s.readLoc loc = t.readLoc loc) → s = t

/-! ## Register access -/

/-- R193: `RD` of every register and delay-line word that exists presents it and changes nothing else. -/
def Obligations.RdPresentsTheLocation : Prop :=
  (∀ loc, (encodeFields (.rd loc)).opcode = 0x01#8) ∧
  ∀ s : State,
    (∀ v k x, s.fm[v.toNat]? = some x →
      (∀ r, exec (.rd (.env v k r)) s = .next { s with result := match r with
        | .A => .sample (x.op k).env.A
        | .D => .sample (x.op k).env.D
        | .SL => .sample (x.op k).env.SL
        | .R => .sample (x.op k).env.R
        | .st => .word (match (x.op k).env.st with
          | .attack => 0#32
          | .decay => 1#32
          | .sustain => 2#32
          | .release => 3#32
          | .off => 4#32)
        | .t => .sample (x.op k).env.t
        | .out => .sample (x.op k).env.out }) ∧
      (∀ r, exec (.rd (.osc v k r)) s = .next { s with result := match r with
        | .w => .sample (x.op k).osc.w
        | .p => .sample (x.op k).osc.p
        | .vol => .sample (x.op k).osc.vol
        | .m => .sample (x.op k).osc.m
        | .raw => .sample (x.op k).osc.raw
        | .tgt => .word (if k = .op0 then 3#32 else 0#32) })) ∧
    (∀ i x, s.str[i.toNat]? = some x →
      exec (.rd (.str i .N)) s = .next { s with result := .word (BitVec.ofNat 32 x.N) } ∧
      exec (.rd (.str i .cur)) s = .next { s with result := .word (BitVec.ofNat 32 x.cur) } ∧
      ∀ a : Word32, a.toNat < s.par.cap →
        exec (.rd (.dl i a)) s = .next { s with result := .sample (Memory.read 0#32 x.dl a.toNat) }) ∧
    (∀ d g, s.denv[d.toNat]? = some g →
      ∀ r, exec (.rd (.denv d r)) s = .next { s with result := match r with
        | .period => .word g.period
        | .counter => .word g.counter
        | .flags => .word (g.flags.setWidth 32)
        | .sel => .word (match g.sel with
          | .decay => 0#32
          | .attack => 1#32
          | .holdLow => 2#32
          | .holdHigh => 3#32)
        | .out => .sample g.out }) ∧
    (∀ q g, s.sq[q.toNat]? = some g →
      ∀ r, exec (.rd (.sq q r)) s = .next { s with result := match r with
        | .period => .word g.period
        | .counter => .word g.counter
        | .out => .word (g.out.setWidth 32) }) ∧
    (∀ n g, s.nz[n.toNat]? = some g →
      ∀ r, exec (.rd (.nz n r)) s = .next { s with result := match r with
        | .period => .word g.period
        | .counter => .word g.counter
        | .out => .word (g.out.setWidth 32)
        | .rng => .word (g.rng.setWidth 32) })

/-- R195, R196: `WR` to a host-writable register that exists stores the operand (`rng` its low 17 bits), presents no result
and changes nothing else; an `S` register takes every finite operand. A `WR` to any other location (a read-only register, a
delay-line word, a unit that does not exist), or of a non-finite operand to an `S` register, changes nothing. -/
def Obligations.WrStoresTheOperand : Prop :=
  ∀ (s : State) (loc : Loc) (x : Word32),
    (encodeFields (.wr loc x)).opcode = 0x02#8 ∧
    (locExists s.cfg loc = true → locWritable loc = true → (wrKind loc = .F → F32.isFinite x = true) →
      ∃ t, exec (.wr loc x) s = .next t ∧ t.result = .none ∧
        (t.readLoc loc = match loc with
          | .env _ _ _ => .sample x
          | .osc _ _ _ => .sample x
          | .nz _ .rng => .word (x &&& 0x1FFFF#32)
          | _ => .word x) ∧
        s.OnlyChanges t (fun l => l = loc)) ∧
    (locExists s.cfg loc = false ∨ locWritable loc = false ∨ (wrKind loc = .F ∧ F32.isFinite x = false) →
      exec (.wr loc x) s = .next { s with result := .none })

/-! ## Continuous envelope -/

/-- R113: the effect of `ENV.SET v.k, gate`, from every state of the envelope. -/
def Obligations.EnvSetRestartsTheEnvelope : Prop :=
  ∀ (s : State) (v : UnitIx) (k : OpIx) (gate : Bool) (x : FmVoice Sample), s.fm[v.toNat]? = some x →
    (encodeFields (.envSet v k gate)).opcode = 0x10#8 ∧
    ∃ t, exec (.envSet v k gate) s = .next t ∧ t.result = .none ∧
      t.readLoc (.env v k .st) = .word (if gate then 0#32 else 3#32) ∧
      t.readLoc (.env v k .t) = .sample 0#32 ∧
      t.readLoc (.env v k .out) = .sample
        (if gate then
          (if F32.le (x.op k).env.A 0#32 then 0x3F800000#32 else F32.div 0#32 (x.op k).env.A)
        else
          (if F32.le (x.op k).env.R 0#32 then 0#32
          else F32.mul (x.op k).env.SL (F32.sub 0x3F800000#32 (F32.div 0#32 (x.op k).env.R)))) ∧
      s.OnlyChanges t (fun l => l = .env v k .st ∨ l = .env v k .t ∨ l = .env v k .out)

/-- R116 with R112, R115: the effect of `ENV.UPD v.k, dt`: the timer advances, the output is that of the state held on
entry, and a timed state whose duration the timer exceeds is left with the timer at 0. -/
def Obligations.EnvUpdAdvancesTheEnvelope : Prop :=
  ∀ (s : State) (v : UnitIx) (k : OpIx) (dt : Word32) (x : FmVoice Sample), F32.isFinite dt = true →
    s.fm[v.toNat]? = some x →
    let e := (x.op k).env
    let now := F32.add e.t dt
    let frac := if F32.le e.D 0#32 then 0x3F800000#32 else F32.div now e.D
    let leaves := match e.st with
      | .attack => F32.lt e.A now
      | .decay => F32.lt e.D now
      | .release => F32.lt e.R now
      | .sustain => false
      | .off => false
    (encodeFields (.envUpd v k dt)).opcode = 0x11#8 ∧
    ∃ t, exec (.envUpd v k dt) s = .next t ∧ t.result = .none ∧
      t.readLoc (.env v k .out) = .sample (match e.st with
        | .attack => if F32.le e.A 0#32 then 0x3F800000#32 else F32.div now e.A
        | .decay => F32.add (F32.sub 0x3F800000#32 frac) (F32.mul frac e.SL)
        | .sustain => e.SL
        | .release =>
          if F32.le e.R 0#32 then 0#32 else F32.mul e.SL (F32.sub 0x3F800000#32 (F32.div now e.R))
        | .off => 0#32) ∧
      t.readLoc (.env v k .t) = .sample (if leaves then 0#32 else now) ∧
      t.readLoc (.env v k .st) = .word (match e.st with
        | .attack => if leaves then 1#32 else 0#32
        | .decay => if leaves then 2#32 else 1#32
        | .sustain => 2#32
        | .release => if leaves then 4#32 else 3#32
        | .off => 4#32) ∧
      s.OnlyChanges t (fun l => l = .env v k .st ∨ l = .env v k .t ∨ l = .env v k .out)

/-- R121: `ENV.OUT v.k` presents the stored output and changes nothing else. -/
def Obligations.EnvOutPresentsTheStoredOutput : Prop :=
  ∀ (s : State) (v : UnitIx) (k : OpIx) (x : FmVoice Sample), s.fm[v.toNat]? = some x →
    (encodeFields (.envOut v k)).opcode = 0x12#8 ∧
    exec (.envOut v k) s = .next { s with result := .sample (x.op k).env.out }

/-- R120 (b) under `NUM_REAL`: the formulas meet at the state boundaries. -/
def Obligations.EnvelopeIsContinuousAtBoundaries : Prop :=
  ∀ A D SL R : ℝ, 0 < A → 0 < D → 0 < R →
    (envf numReal .attack A A D SL R = 1 ∧ envf numReal .decay 0 A D SL R = 1) ∧
    (envf numReal .decay D A D SL R = SL ∧ envf numReal .sustain 0 A D SL R = SL) ∧
    (envf numReal .release R A D SL R = 0 ∧ envf numReal .off 0 A D SL R = 0)

/-- R120 (b) under `NUM_F32`: at a decay time that is positive and finite the decay output is the sustain level, bit for bit
(a sustain level of -0 apart: the sum of +0 and -0 is +0). -/
def Obligations.DecayMeetsSustainInBinary32 : Prop :=
  ∀ A D SL R : Sample, F32.isFinite D = true → F32.lt 0#32 D = true → F32.isFinite SL = true →
    SL ≠ 0x80000000#32 →
    envf numF32 .decay D A D SL R = SL ∧ envf numF32 .sustain 0#32 A D SL R = SL

/-! ## Oscillator -/

/-- R126: the effect of `OSC.SETF v.k, f`. -/
def Obligations.OscSetFSetsTheFrequency : Prop :=
  ∀ (s : State) (v : UnitIx) (k : OpIx) (f : Word32) (x : FmVoice Sample), F32.isFinite f = true →
    s.fm[v.toNat]? = some x →
    (encodeFields (.oscSetF v k f)).opcode = 0x20#8 ∧
    ∃ t, exec (.oscSetF v k f) s = .next t ∧ t.result = .none ∧
      t.readLoc (.osc v k .w) = .sample (F32.mul 0x40C90FDB#32 f) ∧
      t.readLoc (.osc v k .p) = .sample 0#32 ∧
      s.OnlyChanges t (fun l => l = .osc v k .w ∨ l = .osc v k .p)

/-- R127, R24: the effect of `OSC.UPD v.k, dt`, for every value of the free sine; a modulator pushes its raw sample, not
scaled by its volume, into the carrier. -/
def Obligations.OscUpdSamplesAndPushes : Prop :=
  ∀ (s : State) (v : UnitIx) (k : OpIx) (dt : Word32) (x : FmVoice Sample), F32.isFinite dt = true →
    s.fm[v.toNat]? = some x →
    let o := (x.op k).osc
    let raw := Config.sin32 (F32.add (F32.mul o.w o.p) o.m)
    (encodeFields (.oscUpd v k dt)).opcode = 0x21#8 ∧
    ∃ t, exec (.oscUpd v k dt) s = .next t ∧ t.result = .none ∧
      t.readLoc (.osc v k .raw) = .sample raw ∧
      t.readLoc (.osc v k .p) = .sample (F32.add o.p dt) ∧
      t.readLoc (.osc v k .m) = .sample 0#32 ∧
      (k ≠ .op0 → t.readLoc (.osc v .op0 .m) = .sample (F32.add x.op0.osc.m raw)) ∧
      s.OnlyChanges t (fun l => l = .osc v k .raw ∨ l = .osc v k .p ∨ l = .osc v k .m ∨
        (k ≠ .op0 ∧ l = .osc v .op0 .m))

/-- R129: `OSC.OUT v.k` presents the stored raw sample times the volume of now and changes nothing else. -/
def Obligations.OscOutPresentsTheScaledSample : Prop :=
  ∀ (s : State) (v : UnitIx) (k : OpIx) (x : FmVoice Sample), s.fm[v.toNat]? = some x →
    (encodeFields (.oscOut v k)).opcode = 0x22#8 ∧
    exec (.oscOut v k) s = .next { s with result := .sample (F32.mul (x.op k).osc.raw (x.op k).osc.vol) }

/-- R130 under `NUM_REAL`: after `OSC.SETF f` with no modulation the update issued after `n` earlier ones stores
`sin(w * n * dt)`. -/
def Obligations.FreeRunningOscillatorIsASine : Prop :=
  ∀ (o : Oscillator ℝ) (f dt : ℝ) (n : Nat), o.m = 0 →
    ((oscAdvance numReal dt)^[n + 1] (oscSetF numReal f o)).raw = Real.sin (2 * Real.pi * f * (n * dt))

/-! ## FM voice -/

/-- R134: the effect of `FM.NOTEON v, f` on the three oscillators and envelopes. -/
def Obligations.FmNoteOnStartsAllOperators : Prop :=
  ∀ (s : State) (v : UnitIx) (f : Word32) (x : FmVoice Sample), F32.isFinite f = true → s.fm[v.toNat]? = some x →
    (encodeFields (.fmNoteOn v f)).opcode = 0x30#8 ∧
    ∃ t, exec (.fmNoteOn v f) s = .next t ∧ t.result = .none ∧
      t.readLoc (.osc v .op0 .w) = .sample (F32.mul 0x40C90FDB#32 f) ∧
      t.readLoc (.osc v .op1 .w) = .sample (F32.mul 0x40C90FDB#32 (F32.mul 0x40000000#32 f)) ∧
      t.readLoc (.osc v .op2 .w) = .sample (F32.mul 0x40C90FDB#32 (F32.mul 0x40800000#32 f)) ∧
      (∀ k, t.readLoc (.osc v k .p) = .sample 0#32 ∧
        t.readLoc (.env v k .st) = .word 0#32 ∧
        t.readLoc (.env v k .t) = .sample 0#32 ∧
        t.readLoc (.env v k .out) = .sample
          (if F32.le (x.op k).env.A 0#32 then 0x3F800000#32 else F32.div 0#32 (x.op k).env.A)) ∧
      s.OnlyChanges t (fun l => ∃ k, l = .osc v k .w ∨ l = .osc v k .p ∨ l = .env v k .st ∨
        l = .env v k .t ∨ l = .env v k .out)

/-- R135: the effect of `FM.NOTEOFF v`: every envelope restarts in Release, the oscillators are untouched. -/
def Obligations.FmNoteOffReleasesAllEnvelopes : Prop :=
  ∀ (s : State) (v : UnitIx) (x : FmVoice Sample), s.fm[v.toNat]? = some x →
    (encodeFields (.fmNoteOff v)).opcode = 0x31#8 ∧
    ∃ t, exec (.fmNoteOff v) s = .next t ∧ t.result = .none ∧
      (∀ k, t.readLoc (.env v k .st) = .word 3#32 ∧
        t.readLoc (.env v k .t) = .sample 0#32 ∧
        t.readLoc (.env v k .out) = .sample
          (if F32.le (x.op k).env.R 0#32 then 0#32
          else F32.mul (x.op k).env.SL (F32.sub 0x3F800000#32 (F32.div 0#32 (x.op k).env.R)))) ∧
      s.OnlyChanges t (fun l => ∃ k, l = .env v k .st ∨ l = .env v k .t ∨ l = .env v k .out)

/-- R136, R137: the effect and the sample of `FM.TICK v, dt`, for every value of the free sine: the carrier samples with the
modulators' samples of this same tick, and the sample is scaled by the carrier's volume and its envelope after the
update. -/
def Obligations.FmTickModulatesInTheSameTick : Prop :=
  ∀ (s : State) (v : UnitIx) (dt : Word32) (x : FmVoice Sample), F32.isFinite dt = true → s.fm[v.toNat]? = some x →
    let raw1 := Config.sin32 (F32.add (F32.mul x.op1.osc.w x.op1.osc.p) x.op1.osc.m)
    let raw2 := Config.sin32 (F32.add (F32.mul x.op2.osc.w x.op2.osc.p) x.op2.osc.m)
    let raw0 := Config.sin32 (F32.add (F32.mul x.op0.osc.w x.op0.osc.p)
      (F32.add (F32.add x.op0.osc.m raw1) raw2))
    (encodeFields (.fmTick v dt)).opcode = 0x32#8 ∧
    ∃ t, exec (.fmTick v dt) s = .next t ∧
      t.result = .sample (F32.mul (F32.mul raw0 x.op0.osc.vol) (envUpd numF32 dt x.op0.env).out) ∧
      t.readLoc (.osc v .op0 .raw) = .sample raw0 ∧
      t.readLoc (.osc v .op1 .raw) = .sample raw1 ∧
      t.readLoc (.osc v .op2 .raw) = .sample raw2 ∧
      (∀ k, t.readLoc (.osc v k .p) = .sample (F32.add (x.op k).osc.p dt) ∧
        t.readLoc (.osc v k .m) = .sample 0#32 ∧
        t.readLoc (.env v k .st) = .word (envStateCode (envUpd numF32 dt (x.op k).env).st) ∧
        t.readLoc (.env v k .t) = .sample (envUpd numF32 dt (x.op k).env).t ∧
        t.readLoc (.env v k .out) = .sample (envUpd numF32 dt (x.op k).env).out) ∧
      s.OnlyChanges t (fun l => ∃ k, l = .osc v k .raw ∨ l = .osc v k .p ∨ l = .osc v k .m ∨
        l = .env v k .st ∨ l = .env v k .t ∨ l = .env v k .out)

/-- R25 in every numerics profile: after an FM tick no modulation persists. -/
def Obligations.FmTickConsumesAllModulation : Prop :=
  ∀ (S : Type) (num : Num S) (dt : S) (v : FmVoice S) (k : OpIx),
    ((fmTick num dt v).1.op k).osc.m = num.zero

/-- R137, C2 in every numerics profile: nothing of the modulators' envelopes and volumes enters the sample of an FM tick. -/
def Obligations.ModulatorVolumesAndEnvelopesStaySilent : Prop :=
  ∀ (S : Type) (num : Num S) (dt : S) (v v' : FmVoice S), v.op0 = v'.op0 →
    (∀ k, ∃ vol, (v'.op k).osc = { (v.op k).osc with vol := vol }) →
    (fmTick num dt v).2 = (fmTick num dt v').2

/-! ## String voice -/

/-- R142, R143, R144 with R141: the effect of `STR.NOTEON s, f`, for every value of the free draws in [-1, 1] and of the
free sine: the length, the smoothed excitation in the words below it, the other words kept, the cursor at 0, as many of the
string's draws taken as the length says. That draw `j` is `drawAt` of the string and of its count `taken` plus `j`, and that
the count then rises by the length, is the model's choice (log 10); R141 gives the interval and the number of draws. -/
def Obligations.StrNoteOnFillsTheDelayLine : Prop :=
  ∀ (s : State) (i : UnitIx) (f : Word32) (v : StringVoice Sample), F32.isFinite f = true →
    F32.lt 0#32 f = true → s.str[i.toNat]? = some v →
    let q := F32.div s.par.sampleRate f
    let n := if F32.le (F32.ofNat s.par.cap) q then s.par.cap else (max 1 (F32.rnd q)).toNat
    let x := fun j : Nat => F32.add (drawAt i.toNat (v.taken + j)) (F32.mul s.par.harmAmp (Config.sin32
      (F32.div (F32.mul (F32.mul 0x40C90FDB#32 (F32.ofNat s.par.harmRatio)) (F32.ofNat j)) (F32.ofNat n))))
    (∀ j, F32.le 0xBF800000#32 (drawAt i.toNat j) = true ∧ F32.le (drawAt i.toNat j) 0x3F800000#32 = true) ∧
    (encodeFields (.strNoteOn i f)).opcode = 0x40#8 ∧
    ∃ t, exec (.strNoteOn i f) s = .next t ∧ t.result = .none ∧
      t.readLoc (.str i .N) = .word (BitVec.ofNat 32 n) ∧
      t.readLoc (.str i .cur) = .word 0#32 ∧
      (∀ a : Word32, a.toNat < s.par.cap → a.toNat < n →
        t.readLoc (.dl i a) = .sample (F32.mul (F32.add (x a.toNat)
          (x (if a.toNat = 0 then n - 1 else a.toNat - 1))) 0x3F000000#32)) ∧
      (t.str[i.toNat]?).map (·.taken) = some (v.taken + n) ∧
      s.OnlyChanges t (fun l => l = .str i .N ∨ l = .str i .cur ∨
        ∃ a : Word32, a.toNat < n ∧ l = .dl i a)

/-- R27, R142: under a well-formed configuration every legal frequency gives a length between 1 and `CAP`. -/
def Obligations.StringLengthStaysInBounds : Prop :=
  ∀ (c : Cfg) (f : Word32), c.wf → F32.isFinite f = true → F32.lt 0#32 f = true →
    1 ≤ stringLength numF32 c.par f ∧ stringLength numF32 c.par f ≤ c.par.cap

/-- R146: `STR.NOTEOFF s` is legal for every string voice that exists and changes nothing; it presents no result. -/
def Obligations.StrNoteOffChangesNothing : Prop :=
  ∀ (s : State) (i : UnitIx), i.toNat < s.str.length →
    (encodeFields (.strNoteOff i)).opcode = 0x41#8 ∧
    legal s.cfg (.strNoteOff i) = true ∧
    exec (.strNoteOff i) s = .next { s with result := .none }

/-- R147: the effect of `STR.TICK s` on a string voice with its invariant, whatever the ignored operand. -/
def Obligations.StrTickClosesTheLoop : Prop :=
  ∀ (s : State) (i : UnitIx) (ignored : Word32) (v : StringVoice Sample), s.str[i.toNat]? = some v →
    v.ok s.par → s.par.cap ≤ 65536 →
    let cur0 := Memory.read 0#32 v.dl v.cur
    let prev := Memory.read 0#32 v.dl (if v.cur = 0 then v.N - 1 else v.cur - 1)
    let y := F32.mul s.par.damping (F32.add (F32.mul s.par.blendA cur0)
      (F32.mul (F32.sub 0x3F800000#32 s.par.blendA) prev))
    (encodeFields (.strTick i ignored)).opcode = 0x42#8 ∧
    ∃ t, exec (.strTick i ignored) s = .next t ∧
      t.result = .sample (F32.mul y s.par.strGain) ∧
      t.readLoc (.dl i (BitVec.ofNat 32 v.cur)) = .sample y ∧
      t.readLoc (.str i .cur) = .word (BitVec.ofNat 32 (if v.cur + 1 = v.N then 0 else v.cur + 1)) ∧
      s.OnlyChanges t (fun l => l = .str i .cur ∨ l = .dl i (BitVec.ofNat 32 v.cur))

open Classical in
/-- R148 in every numerics profile: after a note-on of length `N >= 2` the sample written at tick `n >= N` blends the ones
written `N` ticks and one tick earlier. -/
def Obligations.StringTicksObeyTheRecurrence : Prop :=
  ∀ (S : Type) (num : Num S) (par : Params S) (v : StringVoice S) (n : Nat), 2 ≤ v.N → v.cur = 0 → v.N ≤ n →
    let after := fun j : Nat => (fun u => (strTick num par u).1)^[j] v
    let y := fun j : Nat => stringSample num par (after j)
    y n = stringBlend num par (y (n - v.N)) (y (n - 1))

/-- R231 under `NUM_REAL`: a written word is in magnitude at most `DAMPING` times the larger of the two words read. -/
def Obligations.StringBlendIsDamped : Prop :=
  ∀ (par : Params ℝ) (cur0 prev : ℝ), 0 ≤ par.damping → 0 ≤ par.blendA → par.blendA ≤ 1 →
    |stringBlend numReal par cur0 prev| ≤ par.damping * max |cur0| |prev|

open Classical in
/-- R150's claim, "not as a rule derived from rule R147", read for every damping below 1 and every blend weight between 0
and 1 under `NUM_REAL`: over `N` ticks the energy of the buffer does not rise. Expected to fail: a weight near 0 lets the
last sample of the buffer spread over all of it. -/
def Obligations.BufferEnergyNeverRisesOverARound : Prop :=
  ∀ (par : Params ℝ) (v : StringVoice ℝ), 0 ≤ par.damping → par.damping < 1 → 0 < par.blendA → par.blendA < 1 →
    1 ≤ v.N → v.cur < v.N →
    let energy := fun u : StringVoice ℝ => ((List.range v.N).map fun j => (Memory.read 0 u.dl j) ^ 2).sum
    energy ((fun u => (strTick numReal par u).1)^[v.N] v) ≤ energy v

/-! ## Discrete envelope -/

/-- R168: the transition table, entry by entry; `none` is -1. -/
def Obligations.TransitionTableOfTheSpec : Prop :=
  ((List.range 16).map fun f => ttEntry .leavingDecay (BitVec.ofNat 4 f)) =
    [some .holdLow, some .holdLow, some .holdLow, some .holdLow, none, none, none, none,
      some .decay, some .holdLow, some .attack, some .holdHigh, none, none, some .attack, none] ∧
  ((List.range 16).map fun f => ttEntry .leavingAttack (BitVec.ofNat 4 f)) =
    [none, none, none, none, some .holdLow, some .holdLow, some .holdLow, some .holdLow,
      none, none, some .decay, none, some .attack, some .holdHigh, some .decay, some .holdLow]

/-- R163: the effect of `DENV.SETFLAGS d, flags`: bits 3:0 are stored, bit 2 selects the start state. -/
def Obligations.DenvSetFlagsSelectsTheStart : Prop :=
  ∀ (s : State) (d : UnitIx) (flags : Word32), d.toNat < s.denv.length →
    (encodeFields (.denvSetFlags d flags)).opcode = 0x50#8 ∧
    ∃ t, exec (.denvSetFlags d flags) s = .next t ∧ t.result = .none ∧
      t.readLoc (.denv d .flags) = .word (flags &&& 0xF#32) ∧
      t.readLoc (.denv d .sel) = .word (if flags.getLsbD 2 then 1#32 else 0#32) ∧
      s.OnlyChanges t (fun l => l = .denv d .flags ∨ l = .denv d .sel)

/-- R165 with R164, R166: the effect and the sample of `DENV.TICK d`; the count is incremented without wrap. -/
def Obligations.DenvTickRampsAndLooksUp : Prop :=
  ∀ (s : State) (d : UnitIx) (g : Denv Sample), s.denv[d.toNat]? = some g →
    let ramp := if g.period = 0#32 then 0x3F800000#32
      else F32.div (F32.ofNat g.counter.toNat) (F32.ofNat g.period.toNat)
    let out := match g.sel with
      | .decay => F32.sub 0x3F800000#32 ramp
      | .attack => ramp
      | .holdLow => 0#32
      | .holdHigh => 0x3F800000#32
    let wraps := g.period.toNat < g.counter.toNat + 1
    (encodeFields (.denvTick d)).opcode = 0x51#8 ∧
    ∃ t g', exec (.denvTick d) s = .next t ∧ t.result = .sample out ∧ t.denv[d.toNat]? = some g' ∧ g'.out = out ∧
      ((g.sel = .holdLow ∨ g.sel = .holdHigh) → g'.counter = g.counter ∧ g'.sel = g.sel) ∧
      ((g.sel = .decay ∨ g.sel = .attack) → ¬ wraps →
        g'.counter.toNat = g.counter.toNat + 1 ∧ g'.sel = g.sel) ∧
      ((g.sel = .decay ∨ g.sel = .attack) → wraps → g'.counter = 0#32 ∧
        g'.sel = (ttEntry (if g.sel = .decay then .leavingDecay else .leavingAttack) g.flags).getD g.sel) ∧
      s.OnlyChanges t (fun l => l = .denv d .counter ∨ l = .denv d .sel ∨ l = .denv d .out)

/-- R165: a ramp from count 0 lasts `period + 1` ticks in every numerics profile: tick `n + 1` of it puts out `n / period` in
Attack and `1 - n / period` in Decay (`n / period` being 1 when the period is 0), and the last one resets the
count and takes the state of the table. -/
def Obligations.RampLastsOneTickMoreThanThePeriod : Prop :=
  ∀ (S : Type) (num : Num S) (g : Denv S) (n : Nat), g.counter = 0#32 → g.sel = .decay ∨ g.sel = .attack →
    let ticks := fun j : Nat => (denvTick num)^[j] g
    let fraction := if g.period = 0#32 then num.one else num.div (num.ofNat n) (num.ofNat g.period.toNat)
    n ≤ g.period.toNat →
    ((ticks n).sel = g.sel ∧ (ticks n).counter.toNat = n) ∧
    (ticks (n + 1)).out = (if g.sel = .decay then num.sub num.one fraction else fraction) ∧
    (n = g.period.toNat → (ticks (n + 1)).counter = 0#32 ∧
      (ticks (n + 1)).sel =
        (ttEntry (if g.sel = .decay then .leavingDecay else .leavingAttack) g.flags).getD g.sel)

/-- R38: after a tick of a unit with its invariant the stored counters are in range. -/
def Obligations.CountersStayInRange : Prop :=
  (∀ g : Denv Sample, g.ok → (denvTick numF32 g).counter.toNat ≤ (denvTick numF32 g).period.toNat) ∧
  (∀ g : Square, (sqTick g).counter.toNat < max (sqTick g).period.toNat 1) ∧
  (∀ g : Noise, (nzTick g).counter.toNat < max (nzTick g).period.toNat 1)

/-! ## Square and noise generators -/

/-- R178 with R176: the effect and the word of `SQ.TICK q`. -/
def Obligations.SqTickCountsAndToggles : Prop :=
  ∀ (s : State) (q : UnitIx) (g : Square), s.sq[q.toNat]? = some g →
    let fires := g.period.toNat ≤ g.counter.toNat + 1
    (encodeFields (.sqTick q)).opcode = 0x60#8 ∧
    ∃ t g', exec (.sqTick q) s = .next t ∧ t.result = .word (g'.out.setWidth 32) ∧ t.sq[q.toNat]? = some g' ∧
      (fires → g'.counter = 0#32 ∧ g'.out = ~~~ g.out) ∧
      (¬ fires → g'.counter.toNat = g.counter.toNat + 1 ∧ g'.out = g.out) ∧
      s.OnlyChanges t (fun l => l = .sq q .counter ∨ l = .sq q .out)

/-- R176, R178: from count 0 with a constant period of at least 1 a square generator has toggled `n / period` times after `n`
ticks, and its count is the remainder. -/
def Obligations.SquareTogglesEveryPeriodTicks : Prop :=
  ∀ (g : Square) (n : Nat), g.counter = 0#32 → 1 ≤ g.period.toNat →
    (sqTick^[n] g).counter.toNat = n % g.period.toNat ∧
    (sqTick^[n] g).out = (if n / g.period.toNat % 2 = 0 then g.out else ~~~ g.out)

/-- R181 with R176, R180: the effect and the word of `NZ.TICK n`: the feedback of bits 0 and 3 enters at bit 16 when the
count fires, and the output is bit 0 of the register afterwards, at every tick. -/
def Obligations.NzTickShiftsAndRepublishes : Prop :=
  ∀ (s : State) (n : UnitIx) (g : Noise), s.nz[n.toNat]? = some g →
    let fires := g.period.toNat ≤ g.counter.toNat + 1
    (encodeFields (.nzTick n)).opcode = 0x61#8 ∧
    ∃ t g', exec (.nzTick n) s = .next t ∧ t.result = .word (g'.out.setWidth 32) ∧ t.nz[n.toNat]? = some g' ∧
      (fires → g'.counter = 0#32 ∧ g'.rng.getLsbD 16 = (g.rng.getLsbD 0 ^^ g.rng.getLsbD 3) ∧
        ∀ j, j < 16 → g'.rng.getLsbD j = g.rng.getLsbD (j + 1)) ∧
      (¬ fires → g'.counter.toNat = g.counter.toNat + 1 ∧ g'.rng = g.rng) ∧
      g'.out.getLsbD 0 = g'.rng.getLsbD 0 ∧
      s.OnlyChanges t (fun l => l = .nz n .counter ∨ l = .nz n .out ∨ l = .nz n .rng)

/-- R180: the 17-bit form of the LFSR step is the source's formula on integers, for every register value. -/
def Obligations.LfsrIsTheSourcesFormula : Prop :=
  ∀ rng : BitVec 17, (lfsr rng).toNat =
    (rng.toNat ^^^ (((rng.toNat &&& 1) ^^^ ((rng.toNat >>> 3) &&& 1)) <<< 17)) >>> 1

/-- R180: 0 is a fixed point, and every other value comes back after 131071 steps and not before. -/
def Obligations.LfsrCycleHasFullLength : Prop :=
  lfsr 0#17 = 0#17 ∧
  ∀ rng : BitVec 17, rng ≠ 0#17 →
    lfsr^[131071] rng = rng ∧ ∀ n, 0 < n → n < 131071 → lfsr^[n] rng ≠ rng

/-- R183: two noise generators with equal period, counter and register give equal outputs for any number of ticks. -/
def Obligations.NoiseGeneratorsAgreeOnEqualSeeds : Prop :=
  ∀ (g h : Noise) (n : Nat), g.period = h.period → g.counter = h.counter → g.rng = h.rng →
    (nzTick^[n + 1] g).out = (nzTick^[n + 1] h).out

/-! ## Bank -/

/-- R187: `BANK.TICK dt` ticks every FM voice once and presents the sum of their samples, added in ascending order from 0;
no other unit changes. -/
def Obligations.BankTickSumsEveryVoiceOnce : Prop :=
  ∀ (s : State) (dt : Word32), F32.isFinite dt = true →
    let ticked := s.fm.map (fmTick numF32 dt)
    encodeFields (.bankTick dt) = ⟨0x70#8, 0#8, 0#4, 0#4, 0#8, dt⟩ ∧
    exec (.bankTick dt) s = .next { s with
      fm := ticked.map Prod.fst
      result := .sample ((ticked.map Prod.snd).foldl F32.add 0#32) }

/-! ## Binary32 -/

/-- R12: on finite operands each operation of `NUM_F32` is the exact operation of `NUM_REAL` followed by the one rounding to
nearest even, wherever the exact result is not zero (a zero result has no sign in the reals). The sign of the zero word where
a negative result rounds to zero, and the infinity where a result is beyond the range, are the model's choice in `realToF32`
(logs 25, 26). -/
def Obligations.BinaryOperationsAreCorrectlyRounded : Prop :=
  ∀ x y : Sample, F32.isFinite x = true → F32.isFinite y = true →
    (realOfF32 x + realOfF32 y ≠ 0 → F32.add x y = realToF32 (realOfF32 x + realOfF32 y)) ∧
    (realOfF32 x - realOfF32 y ≠ 0 → F32.sub x y = realToF32 (realOfF32 x - realOfF32 y)) ∧
    (realOfF32 x * realOfF32 y ≠ 0 → F32.mul x y = realToF32 (realOfF32 x * realOfF32 y)) ∧
    (realOfF32 y ≠ 0 → realOfF32 x / realOfF32 y ≠ 0 → F32.div x y = realToF32 (realOfF32 x / realOfF32 y))

/-- R12: on finite operands the comparisons of `NUM_F32` are those of the reals, and `rnd` rounds the real value to the
nearest integer, ties away from zero (R11). -/
def Obligations.ComparisonsAndRoundingFollowTheReals : Prop :=
  ∀ x y : Sample, F32.isFinite x = true → F32.isFinite y = true →
    (F32.lt x y = true ↔ realOfF32 x < realOfF32 y) ∧
    (F32.le x y = true ↔ realOfF32 x ≤ realOfF32 y) ∧
    F32.rnd x = realRnd (realOfF32 x)

/-- R12: `ofNat` rounds the natural to nearest even, and a finite word but -0 is its own rounding. That -0 is not, and 0
rounds to +0, and that a natural beyond the range rounds to infinity, is the model's choice in `realToF32` (logs 25, 26). -/
def Obligations.ConversionsAreCorrectlyRounded : Prop :=
  (∀ n : Nat, F32.ofNat n = realToF32 n) ∧
  (∀ w : Word32, F32.isFinite w = true → w ≠ 0x80000000#32 → realToF32 (realOfF32 w) = w)

/-- R12, I10: an operation on a NaN gives a NaN, and both comparisons with a NaN are false; which NaN is free. -/
def Obligations.NansPropagateAndNeverCompare : Prop :=
  ∀ x y : Sample, F32.isNan x = true ∨ F32.isNan y = true →
    F32.isNan (F32.add x y) = true ∧ F32.isNan (F32.sub x y) = true ∧ F32.isNan (F32.mul x y) = true ∧
    F32.isNan (F32.div x y) = true ∧ F32.lt x y = false ∧ F32.le x y = false
end

