-- ==== Sys2Proof/Laws/Decode.lean ====
section
/-! SUPPORT. The fields of a word and the word of the fields are inverse to each other, and so are the codes of operators,
registers and gates. -/

namespace Sys2Proof

open Sys2Proof.Machine

theorem Fields.toWord_getLsbD (f : Fields) (i : Nat) :
    f.toWord.getLsbD i =
      if i < 32 then f.operand.getLsbD i
      else if i < 40 then f.reg.getLsbD (i - 32)
      else if i < 44 then f.cls.getLsbD (i - 40)
      else if i < 48 then f.op.getLsbD (i - 44)
      else if i < 56 then f.unit.getLsbD (i - 48)
      else f.opcode.getLsbD (i - 56) := by
  unfold Fields.toWord
  simp only [BitVec.getLsbD_append]
  repeat' split
  all_goals first
    | rfl
    | omega

/-- A slice of a word given bit by bit. -/
theorem slice_eq {n lo len : Nat} {w : BitVec n} {x : BitVec len}
    (h : ∀ i, i < len → w.getLsbD (lo + i) = x.getLsbD i) : w.extractLsb' lo len = x := by
  apply BitVec.eq_of_getLsbD_eq
  intro i hi
  simp [hi, h i hi]

@[simp] theorem Fields.ofWord_toWord (f : Fields) : Fields.ofWord f.toWord = f := by
  have hop : f.toWord.extractLsb' 56 8 = f.opcode := slice_eq fun i hi => by
    rw [Fields.toWord_getLsbD, if_neg (by omega), if_neg (by omega), if_neg (by omega), if_neg (by omega),
      if_neg (by omega), Nat.add_sub_cancel_left]
  have hunit : f.toWord.extractLsb' 48 8 = f.unit := slice_eq fun i hi => by
    rw [Fields.toWord_getLsbD, if_neg (by omega), if_neg (by omega), if_neg (by omega), if_neg (by omega),
      if_pos (by omega), Nat.add_sub_cancel_left]
  have hk : f.toWord.extractLsb' 44 4 = f.op := slice_eq fun i hi => by
    rw [Fields.toWord_getLsbD, if_neg (by omega), if_neg (by omega), if_neg (by omega), if_pos (by omega),
      Nat.add_sub_cancel_left]
  have hcls : f.toWord.extractLsb' 40 4 = f.cls := slice_eq fun i hi => by
    rw [Fields.toWord_getLsbD, if_neg (by omega), if_neg (by omega), if_pos (by omega), Nat.add_sub_cancel_left]
  have hreg : f.toWord.extractLsb' 32 8 = f.reg := slice_eq fun i hi => by
    rw [Fields.toWord_getLsbD, if_neg (by omega), if_pos (by omega), Nat.add_sub_cancel_left]
  have hoperand : f.toWord.extractLsb' 0 32 = f.operand := slice_eq fun i hi => by
    rw [Fields.toWord_getLsbD, if_pos (by omega), Nat.zero_add]
  simp only [Fields.ofWord, hop, hunit, hk, hcls, hreg, hoperand]

@[simp] theorem Fields.toWord_ofWord (w : CmdWord) : (Fields.ofWord w).toWord = w := by
  apply BitVec.eq_of_getLsbD_eq
  intro i hi
  rw [Fields.toWord_getLsbD]
  simp only [Fields.ofWord, BitVec.getLsbD_extractLsb']
  split
  · simp [*]
  split
  · rw [show 32 + (i - 32) = i by omega]
    simp
    omega
  split
  · rw [show 40 + (i - 40) = i by omega]
    simp
    omega
  split
  · rw [show 44 + (i - 44) = i by omega]
    simp
    omega
  split
  · rw [show 48 + (i - 48) = i by omega]
    simp
    omega
  · rw [show 56 + (i - 56) = i by omega]
    simp
    omega

/-- Every command's word has the command's fields. -/
@[simp] theorem ofWord_encode (i : Instr) : Fields.ofWord (encode i) = encodeFields i :=
  Fields.ofWord_toWord _

/-- The decoder reads the command's fields from its word. -/
theorem decode_encode_fields (i : Instr) : decode (encode i) = decodeFields (encodeFields i) := by
  rw [decode, ofWord_encode]

@[simp] theorem opOfCode_opCode (k : OpIx) : opOfCode (opCode k) = some k := by
  cases k <;> decide

theorem opCode_of_opOfCode {b : BitVec 4} {k : OpIx} (h : opOfCode b = some k) : opCode k = b := by
  unfold opOfCode at h
  split at h
  · next hb => cases h; exact hb.symm
  · split at h
    · next hb => cases h; exact hb.symm
    · split at h
      · next hb => cases h; exact hb.symm
      · cases h

/-- Every register is found at its address: no two registers share one. -/
@[simp] theorem RegName.ofAddress_address (n : RegName) : RegName.ofAddress n.address.1 n.address.2 = some n := by
  rcases n with r | r | r | r | r | r <;> cases r <;> decide

theorem RegName.address_of_ofAddress {cls : BitVec 4} {reg : BitVec 8} {n : RegName}
    (h : RegName.ofAddress cls reg = some n) : n.address = (cls, reg) := by
  have := List.find?_some h
  simpa using this

@[simp] theorem gateOf_gateWord (g : Bool) : gateOf (gateWord g) = g := by
  cases g <;> decide

@[simp] theorem operandLegal_gateWord (g : Bool) : operandLegal .G (gateWord g) = true := by
  cases g <;> decide

/-- A legal gate operand is the word of its gate. -/
theorem gateWord_gateOf {x : Word32} (h : operandLegal .G x = true) : gateWord (gateOf x) = x := by
  have h' : x.extractLsb' 1 31 = 0#31 := by simpa [operandLegal] using h
  apply BitVec.eq_of_getLsbD_eq
  intro i hi
  rcases Nat.eq_zero_or_pos i with rfl | hpos
  · show (if x.getLsbD 0 then 1#32 else 0#32).getLsbD 0 = x.getLsbD 0
    cases x.getLsbD 0 <;> rfl
  · have hbit := congrArg (fun b => b.getLsbD (i - 1)) h'
    simp only [BitVec.getLsbD_extractLsb', BitVec.getLsbD_zero] at hbit
    rw [show 1 + (i - 1) = i by omega] at hbit
    have hx : x.getLsbD i = false := by
      rcases Bool.eq_false_or_eq_true (x.getLsbD i) with h1 | h1
      · simp [h1] at hbit
        omega
      · exact h1
    rw [hx]
    cases gateOf x
    · simp [gateWord]
    · simp [gateWord]
      omega

end Sys2Proof
end

