-- ==== Sys2Proof/Laws/Memory.lean ====
section
/-! SUPPORT. What the delay-line operations do: a read after a write, the canonical form kept by every operation, and equal
reads make equal canonical memories. -/

namespace Sys2Proof.Machine

variable {S : Type} {z : S}

@[simp] theorem Memory.read_nil (a : Nat) : Memory.read z [] a = z := rfl

theorem Memory.read_erase (m : Memory S) (a b : Nat) :
    Memory.read z (Memory.erase m a) b = if b = a then z else Memory.read z m b := by
  induction m with
  | nil => simp [Memory.erase]
  | cons c rest ih =>
    obtain ⟨d, w⟩ := c
    by_cases hd : d = a
    · subst hd
      simp only [Memory.erase, if_true, ih, Memory.read]
      by_cases hb : b = d
      · simp [hb]
      · simp [hb, Ne.symm hb]
    · simp only [Memory.erase, hd, if_false, Memory.read, ih]
      by_cases hb : b = a
      · subst hb
        simp [hd]
      · simp [hb]

theorem Memory.read_insert (m : Memory S) (a b : Nat) (v : S) :
    Memory.read z (Memory.insert m a v) b = if b = a then v else Memory.read z m b := by
  induction m with
  | nil => simp [Memory.insert, Memory.read, eq_comm]
  | cons c rest ih =>
    obtain ⟨d, w⟩ := c
    simp only [Memory.insert]
    by_cases h1 : a < d
    · simp only [h1, if_true, Memory.read]
      by_cases hb : b = a
      · simp [hb]
      · simp [hb, Ne.symm hb]
    · by_cases h2 : a = d
      · subst h2
        simp only [lt_irrefl, if_false, if_true, Memory.read]
        by_cases hb : b = a
        · simp [hb]
        · simp [hb, Ne.symm hb]
      · simp only [h1, h2, if_false, Memory.read, ih]
        by_cases hb : b = a
        · subst hb
          simp [Ne.symm h2]
        · simp [hb]

/-- A read after a write: the written word gives the value written, every other word what it gave before. -/
theorem Memory.read_write [DecidableEq S] (m : Memory S) (a b : Nat) (v : S) :
    Memory.read z (Memory.write z m a v) b = if b = a then v else Memory.read z m b := by
  unfold Memory.write
  split
  · next h => rw [Memory.read_erase, h]
  · rw [Memory.read_insert]

@[simp] theorem Memory.read_write_same [DecidableEq S] (m : Memory S) (a : Nat) (v : S) :
    Memory.read z (Memory.write z m a v) a = v := by
  simp [Memory.read_write]

theorem Memory.read_write_other [DecidableEq S] (m : Memory S) {a b : Nat} (v : S) (h : b ≠ a) :
    Memory.read z (Memory.write z m a v) b = Memory.read z m b := by
  simp [Memory.read_write, h]

/-- A fill writes exactly the words below its length. -/
theorem Memory.read_fill [DecidableEq S] (f : Nat → S) (m : Memory S) (n a : Nat) :
    Memory.read z (Memory.fill z f m n) a = if a < n then f a else Memory.read z m a := by
  induction n with
  | zero => simp [Memory.fill]
  | succ n ih =>
    rw [Memory.fill, Memory.read_write, ih]
    by_cases h : a = n
    · simp [h]
    · have : a < n + 1 ↔ a < n := by omega
      simp [h, this]

/-- The entry addresses and values of a memory satisfy `p`. -/
theorem Memory.all_erase {p : Nat × S → Bool} {m : Memory S} (a : Nat) (h : m.all p = true) :
    (Memory.erase m a).all p = true := by
  induction m with
  | nil => rfl
  | cons c rest ih =>
    simp only [List.all_cons, Bool.and_eq_true] at h
    simp only [Memory.erase]
    split
    · exact ih h.2
    · simp [h.1, ih h.2]

theorem Memory.all_insert {p : Nat × S → Bool} {m : Memory S} {a : Nat} {v : S} (hp : p (a, v) = true)
    (h : m.all p = true) : (Memory.insert m a v).all p = true := by
  induction m with
  | nil => simp [Memory.insert, hp]
  | cons c rest ih =>
    simp only [List.all_cons, Bool.and_eq_true] at h
    simp only [Memory.insert]
    split
    · simp [hp, h.1, h.2]
    · split
      · simp [hp, h.2]
      · simp [h.1, ih h.2]

theorem Memory.sorted_erase {m : Memory S} (a : Nat) (h : Memory.sorted m = true) :
    Memory.sorted (Memory.erase m a) = true := by
  induction m with
  | nil => rfl
  | cons c rest ih =>
    simp only [Memory.sorted, Bool.and_eq_true] at h
    simp only [Memory.erase]
    split
    · exact ih h.2
    · simp only [Memory.sorted, Bool.and_eq_true]
      exact ⟨Memory.all_erase a h.1, ih h.2⟩

theorem Memory.sorted_insert {m : Memory S} (a : Nat) (v : S) (h : Memory.sorted m = true) :
    Memory.sorted (Memory.insert m a v) = true := by
  induction m with
  | nil => rfl
  | cons c rest ih =>
    obtain ⟨b, w⟩ := c
    simp only [Memory.sorted, Bool.and_eq_true] at h
    simp only [Memory.insert]
    split
    · next hab =>
      simp only [Memory.sorted, List.all_cons, Bool.and_eq_true, decide_eq_true_eq]
      refine ⟨⟨hab, ?_⟩, h.1, h.2⟩
      have := h.1
      simp only [List.all_eq_true, decide_eq_true_eq] at this ⊢
      exact fun c hc => lt_trans hab (this c hc)
    · split
      · next hab =>
        subst hab
        simp only [Memory.sorted, Bool.and_eq_true]
        exact ⟨h.1, h.2⟩
      · next h1 h2 =>
        simp only [Memory.sorted, Bool.and_eq_true]
        refine ⟨Memory.all_insert ?_ h.1, ih h.2⟩
        simp only [decide_eq_true_eq]
        omega

/-- A write of a word below the capacity keeps the canonical form. -/
theorem Memory.wf_write [DecidableEq S] {m : Memory S} {cap a : Nat} (v : S) (ha : a < cap)
    (h : Memory.wf z cap m = true) : Memory.wf z cap (Memory.write z m a v) = true := by
  simp only [Memory.wf, Bool.and_eq_true] at h ⊢
  unfold Memory.write
  split
  · exact ⟨Memory.sorted_erase a h.1, Memory.all_erase a h.2⟩
  · next hv =>
    refine ⟨Memory.sorted_insert a v h.1, Memory.all_insert ?_ h.2⟩
    simp [ha, hv]

/-- A fill of at most the capacity keeps the canonical form. -/
theorem Memory.wf_fill [DecidableEq S] {m : Memory S} {cap : Nat} (f : Nat → S) (n : Nat) (hn : n ≤ cap)
    (h : Memory.wf z cap m = true) : Memory.wf z cap (Memory.fill z f m n) = true := by
  induction n with
  | zero => exact h
  | succ n ih => exact Memory.wf_write _ (by omega) (ih (by omega))

/-- The memory with nothing listed is canonical. -/
@[simp] theorem Memory.wf_nil [DecidableEq S] (cap : Nat) : Memory.wf z cap [] = true := rfl

/-- No word below every listed address reads as anything but `z`. -/
theorem Memory.read_below {m : Memory S} {a : Nat} (h : ∀ c ∈ m, a < c.1) : Memory.read z m a = z := by
  induction m with
  | nil => rfl
  | cons c rest ih =>
    obtain ⟨b, w⟩ := c
    have hb := h (b, w) (by simp)
    simp only [Memory.read]
    rw [if_neg (by simp at hb; omega)]
    exact ih fun c hc => h c (by simp [hc])

/-- Canonical memories that read alike are equal. -/
theorem Memory.ext_read [DecidableEq S] {m n : Memory S} {cap : Nat} (hm : Memory.wf z cap m = true)
    (hn : Memory.wf z cap n = true) (h : ∀ a, Memory.read z m a = Memory.read z n a) : m = n := by
  have split : ∀ {b : Nat} {w : S} {rest : Memory S}, Memory.wf z cap ((b, w) :: rest) = true →
      (∀ c ∈ rest, b < c.1) ∧ w ≠ z ∧ Memory.wf z cap rest = true := by
    intro b w rest hwf
    simp only [Memory.wf, Memory.sorted, List.all_cons, Bool.and_eq_true, decide_eq_true_eq, List.all_eq_true] at hwf ⊢
    exact ⟨fun c hc => hwf.1.1 c hc, hwf.2.1.2, hwf.1.2, hwf.2.2⟩
  induction m generalizing n with
  | nil =>
    cases n with
    | nil => rfl
    | cons c rest =>
      obtain ⟨b, w⟩ := c
      have := h b
      simp only [Memory.read, if_true] at this
      exact absurd this.symm (split hn).2.1
  | cons c rest ih =>
    obtain ⟨b, w⟩ := c
    obtain ⟨hlt, hw, hrest⟩ := split hm
    cases n with
    | nil =>
      have := h b
      simp only [Memory.read, if_true] at this
      exact absurd this hw
    | cons d rest' =>
      obtain ⟨b', w'⟩ := d
      obtain ⟨hlt', hw', hrest'⟩ := split hn
      have hb : b = b' := by
        rcases lt_trichotomy b b' with hlt1 | heq | hgt
        · have h1 := h b
          rw [Memory.read_below (m := (b', w') :: rest') (by
            intro c hc
            rcases List.mem_cons.1 hc with rfl | hc
            · exact hlt1
            · exact lt_trans hlt1 (hlt' c hc))] at h1
          simp only [Memory.read, if_true] at h1
          exact absurd h1 hw
        · exact heq
        · have h1 := h b'
          rw [Memory.read_below (m := (b, w) :: rest) (by
            intro c hc
            rcases List.mem_cons.1 hc with rfl | hc
            · exact hgt
            · exact lt_trans hgt (hlt c hc))] at h1
          simp only [Memory.read, if_true] at h1
          exact absurd h1.symm hw'
      subst hb
      have hv : w = w' := by simpa [Memory.read] using h b
      subst hv
      congr 1
      refine ih hrest hrest' fun a => ?_
      by_cases ha : b = a
      · subst ha
        rw [Memory.read_below hlt, Memory.read_below hlt']
      · simpa [Memory.read, ha] using h a

end Sys2Proof.Machine
end

