-- ==== Sys2Proof/Laws/State.lean ====
section
/-! SUPPORT. One lemma per field per named update of `State`, and per register of the unit updates, so that no later proof
unfolds a record update. -/

namespace Sys2Proof.Machine

variable {S : Type}

@[simp] theorem State.withResult_fm (s : State) (r : Result Sample) : (s.withResult r).fm = s.fm := rfl
@[simp] theorem State.withResult_str (s : State) (r : Result Sample) : (s.withResult r).str = s.str := rfl
@[simp] theorem State.withResult_denv (s : State) (r : Result Sample) : (s.withResult r).denv = s.denv := rfl
@[simp] theorem State.withResult_sq (s : State) (r : Result Sample) : (s.withResult r).sq = s.sq := rfl
@[simp] theorem State.withResult_nz (s : State) (r : Result Sample) : (s.withResult r).nz = s.nz := rfl
@[simp] theorem State.withResult_par (s : State) (r : Result Sample) : (s.withResult r).par = s.par := rfl
@[simp] theorem State.withResult_cmds (s : State) (r : Result Sample) : (s.withResult r).cmds = s.cmds := rfl
@[simp] theorem State.withResult_result (s : State) (r : Result Sample) : (s.withResult r).result = r := rfl

@[simp] theorem State.withFm_fm (s : State) (xs : List (FmVoice Sample)) : (s.withFm xs).fm = xs := rfl
@[simp] theorem State.withFm_str (s : State) (xs : List (FmVoice Sample)) : (s.withFm xs).str = s.str := rfl
@[simp] theorem State.withFm_denv (s : State) (xs : List (FmVoice Sample)) : (s.withFm xs).denv = s.denv := rfl
@[simp] theorem State.withFm_sq (s : State) (xs : List (FmVoice Sample)) : (s.withFm xs).sq = s.sq := rfl
@[simp] theorem State.withFm_nz (s : State) (xs : List (FmVoice Sample)) : (s.withFm xs).nz = s.nz := rfl
@[simp] theorem State.withFm_par (s : State) (xs : List (FmVoice Sample)) : (s.withFm xs).par = s.par := rfl
@[simp] theorem State.withFm_cmds (s : State) (xs : List (FmVoice Sample)) : (s.withFm xs).cmds = s.cmds := rfl
@[simp] theorem State.withFm_result (s : State) (xs : List (FmVoice Sample)) : (s.withFm xs).result = s.result := rfl

@[simp] theorem State.withStr_fm (s : State) (xs : List (StringVoice Sample)) : (s.withStr xs).fm = s.fm := rfl
@[simp] theorem State.withStr_str (s : State) (xs : List (StringVoice Sample)) : (s.withStr xs).str = xs := rfl
@[simp] theorem State.withStr_denv (s : State) (xs : List (StringVoice Sample)) : (s.withStr xs).denv = s.denv := rfl
@[simp] theorem State.withStr_sq (s : State) (xs : List (StringVoice Sample)) : (s.withStr xs).sq = s.sq := rfl
@[simp] theorem State.withStr_nz (s : State) (xs : List (StringVoice Sample)) : (s.withStr xs).nz = s.nz := rfl
@[simp] theorem State.withStr_par (s : State) (xs : List (StringVoice Sample)) : (s.withStr xs).par = s.par := rfl
@[simp] theorem State.withStr_cmds (s : State) (xs : List (StringVoice Sample)) : (s.withStr xs).cmds = s.cmds := rfl
@[simp] theorem State.withStr_result (s : State) (xs : List (StringVoice Sample)) : (s.withStr xs).result = s.result := rfl

@[simp] theorem State.withDenv_fm (s : State) (xs : List (Denv Sample)) : (s.withDenv xs).fm = s.fm := rfl
@[simp] theorem State.withDenv_str (s : State) (xs : List (Denv Sample)) : (s.withDenv xs).str = s.str := rfl
@[simp] theorem State.withDenv_denv (s : State) (xs : List (Denv Sample)) : (s.withDenv xs).denv = xs := rfl
@[simp] theorem State.withDenv_sq (s : State) (xs : List (Denv Sample)) : (s.withDenv xs).sq = s.sq := rfl
@[simp] theorem State.withDenv_nz (s : State) (xs : List (Denv Sample)) : (s.withDenv xs).nz = s.nz := rfl
@[simp] theorem State.withDenv_par (s : State) (xs : List (Denv Sample)) : (s.withDenv xs).par = s.par := rfl
@[simp] theorem State.withDenv_cmds (s : State) (xs : List (Denv Sample)) : (s.withDenv xs).cmds = s.cmds := rfl
@[simp] theorem State.withDenv_result (s : State) (xs : List (Denv Sample)) : (s.withDenv xs).result = s.result := rfl

@[simp] theorem State.withSq_fm (s : State) (xs : List Square) : (s.withSq xs).fm = s.fm := rfl
@[simp] theorem State.withSq_str (s : State) (xs : List Square) : (s.withSq xs).str = s.str := rfl
@[simp] theorem State.withSq_denv (s : State) (xs : List Square) : (s.withSq xs).denv = s.denv := rfl
@[simp] theorem State.withSq_sq (s : State) (xs : List Square) : (s.withSq xs).sq = xs := rfl
@[simp] theorem State.withSq_nz (s : State) (xs : List Square) : (s.withSq xs).nz = s.nz := rfl
@[simp] theorem State.withSq_par (s : State) (xs : List Square) : (s.withSq xs).par = s.par := rfl
@[simp] theorem State.withSq_cmds (s : State) (xs : List Square) : (s.withSq xs).cmds = s.cmds := rfl
@[simp] theorem State.withSq_result (s : State) (xs : List Square) : (s.withSq xs).result = s.result := rfl

@[simp] theorem State.withNz_fm (s : State) (xs : List Noise) : (s.withNz xs).fm = s.fm := rfl
@[simp] theorem State.withNz_str (s : State) (xs : List Noise) : (s.withNz xs).str = s.str := rfl
@[simp] theorem State.withNz_denv (s : State) (xs : List Noise) : (s.withNz xs).denv = s.denv := rfl
@[simp] theorem State.withNz_sq (s : State) (xs : List Noise) : (s.withNz xs).sq = s.sq := rfl
@[simp] theorem State.withNz_nz (s : State) (xs : List Noise) : (s.withNz xs).nz = xs := rfl
@[simp] theorem State.withNz_par (s : State) (xs : List Noise) : (s.withNz xs).par = s.par := rfl
@[simp] theorem State.withNz_cmds (s : State) (xs : List Noise) : (s.withNz xs).cmds = s.cmds := rfl
@[simp] theorem State.withNz_result (s : State) (xs : List Noise) : (s.withNz xs).result = s.result := rfl

@[simp] theorem State.withCmds_fm (s : State) (ws : List CmdWord) : (s.withCmds ws).fm = s.fm := rfl
@[simp] theorem State.withCmds_str (s : State) (ws : List CmdWord) : (s.withCmds ws).str = s.str := rfl
@[simp] theorem State.withCmds_denv (s : State) (ws : List CmdWord) : (s.withCmds ws).denv = s.denv := rfl
@[simp] theorem State.withCmds_sq (s : State) (ws : List CmdWord) : (s.withCmds ws).sq = s.sq := rfl
@[simp] theorem State.withCmds_nz (s : State) (ws : List CmdWord) : (s.withCmds ws).nz = s.nz := rfl
@[simp] theorem State.withCmds_par (s : State) (ws : List CmdWord) : (s.withCmds ws).par = s.par := rfl
@[simp] theorem State.withCmds_cmds (s : State) (ws : List CmdWord) : (s.withCmds ws).cmds = ws := rfl
@[simp] theorem State.withCmds_result (s : State) (ws : List CmdWord) : (s.withCmds ws).result = s.result := rfl

@[simp] theorem State.ignore_fm (s : State) : (s.ignore).fm = s.fm := rfl
@[simp] theorem State.ignore_str (s : State) : (s.ignore).str = s.str := rfl
@[simp] theorem State.ignore_denv (s : State) : (s.ignore).denv = s.denv := rfl
@[simp] theorem State.ignore_sq (s : State) : (s.ignore).sq = s.sq := rfl
@[simp] theorem State.ignore_nz (s : State) : (s.ignore).nz = s.nz := rfl
@[simp] theorem State.ignore_par (s : State) : (s.ignore).par = s.par := rfl
@[simp] theorem State.ignore_cmds (s : State) : (s.ignore).cmds = s.cmds := rfl
@[simp] theorem State.ignore_result (s : State) : (s.ignore).result = .none := rfl

/-! Operators of a voice. -/

@[simp] theorem FmVoice.op_op0 (v : FmVoice S) : v.op .op0 = v.op0 := rfl
@[simp] theorem FmVoice.op_op1 (v : FmVoice S) : v.op .op1 = v.op1 := rfl
@[simp] theorem FmVoice.op_op2 (v : FmVoice S) : v.op .op2 = v.op2 := rfl

@[simp] theorem FmVoice.op_setOp_same (v : FmVoice S) (k : OpIx) (o : Operator S) : (v.setOp k o).op k = o := by
  cases k <;> rfl

@[simp] theorem FmVoice.op_setOp_other (v : FmVoice S) {k j : OpIx} (o : Operator S) (h : j ≠ k) :
    (v.setOp k o).op j = v.op j := by
  cases k <;> cases j <;> first | rfl | exact absurd rfl h

@[simp] theorem FmVoice.setEnv_env_same (v : FmVoice S) (k : OpIx) (e : Envelope S) :
    ((v.setEnv k e).op k).env = e := by
  cases k <;> rfl

@[simp] theorem FmVoice.setEnv_env_other (v : FmVoice S) {k j : OpIx} (e : Envelope S) (h : j ≠ k) :
    ((v.setEnv k e).op j).env = (v.op j).env := by
  cases k <;> cases j <;> first | rfl | exact absurd rfl h

@[simp] theorem FmVoice.setEnv_osc (v : FmVoice S) (k j : OpIx) (e : Envelope S) :
    ((v.setEnv k e).op j).osc = (v.op j).osc := by
  cases k <;> cases j <;> rfl

@[simp] theorem FmVoice.setOsc_osc_same (v : FmVoice S) (k : OpIx) (o : Oscillator S) :
    ((v.setOsc k o).op k).osc = o := by
  cases k <;> rfl

@[simp] theorem FmVoice.setOsc_osc_other (v : FmVoice S) {k j : OpIx} (o : Oscillator S) (h : j ≠ k) :
    ((v.setOsc k o).op j).osc = (v.op j).osc := by
  cases k <;> cases j <;> first | rfl | exact absurd rfl h

@[simp] theorem FmVoice.setOsc_env (v : FmVoice S) (k j : OpIx) (o : Oscillator S) :
    ((v.setOsc k o).op j).env = (v.op j).env := by
  cases k <;> cases j <;> rfl

/-- A voice is its three operators. -/
theorem FmVoice.ext_op {v w : FmVoice S} (h : ∀ k, v.op k = w.op k) : v = w := by
  cases v
  cases w
  exact FmVoice.mk.injEq .. ▸ ⟨h .op0, h .op1, h .op2⟩

/-! A string voice at the reset event. -/

@[simp] theorem StringVoice.resetEvent_N (v : StringVoice Sample) : v.resetEvent.N = 1 := rfl
@[simp] theorem StringVoice.resetEvent_cur (v : StringVoice Sample) : v.resetEvent.cur = 0 := rfl
@[simp] theorem StringVoice.resetEvent_dl (v : StringVoice Sample) : v.resetEvent.dl = [] := rfl
@[simp] theorem StringVoice.resetEvent_taken (v : StringVoice Sample) : v.resetEvent.taken = v.taken := rfl

/-! The configuration a state carries. -/

/-- Two states with banks of the same sizes and the same parameters carry the same configuration. -/
theorem State.cfg_congr {s t : State} (hfm : t.fm.length = s.fm.length) (hstr : t.str.length = s.str.length)
    (hdenv : t.denv.length = s.denv.length) (hsq : t.sq.length = s.sq.length) (hnz : t.nz.length = s.nz.length)
    (hpar : t.par = s.par) : t.cfg = s.cfg := by
  simp [State.cfg, hfm, hstr, hdenv, hsq, hnz, hpar]

@[simp] theorem State.cfg_nv (s : State) : s.cfg.nv = s.fm.length := rfl
@[simp] theorem State.cfg_ns (s : State) : s.cfg.ns = s.str.length := rfl
@[simp] theorem State.cfg_nd (s : State) : s.cfg.nd = s.denv.length := rfl
@[simp] theorem State.cfg_nq (s : State) : s.cfg.nq = s.sq.length := rfl
@[simp] theorem State.cfg_nn (s : State) : s.cfg.nn = s.nz.length := rfl
@[simp] theorem State.cfg_par (s : State) : s.cfg.par = s.par := rfl

@[simp] theorem State.withResult_cfg (s : State) (r : Result Sample) : (s.withResult r).cfg = s.cfg := rfl
@[simp] theorem State.withCmds_cfg (s : State) (ws : List CmdWord) : (s.withCmds ws).cfg = s.cfg := rfl
@[simp] theorem State.ignore_cfg (s : State) : s.ignore.cfg = s.cfg := rfl

/-- The reset state of an instance carries that instance. -/
@[simp] theorem State.resetOf_cfg (c : Cfg) : (State.resetOf c).cfg = c := by
  simp [State.cfg, State.resetOf]

@[simp] theorem State.withResult_readLoc (s : State) (r : Result Sample) (loc : Loc) :
    (s.withResult r).readLoc loc = s.readLoc loc := by
  cases loc <;> rfl

@[simp] theorem State.withCmds_readLoc (s : State) (ws : List CmdWord) (loc : Loc) :
    (s.withCmds ws).readLoc loc = s.readLoc loc := by
  cases loc <;> rfl

@[simp] theorem State.ignore_readLoc (s : State) (loc : Loc) : s.ignore.readLoc loc = s.readLoc loc := by
  cases loc <;> rfl

end Sys2Proof.Machine
end

