-- ==== Sys2Proof/Laws/Ops.lean ====
section
/-! SUPPORT. What the shared operations can do: the shape of a meaning, one unit of a bank stepped, and how every location
reads after a bank is replaced. -/

namespace Sys2Proof.Machine

variable {S : Type}

/-- Everything the shape of a meaning can do: the effect when the command is legal, nothing when it is not. -/
theorem perform_cases {i : Instr} {s t : State} {effect : State → State} (h : perform i s effect = .next t) :
    (legal s.cfg i = true ∧ t = effect s) ∨ (legal s.cfg i = false ∧ t = s.ignore) := by
  unfold perform at h
  injection h with h
  cases hl : legal s.cfg i
  · exact .inr ⟨rfl, by simpa [hl] using h.symm⟩
  · exact .inl ⟨rfl, by simpa [hl] using h.symm⟩

/-- A legal command has its effect. -/
theorem perform_legal {i : Instr} {s : State} {effect : State → State} (h : legal s.cfg i = true) :
    perform i s effect = .next (effect s) := by
  simp [perform, h]

/-- An illegal command is ignored. -/
theorem perform_illegal {i : Instr} {s : State} {effect : State → State} (h : legal s.cfg i = false) :
    perform i s effect = .next s.ignore := by
  simp [perform, h]

/-- The unit an existing index names. -/
theorem exists_unit {α : Type} {xs : List α} {i : UnitIx} (h : i.toNat < xs.length) :
    ∃ x, xs[i.toNat]? = some x := ⟨xs[i.toNat], by simp [h]⟩

/-- A unit that is there has an index below the count. -/
theorem unit_lt {α : Type} {xs : List α} {i : UnitIx} {x : α} (h : xs[i.toNat]? = some x) : i.toNat < xs.length := by
  by_contra hn
  simp [List.getElem?_eq_none (Nat.le_of_not_lt hn)] at h

/-- Everything stepping one unit of a bank can do: the unit there is put back stepped and its result presented, or the
state is as an illegal command leaves it. -/
theorem State.onUnit_cases {α : Type} (s : State) (xs : List α) (put : State → List α → State) (i : UnitIx)
    (f : α → α × Result Sample) :
    (∃ x, xs[i.toNat]? = some x ∧ s.onUnit xs put i f = (put s (xs.set i.toNat (f x).1)).withResult (f x).2) ∨
      (xs[i.toNat]? = none ∧ s.onUnit xs put i f = s.ignore) := by
  unfold State.onUnit
  split
  · next x h => exact .inl ⟨x, h, rfl⟩
  · next h => exact .inr ⟨h, rfl⟩

theorem State.onUnit_some {α : Type} {s : State} {xs : List α} {put : State → List α → State} {i : UnitIx}
    {f : α → α × Result Sample} {x : α} (h : xs[i.toNat]? = some x) :
    s.onUnit xs put i f = (put s (xs.set i.toNat (f x).1)).withResult (f x).2 := by
  simp [State.onUnit, h]

theorem State.onVoice_some {s : State} {v : UnitIx} {f : FmVoice Sample → FmVoice Sample × Result Sample} {x : FmVoice Sample}
    (h : s.fm[v.toNat]? = some x) :
    s.onVoice v f = (s.withFm (s.fm.set v.toNat (f x).1)).withResult (f x).2 :=
  State.onUnit_some h

theorem State.onString_some {s : State} {i : UnitIx} {f : StringVoice Sample → StringVoice Sample × Result Sample} {x : StringVoice Sample}
    (h : s.str[i.toNat]? = some x) :
    s.onString i f = (s.withStr (s.str.set i.toNat (f x).1)).withResult (f x).2 :=
  State.onUnit_some h

theorem State.onDenv_some {s : State} {d : UnitIx} {f : Denv Sample → Denv Sample × Result Sample} {x : Denv Sample}
    (h : s.denv[d.toNat]? = some x) :
    s.onDenv d f = (s.withDenv (s.denv.set d.toNat (f x).1)).withResult (f x).2 :=
  State.onUnit_some h

theorem State.onSquare_some {s : State} {q : UnitIx} {f : Square → Square × Result Sample} {x : Square}
    (h : s.sq[q.toNat]? = some x) :
    s.onSquare q f = (s.withSq (s.sq.set q.toNat (f x).1)).withResult (f x).2 :=
  State.onUnit_some h

theorem State.onNoise_some {s : State} {n : UnitIx} {f : Noise → Noise × Result Sample} {x : Noise}
    (h : s.nz[n.toNat]? = some x) :
    s.onNoise n f = (s.withNz (s.nz.set n.toNat (f x).1)).withResult (f x).2 :=
  State.onUnit_some h

/-- Reading a bank with one unit replaced. -/
theorem getElem?_set_unit {α : Type} {xs : List α} {i : UnitIx} (x : α) (h : i.toNat < xs.length) (j : UnitIx) :
    (xs.set i.toNat x)[j.toNat]? = if j = i then some x else xs[j.toNat]? := by
  rw [List.getElem?_set]
  by_cases hj : j = i
  · simp [hj, h]
  · have : i.toNat ≠ j.toNat := fun hn => hj (BitVec.eq_of_toNat_eq hn.symm)
    simp [hj, this]

@[simp] theorem State.withFm_readLoc_str (s : State) (xs : List (FmVoice Sample)) (i : UnitIx) (r : StrReg) :
    (s.withFm xs).readLoc (.str i r) = s.readLoc (.str i r) := rfl
@[simp] theorem State.withFm_readLoc_denv (s : State) (xs : List (FmVoice Sample)) (d : UnitIx) (r : DenvReg) :
    (s.withFm xs).readLoc (.denv d r) = s.readLoc (.denv d r) := rfl
@[simp] theorem State.withFm_readLoc_sq (s : State) (xs : List (FmVoice Sample)) (q : UnitIx) (r : SqReg) :
    (s.withFm xs).readLoc (.sq q r) = s.readLoc (.sq q r) := rfl
@[simp] theorem State.withFm_readLoc_nz (s : State) (xs : List (FmVoice Sample)) (n : UnitIx) (r : NzReg) :
    (s.withFm xs).readLoc (.nz n r) = s.readLoc (.nz n r) := rfl
@[simp] theorem State.withFm_readLoc_dl (s : State) (xs : List (FmVoice Sample)) (i : UnitIx) (a : Word32) :
    (s.withFm xs).readLoc (.dl i a) = s.readLoc (.dl i a) := rfl

@[simp] theorem State.withStr_readLoc_env (s : State) (xs : List (StringVoice Sample)) (v : UnitIx) (k : OpIx) (r : EnvReg) :
    (s.withStr xs).readLoc (.env v k r) = s.readLoc (.env v k r) := rfl
@[simp] theorem State.withStr_readLoc_osc (s : State) (xs : List (StringVoice Sample)) (v : UnitIx) (k : OpIx) (r : OscReg) :
    (s.withStr xs).readLoc (.osc v k r) = s.readLoc (.osc v k r) := rfl
@[simp] theorem State.withStr_readLoc_denv (s : State) (xs : List (StringVoice Sample)) (d : UnitIx) (r : DenvReg) :
    (s.withStr xs).readLoc (.denv d r) = s.readLoc (.denv d r) := rfl
@[simp] theorem State.withStr_readLoc_sq (s : State) (xs : List (StringVoice Sample)) (q : UnitIx) (r : SqReg) :
    (s.withStr xs).readLoc (.sq q r) = s.readLoc (.sq q r) := rfl
@[simp] theorem State.withStr_readLoc_nz (s : State) (xs : List (StringVoice Sample)) (n : UnitIx) (r : NzReg) :
    (s.withStr xs).readLoc (.nz n r) = s.readLoc (.nz n r) := rfl

@[simp] theorem State.withDenv_readLoc_env (s : State) (xs : List (Denv Sample)) (v : UnitIx) (k : OpIx) (r : EnvReg) :
    (s.withDenv xs).readLoc (.env v k r) = s.readLoc (.env v k r) := rfl
@[simp] theorem State.withDenv_readLoc_osc (s : State) (xs : List (Denv Sample)) (v : UnitIx) (k : OpIx) (r : OscReg) :
    (s.withDenv xs).readLoc (.osc v k r) = s.readLoc (.osc v k r) := rfl
@[simp] theorem State.withDenv_readLoc_str (s : State) (xs : List (Denv Sample)) (i : UnitIx) (r : StrReg) :
    (s.withDenv xs).readLoc (.str i r) = s.readLoc (.str i r) := rfl
@[simp] theorem State.withDenv_readLoc_sq (s : State) (xs : List (Denv Sample)) (q : UnitIx) (r : SqReg) :
    (s.withDenv xs).readLoc (.sq q r) = s.readLoc (.sq q r) := rfl
@[simp] theorem State.withDenv_readLoc_nz (s : State) (xs : List (Denv Sample)) (n : UnitIx) (r : NzReg) :
    (s.withDenv xs).readLoc (.nz n r) = s.readLoc (.nz n r) := rfl
@[simp] theorem State.withDenv_readLoc_dl (s : State) (xs : List (Denv Sample)) (i : UnitIx) (a : Word32) :
    (s.withDenv xs).readLoc (.dl i a) = s.readLoc (.dl i a) := rfl

@[simp] theorem State.withSq_readLoc_env (s : State) (xs : List Square) (v : UnitIx) (k : OpIx) (r : EnvReg) :
    (s.withSq xs).readLoc (.env v k r) = s.readLoc (.env v k r) := rfl
@[simp] theorem State.withSq_readLoc_osc (s : State) (xs : List Square) (v : UnitIx) (k : OpIx) (r : OscReg) :
    (s.withSq xs).readLoc (.osc v k r) = s.readLoc (.osc v k r) := rfl
@[simp] theorem State.withSq_readLoc_str (s : State) (xs : List Square) (i : UnitIx) (r : StrReg) :
    (s.withSq xs).readLoc (.str i r) = s.readLoc (.str i r) := rfl
@[simp] theorem State.withSq_readLoc_denv (s : State) (xs : List Square) (d : UnitIx) (r : DenvReg) :
    (s.withSq xs).readLoc (.denv d r) = s.readLoc (.denv d r) := rfl
@[simp] theorem State.withSq_readLoc_nz (s : State) (xs : List Square) (n : UnitIx) (r : NzReg) :
    (s.withSq xs).readLoc (.nz n r) = s.readLoc (.nz n r) := rfl
@[simp] theorem State.withSq_readLoc_dl (s : State) (xs : List Square) (i : UnitIx) (a : Word32) :
    (s.withSq xs).readLoc (.dl i a) = s.readLoc (.dl i a) := rfl

@[simp] theorem State.withNz_readLoc_env (s : State) (xs : List Noise) (v : UnitIx) (k : OpIx) (r : EnvReg) :
    (s.withNz xs).readLoc (.env v k r) = s.readLoc (.env v k r) := rfl
@[simp] theorem State.withNz_readLoc_osc (s : State) (xs : List Noise) (v : UnitIx) (k : OpIx) (r : OscReg) :
    (s.withNz xs).readLoc (.osc v k r) = s.readLoc (.osc v k r) := rfl
@[simp] theorem State.withNz_readLoc_str (s : State) (xs : List Noise) (i : UnitIx) (r : StrReg) :
    (s.withNz xs).readLoc (.str i r) = s.readLoc (.str i r) := rfl
@[simp] theorem State.withNz_readLoc_denv (s : State) (xs : List Noise) (d : UnitIx) (r : DenvReg) :
    (s.withNz xs).readLoc (.denv d r) = s.readLoc (.denv d r) := rfl
@[simp] theorem State.withNz_readLoc_sq (s : State) (xs : List Noise) (q : UnitIx) (r : SqReg) :
    (s.withNz xs).readLoc (.sq q r) = s.readLoc (.sq q r) := rfl
@[simp] theorem State.withNz_readLoc_dl (s : State) (xs : List Noise) (i : UnitIx) (a : Word32) :
    (s.withNz xs).readLoc (.dl i a) = s.readLoc (.dl i a) := rfl

/-- How `env` locations read after one unit of their bank is replaced. -/
theorem State.readLoc_set_env {s : State} {i : UnitIx} (x : FmVoice Sample) (h : i.toNat < s.fm.length) (j : UnitIx) (k : OpIx) (r : EnvReg) :
    (s.withFm (s.fm.set i.toNat x)).readLoc (.env j k r) =
      if j = i then envRegResult (x.op k).env r else s.readLoc (.env j k r) := by
  simp only [State.readLoc, State.withFm_fm, getElem?_set_unit x h j]
  by_cases hj : j = i <;> simp only [hj, if_true, if_false]

theorem State.readLoc_env_of {s : State} {i : UnitIx} {x : FmVoice Sample} (h : s.fm[i.toNat]? = some x) (k : OpIx) (r : EnvReg) :
    s.readLoc (.env i k r) = envRegResult (x.op k).env r := by
  simp [State.readLoc, h]

/-- How `osc` locations read after one unit of their bank is replaced. -/
theorem State.readLoc_set_osc {s : State} {i : UnitIx} (x : FmVoice Sample) (h : i.toNat < s.fm.length) (j : UnitIx) (k : OpIx) (r : OscReg) :
    (s.withFm (s.fm.set i.toNat x)).readLoc (.osc j k r) =
      if j = i then oscRegResult k (x.op k).osc r else s.readLoc (.osc j k r) := by
  simp only [State.readLoc, State.withFm_fm, getElem?_set_unit x h j]
  by_cases hj : j = i <;> simp only [hj, if_true, if_false]

theorem State.readLoc_osc_of {s : State} {i : UnitIx} {x : FmVoice Sample} (h : s.fm[i.toNat]? = some x) (k : OpIx) (r : OscReg) :
    s.readLoc (.osc i k r) = oscRegResult k (x.op k).osc r := by
  simp [State.readLoc, h]

/-- How `str` locations read after one unit of their bank is replaced. -/
theorem State.readLoc_set_str {s : State} {i : UnitIx} (x : StringVoice Sample) (h : i.toNat < s.str.length) (j : UnitIx) (r : StrReg) :
    (s.withStr (s.str.set i.toNat x)).readLoc (.str j r) =
      if j = i then strRegResult x r else s.readLoc (.str j r) := by
  simp only [State.readLoc, State.withStr_str, getElem?_set_unit x h j]
  by_cases hj : j = i <;> simp only [hj, if_true, if_false]

theorem State.readLoc_str_of {s : State} {i : UnitIx} {x : StringVoice Sample} (h : s.str[i.toNat]? = some x) (r : StrReg) :
    s.readLoc (.str i r) = strRegResult x r := by
  simp [State.readLoc, h]

/-- How `dl` locations read after one unit of their bank is replaced. -/
theorem State.readLoc_set_dl {s : State} {i : UnitIx} (x : StringVoice Sample) (h : i.toNat < s.str.length) (j : UnitIx) (a : Word32) :
    (s.withStr (s.str.set i.toNat x)).readLoc (.dl j a) =
      if j = i then (if a.toNat < s.par.cap then .sample (Memory.read numF32.zero x.dl a.toNat) else .none) else s.readLoc (.dl j a) := by
  simp only [State.readLoc, State.withStr_str, getElem?_set_unit x h j]
  by_cases hj : j = i <;> simp only [hj, if_true, if_false] <;> rfl

theorem State.readLoc_dl_of {s : State} {i : UnitIx} {x : StringVoice Sample} (h : s.str[i.toNat]? = some x) (a : Word32) :
    s.readLoc (.dl i a) = (if a.toNat < s.par.cap then .sample (Memory.read numF32.zero x.dl a.toNat) else .none) := by
  simp [State.readLoc, h]

/-- How `denv` locations read after one unit of their bank is replaced. -/
theorem State.readLoc_set_denv {s : State} {i : UnitIx} (x : Denv Sample) (h : i.toNat < s.denv.length) (j : UnitIx) (r : DenvReg) :
    (s.withDenv (s.denv.set i.toNat x)).readLoc (.denv j r) =
      if j = i then denvRegResult x r else s.readLoc (.denv j r) := by
  simp only [State.readLoc, State.withDenv_denv, getElem?_set_unit x h j]
  by_cases hj : j = i <;> simp only [hj, if_true, if_false]

theorem State.readLoc_denv_of {s : State} {i : UnitIx} {x : Denv Sample} (h : s.denv[i.toNat]? = some x) (r : DenvReg) :
    s.readLoc (.denv i r) = denvRegResult x r := by
  simp [State.readLoc, h]

/-- How `sq` locations read after one unit of their bank is replaced. -/
theorem State.readLoc_set_sq {s : State} {i : UnitIx} (x : Square) (h : i.toNat < s.sq.length) (j : UnitIx) (r : SqReg) :
    (s.withSq (s.sq.set i.toNat x)).readLoc (.sq j r) =
      if j = i then sqRegResult x r else s.readLoc (.sq j r) := by
  simp only [State.readLoc, State.withSq_sq, getElem?_set_unit x h j]
  by_cases hj : j = i <;> simp only [hj, if_true, if_false]

theorem State.readLoc_sq_of {s : State} {i : UnitIx} {x : Square} (h : s.sq[i.toNat]? = some x) (r : SqReg) :
    s.readLoc (.sq i r) = sqRegResult x r := by
  simp [State.readLoc, h]

/-- How `nz` locations read after one unit of their bank is replaced. -/
theorem State.readLoc_set_nz {s : State} {i : UnitIx} (x : Noise) (h : i.toNat < s.nz.length) (j : UnitIx) (r : NzReg) :
    (s.withNz (s.nz.set i.toNat x)).readLoc (.nz j r) =
      if j = i then nzRegResult x r else s.readLoc (.nz j r) := by
  simp only [State.readLoc, State.withNz_nz, getElem?_set_unit x h j]
  by_cases hj : j = i <;> simp only [hj, if_true, if_false]

theorem State.readLoc_nz_of {s : State} {i : UnitIx} {x : Noise} (h : s.nz[i.toNat]? = some x) (r : NzReg) :
    s.readLoc (.nz i r) = nzRegResult x r := by
  simp [State.readLoc, h]

/-- One unit of a bank replaced: the configuration is the same. -/
theorem State.withFm_set_cfg (s : State) (i : Nat) (x : FmVoice Sample) : (s.withFm (s.fm.set i x)).cfg = s.cfg :=
  State.cfg_congr (by simp) rfl rfl rfl rfl rfl

theorem State.withStr_set_cfg (s : State) (i : Nat) (x : StringVoice Sample) : (s.withStr (s.str.set i x)).cfg = s.cfg :=
  State.cfg_congr rfl (by simp) rfl rfl rfl rfl

theorem State.withDenv_set_cfg (s : State) (i : Nat) (x : Denv Sample) : (s.withDenv (s.denv.set i x)).cfg = s.cfg :=
  State.cfg_congr rfl rfl (by simp) rfl rfl rfl

theorem State.withSq_set_cfg (s : State) (i : Nat) (x : Square) : (s.withSq (s.sq.set i x)).cfg = s.cfg :=
  State.cfg_congr rfl rfl rfl (by simp) rfl rfl

theorem State.withNz_set_cfg (s : State) (i : Nat) (x : Noise) : (s.withNz (s.nz.set i x)).cfg = s.cfg :=
  State.cfg_congr rfl rfl rfl rfl (by simp) rfl

/-- A predicate on every unit of a bank survives replacing one unit by another that has it. -/
theorem forall_mem_set {α : Type} {p : α → Prop} {xs : List α} (i : Nat) {x : α} (hx : p x) (h : ∀ y ∈ xs, p y) :
    ∀ y ∈ xs.set i x, p y := by
  intro y hy
  rcases List.mem_or_eq_of_mem_set hy with hy | rfl
  · exact h y hy
  · exact hx

/-! The transition table. -/

/-- Every entry of the ROM is one of -1, 0, 1, 2, 3 in its stored encoding (10_state R31). -/
theorem ttRom_entries (dir : Direction) : ∀ e ∈ ttRom dir, e = 7#3 ∨ e.toNat < 4 := by
  cases dir <;> decide

/-- Each row has 16 entries, so every flag value has one. -/
theorem ttRom_length (dir : Direction) : (ttRom dir).length = 16 := by
  cases dir <;> rfl

end Sys2Proof.Machine
end

