-- ==== Sys2Proof/Laws/Exec.lean ====
section
/-! SUPPORT. What `exec` is for each command, in the one shape of `perform`. -/

namespace Sys2Proof.Machine

theorem exec_rd (loc : Loc) (s : State) :
    exec (.rd loc) s =
      perform (.rd loc) s fun s => s.withResult (s.readLoc loc) := rfl

theorem exec_wr (loc : Loc) (value : Word32) (s : State) :
    exec (.wr loc value) s =
      perform (.wr loc value) s fun s => s.writeLoc loc value := rfl

theorem exec_envSet (v : UnitIx) (k : OpIx) (gate : Bool) (s : State) :
    exec (.envSet v k gate) s =
      perform (.envSet v k gate) s fun s =>
        s.onVoice v fun x => (x.setEnv k (envSet numF32 gate (x.op k).env), .none) := rfl

theorem exec_envUpd (v : UnitIx) (k : OpIx) (dt : Word32) (s : State) :
    exec (.envUpd v k dt) s =
      perform (.envUpd v k dt) s fun s =>
        s.onVoice v fun x => (x.setEnv k (envUpd numF32 (numF32.ofF32 dt) (x.op k).env), .none) := rfl

theorem exec_envOut (v : UnitIx) (k : OpIx) (s : State) :
    exec (.envOut v k) s =
      perform (.envOut v k) s fun s => s.onVoice v fun x => (x, .sample (x.op k).env.out) := rfl

theorem exec_oscSetF (v : UnitIx) (k : OpIx) (f : Word32) (s : State) :
    exec (.oscSetF v k f) s =
      perform (.oscSetF v k f) s fun s =>
        s.onVoice v fun x => (x.setOsc k (oscSetF numF32 (numF32.ofF32 f) (x.op k).osc), .none) := rfl

theorem exec_oscUpd (v : UnitIx) (k : OpIx) (dt : Word32) (s : State) :
    exec (.oscUpd v k dt) s =
      perform (.oscUpd v k dt) s fun s =>
        s.onVoice v fun x => (oscUpd numF32 k (numF32.ofF32 dt) x, .none) := rfl

theorem exec_oscOut (v : UnitIx) (k : OpIx) (s : State) :
    exec (.oscOut v k) s =
      perform (.oscOut v k) s fun s => s.onVoice v fun x => (x, .sample (oscOut numF32 (x.op k).osc)) := rfl

theorem exec_fmNoteOn (v : UnitIx) (f : Word32) (s : State) :
    exec (.fmNoteOn v f) s =
      perform (.fmNoteOn v f) s fun s =>
        s.onVoice v fun x => (fmNoteOn numF32 (numF32.ofF32 f) x, .none) := rfl

theorem exec_fmNoteOff (v : UnitIx) (s : State) :
    exec (.fmNoteOff v) s =
      perform (.fmNoteOff v) s fun s => s.onVoice v fun x => (fmNoteOff numF32 x, .none) := rfl

theorem exec_fmTick (v : UnitIx) (dt : Word32) (s : State) :
    exec (.fmTick v dt) s =
      perform (.fmTick v dt) s fun s =>
        s.onVoice v fun x =>
          let (y, sample) := fmTick numF32 (numF32.ofF32 dt) x
          (y, .sample sample) := rfl

theorem exec_strNoteOn (i : UnitIx) (f : Word32) (s : State) :
    exec (.strNoteOn i f) s =
      perform (.strNoteOn i f) s fun s =>
        s.onString i fun x => (strNoteOn numF32 s.par (x.draw i) (numF32.ofF32 f) x, .none) := rfl

theorem exec_strNoteOff (i : UnitIx) (s : State) :
    exec (.strNoteOff i) s =
      perform (.strNoteOff i) s fun s => s.withResult .none := rfl

theorem exec_strTick (i : UnitIx) (ignored : Word32) (s : State) :
    exec (.strTick i ignored) s =
      perform (.strTick i ignored) s fun s =>
        s.onString i fun x =>
          let (y, sample) := strTick numF32 s.par x
          (y, .sample sample) := rfl

theorem exec_denvSetFlags (d : UnitIx) (flags : Word32) (s : State) :
    exec (.denvSetFlags d flags) s =
      perform (.denvSetFlags d flags) s fun s => s.onDenv d fun g => (denvSetFlags flags g, .none) := rfl

theorem exec_denvTick (d : UnitIx) (s : State) :
    exec (.denvTick d) s =
      perform (.denvTick d) s fun s =>
        s.onDenv d fun g => (denvTick numF32 g, .sample (denvTick numF32 g).out) := rfl

theorem exec_sqTick (q : UnitIx) (s : State) :
    exec (.sqTick q) s =
      perform (.sqTick q) s fun s =>
        s.onSquare q fun g => (sqTick g, .word ((sqTick g).out.setWidth 32)) := rfl

theorem exec_nzTick (n : UnitIx) (s : State) :
    exec (.nzTick n) s =
      perform (.nzTick n) s fun s =>
        s.onNoise n fun g => (nzTick g, .word ((nzTick g).out.setWidth 32)) := rfl

theorem exec_bankTick (dt : Word32) (s : State) :
    exec (.bankTick dt) s =
      perform (.bankTick dt) s fun s =>
        let (voices, total) := bankTick numF32 (numF32.ofF32 dt) s.fm numF32.zero
        (s.withFm voices).withResult (.sample total) := rfl

/-- Every command either has an effect, when legal, or is ignored (R103, R206). -/
theorem exec_cases (i : Instr) (s : State) : ∃ effect : State → State, exec i s = perform i s effect := by
  cases i with
  | rd => exact ⟨_, exec_rd _ _⟩
  | wr => exact ⟨_, exec_wr _ _ _⟩
  | envSet => exact ⟨_, exec_envSet _ _ _ _⟩
  | envUpd => exact ⟨_, exec_envUpd _ _ _ _⟩
  | envOut => exact ⟨_, exec_envOut _ _ _⟩
  | oscSetF => exact ⟨_, exec_oscSetF _ _ _ _⟩
  | oscUpd => exact ⟨_, exec_oscUpd _ _ _ _⟩
  | oscOut => exact ⟨_, exec_oscOut _ _ _⟩
  | fmNoteOn => exact ⟨_, exec_fmNoteOn _ _ _⟩
  | fmNoteOff => exact ⟨_, exec_fmNoteOff _ _⟩
  | fmTick => exact ⟨_, exec_fmTick _ _ _⟩
  | strNoteOn => exact ⟨_, exec_strNoteOn _ _ _⟩
  | strNoteOff => exact ⟨_, exec_strNoteOff _ _⟩
  | strTick => exact ⟨_, exec_strTick _ _ _⟩
  | denvSetFlags => exact ⟨_, exec_denvSetFlags _ _ _⟩
  | denvTick => exact ⟨_, exec_denvTick _ _⟩
  | sqTick => exact ⟨_, exec_sqTick _ _⟩
  | nzTick => exact ⟨_, exec_nzTick _ _⟩
  | bankTick => exact ⟨_, exec_bankTick _ _⟩

/-- An illegal command is ignored. -/
theorem exec_illegal {i : Instr} {s : State} (h : legal s.cfg i = false) : exec i s = .next s.ignore := by
  obtain ⟨effect, he⟩ := exec_cases i s
  rw [he, perform_illegal h]

end Sys2Proof.Machine
end

