-- ==== Sys2Proof/Laws/Float32.lean ====
section
/-! SUPPORT. Small facts of the binary32 operations, and the operations of `numF32` by name. -/

namespace Sys2Proof.Machine

@[simp] theorem numF32_add : numF32.add = F32.add := rfl
@[simp] theorem numF32_sub : numF32.sub = F32.sub := rfl
@[simp] theorem numF32_mul : numF32.mul = F32.mul := rfl
@[simp] theorem numF32_div : numF32.div = F32.div := rfl
@[simp] theorem numF32_sin : numF32.sin = Config.sin32 := rfl
@[simp] theorem numF32_lt : numF32.lt = F32.lt := rfl
@[simp] theorem numF32_le : numF32.le = F32.le := rfl
@[simp] theorem numF32_ofNat : numF32.ofNat = F32.ofNat := rfl
@[simp] theorem numF32_rnd : numF32.rnd = F32.rnd := rfl
@[simp] theorem numF32_twoPi : numF32.twoPi = Config.twoPi := rfl
@[simp] theorem numF32_ofF32 (w : Word32) : numF32.ofF32 w = w := rfl
@[simp] theorem numF32_toF32 (x : Sample) : numF32.toF32 x = x := rfl

/-- The constants of the rules as binary32 patterns. -/
@[simp] theorem numF32_zero : numF32.zero = 0#32 := by decide +kernel
@[simp] theorem numF32_one : numF32.one = 0x3F800000#32 := by decide +kernel
@[simp] theorem numF32_two : numF32.two = 0x40000000#32 := by decide +kernel
@[simp] theorem numF32_four : numF32.four = 0x40800000#32 := by decide +kernel
@[simp] theorem numF32_half : numF32.half = 0x3F000000#32 := by decide +kernel

/-- A generated NaN is a NaN, whatever the free value proposes. -/
theorem F32.isNan_nan (src : NanSource) (x y : Sample) : F32.isNan (F32.nan src x y) = true := by
  unfold F32.nan
  by_cases h : F32.isNan (Config.freeNan src x y) = true
  · simp [h]
  · rw [if_neg h]
    decide

theorem F32.isNan_of_isFinite {x : Sample} (h : F32.isFinite x = true) : F32.isNan x = false := by
  simp only [F32.isFinite, bne_iff_ne, ne_eq] at h
  simp [F32.isNan, h]

theorem F32.isInf_of_isFinite {x : Sample} (h : F32.isFinite x = true) : F32.isInf x = false := by
  simp only [F32.isFinite, bne_iff_ne, ne_eq] at h
  simp [F32.isInf, h]

/-- The free excitation draws lie in the interval of 43_string_voice R141. -/
theorem drawAt_mem (i j : Nat) :
    F32.le 0xBF800000#32 (drawAt i j) = true ∧ F32.le (drawAt i j) 0x3F800000#32 = true := by
  unfold drawAt
  by_cases h : (F32.le 0xBF800000#32 (Config.freeDraw i j) && F32.le (Config.freeDraw i j) 0x3F800000#32) = true
  · simp only [h, if_true]
    simpa using h
  · simp only [h, Bool.false_eq_true, if_false]
    decide

/-- A packed pattern of 31 bits has the sign and the magnitude bits it was packed from. -/
theorem F32.toNat_pack (s : Bool) {b : Nat} (h : b < 2 ^ 31) :
    (F32.pack s b).toNat = (if s then 2 ^ 31 else 0) + b := by
  unfold F32.pack
  rw [BitVec.toNat_ofNat]
  apply Nat.mod_eq_of_lt
  split <;> omega

theorem F32.roundBits_le (n d : Nat) : F32.roundBits n d ≤ 0x7F800000 := Nat.min_le_right _ _

/-- The word before word `i` of a buffer is in the buffer. -/
theorem prevIndex_lt {i n : Nat} (h : 1 ≤ n) : prevIndex i n < n := Nat.mod_lt _ h

theorem prevIndex_zero {n : Nat} (h : 1 ≤ n) : prevIndex 0 n = n - 1 := by
  unfold prevIndex
  rw [Nat.zero_add, Nat.mod_eq_of_lt (by omega)]

theorem prevIndex_succ {i n : Nat} (h : i + 1 < n) : prevIndex (i + 1) n = i := by
  unfold prevIndex
  rw [show i + 1 + (n - 1) = i + n by omega, Nat.add_mod_right, Nat.mod_eq_of_lt (by omega)]

end Sys2Proof.Machine
end

