-- ==== Sys2Proof/Laws/Frames.lean ====
section
/-! SUPPORT. The frame of replacing one unit of a bank: what reads as before is what reads as before in that one unit. -/

namespace Sys2Proof.Machine

/-- Putting a unit back as it was changes nothing. -/
theorem set_unit_self {α : Type} {xs : List α} {i : UnitIx} {x : α} (h : xs[i.toNat]? = some x) :
    xs.set i.toNat x = xs := by
  apply List.ext_getElem?
  intro j
  rw [List.getElem?_set]
  split
  · next hj => subst hj; rw [if_pos (unit_lt h), h]
  · rfl

theorem State.OnlyChanges_refl (s : State) (r : Result Sample) (W : Loc → Prop) : s.OnlyChanges (s.withResult r) W :=
  ⟨rfl, rfl, fun _ _ => rfl⟩

theorem State.OnlyChanges_mono {s t : State} {V W : Loc → Prop} (h : s.OnlyChanges t V) (hvw : ∀ loc, V loc → W loc) :
    s.OnlyChanges t W :=
  ⟨h.1, h.2.1, fun loc hw => h.2.2 loc fun hv => hw (hvw loc hv)⟩

theorem State.OnlyChanges_voice {s : State} {v : UnitIx} {x y : FmVoice Sample} {r : Result Sample}
    (h : s.fm[v.toNat]? = some x) (W : Loc → Prop)
    (he : ∀ k g, ¬ W (.env v k g) → envRegResult (y.op k).env g = envRegResult (x.op k).env g)
    (ho : ∀ k g, ¬ W (.osc v k g) → oscRegResult k (y.op k).osc g = oscRegResult k (x.op k).osc g) :
    s.OnlyChanges ((s.withFm (s.fm.set v.toNat y)).withResult r) W := by
  have hl := unit_lt h
  refine ⟨State.withFm_set_cfg s _ y, rfl, ?_⟩
  intro loc hw
  cases loc with
  | env j k g =>
    rw [State.withResult_readLoc, State.readLoc_set_env _ hl]
    split
    · next hj => subst hj; rw [he _ _ hw, State.readLoc_env_of h]
    · rfl
  | osc j k g =>
    rw [State.withResult_readLoc, State.readLoc_set_osc _ hl]
    split
    · next hj => subst hj; rw [ho _ _ hw, State.readLoc_osc_of h]
    · rfl
  | _ => rfl

theorem State.OnlyChanges_string {s : State} {i : UnitIx} {x y : StringVoice Sample} {r : Result Sample}
    (h : s.str[i.toNat]? = some x) (W : Loc → Prop)
    (he : ∀ g, ¬ W (.str i g) → strRegResult (S := Sample) y g = strRegResult x g)
    (hd : ∀ a : Word32, ¬ W (.dl i a) → a.toNat < s.par.cap →
      Memory.read numF32.zero y.dl a.toNat = Memory.read numF32.zero x.dl a.toNat) :
    s.OnlyChanges ((s.withStr (s.str.set i.toNat y)).withResult r) W := by
  have hl := unit_lt h
  refine ⟨State.withStr_set_cfg s _ y, rfl, ?_⟩
  intro loc hw
  cases loc with
  | str j g =>
    rw [State.withResult_readLoc, State.readLoc_set_str _ hl]
    split
    · next hj => subst hj; rw [he _ hw, State.readLoc_str_of h]
    · rfl
  | dl j a =>
    rw [State.withResult_readLoc, State.readLoc_set_dl _ hl]
    split
    · next hj =>
      subst hj
      rw [State.readLoc_dl_of h]
      split
      · next ha => rw [hd _ hw ha]
      · rfl
    · rfl
  | _ => rfl

theorem State.OnlyChanges_denv {s : State} {d : UnitIx} {x y : Denv Sample} {r : Result Sample}
    (h : s.denv[d.toNat]? = some x) (W : Loc → Prop)
    (he : ∀ g, ¬ W (.denv d g) → denvRegResult y g = denvRegResult x g) :
    s.OnlyChanges ((s.withDenv (s.denv.set d.toNat y)).withResult r) W := by
  have hl := unit_lt h
  refine ⟨State.withDenv_set_cfg s _ y, rfl, ?_⟩
  intro loc hw
  cases loc with
  | denv j g =>
    rw [State.withResult_readLoc, State.readLoc_set_denv _ hl]
    split
    · next hj => subst hj; rw [he _ hw, State.readLoc_denv_of h]
    · rfl
  | _ => rfl

theorem State.OnlyChanges_square {s : State} {q : UnitIx} {x y : Square} {r : Result Sample}
    (h : s.sq[q.toNat]? = some x) (W : Loc → Prop)
    (he : ∀ g, ¬ W (.sq q g) → sqRegResult (S := Sample) y g = sqRegResult x g) :
    s.OnlyChanges ((s.withSq (s.sq.set q.toNat y)).withResult r) W := by
  have hl := unit_lt h
  refine ⟨State.withSq_set_cfg s _ y, rfl, ?_⟩
  intro loc hw
  cases loc with
  | sq j g =>
    rw [State.withResult_readLoc, State.readLoc_set_sq _ hl]
    split
    · next hj => subst hj; rw [he _ hw, State.readLoc_sq_of h]
    · rfl
  | _ => rfl

theorem State.OnlyChanges_noise {s : State} {n : UnitIx} {x y : Noise} {r : Result Sample}
    (h : s.nz[n.toNat]? = some x) (W : Loc → Prop)
    (he : ∀ g, ¬ W (.nz n g) → nzRegResult (S := Sample) y g = nzRegResult x g) :
    s.OnlyChanges ((s.withNz (s.nz.set n.toNat y)).withResult r) W := by
  have hl := unit_lt h
  refine ⟨State.withNz_set_cfg s _ y, rfl, ?_⟩
  intro loc hw
  cases loc with
  | nz j g =>
    rw [State.withResult_readLoc, State.readLoc_set_nz _ hl]
    split
    · next hj => subst hj; rw [he _ hw, State.readLoc_nz_of h]
    · rfl
  | _ => rfl

end Sys2Proof.Machine
end

