-- ==== Sys2Proof/Laws/PerInstr.lean ====
section
/-! SUPPORT. The family `RowMatch`, one lemma per command: a command's word has the bits its row of the opcode table fixes
(30_encoding R99). -/

namespace Sys2Proof.Laws.RowMatch

open Sys2Proof Sys2Proof.Machine

/-- `w and mask = match` for the word of a command and its row (R99). -/
def Statement (i : Instr) : Prop := encode i &&& (rowOf i).mask = (rowOf i).pattern

/-- A mask written in fields selects in each field by itself. -/
theorem toWord_and (f g : Fields) :
    f.toWord &&& g.toWord =
      Fields.toWord ⟨f.opcode &&& g.opcode, f.unit &&& g.unit, f.op &&& g.op, f.cls &&& g.cls, f.reg &&& g.reg,
        f.operand &&& g.operand⟩ := by
  apply BitVec.eq_of_getLsbD_eq
  intro i _
  simp only [BitVec.getLsbD_and, Fields.toWord_getLsbD]
  repeat' split
  all_goals rfl

/-- A row whose mask and pattern are given in fields. -/
theorem of_fields {i : Instr} (m p : Fields) (hm : (rowOf i).mask = m.toWord) (hp : (rowOf i).pattern = p.toWord)
    (h : Fields.mk ((encodeFields i).opcode &&& m.opcode) ((encodeFields i).unit &&& m.unit)
      ((encodeFields i).op &&& m.op) ((encodeFields i).cls &&& m.cls) ((encodeFields i).reg &&& m.reg)
      ((encodeFields i).operand &&& m.operand) = p) : Statement i := by
  rw [Statement, hm, hp, encode, toWord_and, h]

theorem rd (loc : Loc) : Statement (.rd loc) := by
  refine of_fields ⟨0xFF#8, 0x00#8, 0x0#4, 0x0#4, 0x00#8, 0x0#32⟩
    ⟨0x01#8, 0x00#8, 0x0#4, 0x0#4, 0x00#8, 0x0#32⟩ rfl rfl ?_
  cases loc <;> simp [encodeFields, accessFields, registerFields]

theorem wr (loc : Loc) (x : Word32) : Statement (.wr loc x) := by
  refine of_fields ⟨0xFF#8, 0x00#8, 0x0#4, 0x0#4, 0x00#8, 0x0#32⟩
    ⟨0x02#8, 0x00#8, 0x0#4, 0x0#4, 0x00#8, 0x0#32⟩ rfl rfl ?_
  cases loc <;> simp [encodeFields, accessFields, registerFields]

theorem envSet (v : UnitIx) (k : OpIx) (g : Bool) : Statement (.envSet v k g) := by
  refine of_fields ⟨0xFF#8, 0x00#8, 0x0#4, 0xF#4, 0xFF#8, 0xFFFFFFFE#32⟩
    ⟨0x10#8, 0x00#8, 0x0#4, 0x0#4, 0x00#8, 0x0#32⟩ rfl rfl ?_
  cases g <;> simp [encodeFields, operatorFields, gateWord]

theorem envUpd (v : UnitIx) (k : OpIx) (x : Word32) : Statement (.envUpd v k x) := by
  refine of_fields ⟨0xFF#8, 0x00#8, 0x0#4, 0xF#4, 0xFF#8, 0x0#32⟩
    ⟨0x11#8, 0x00#8, 0x0#4, 0x0#4, 0x00#8, 0x0#32⟩ rfl rfl ?_
  simp [encodeFields, operatorFields]

theorem envOut (v : UnitIx) (k : OpIx) : Statement (.envOut v k) := by
  refine of_fields ⟨0xFF#8, 0x00#8, 0x0#4, 0xF#4, 0xFF#8, 0xFFFFFFFF#32⟩
    ⟨0x12#8, 0x00#8, 0x0#4, 0x0#4, 0x00#8, 0x0#32⟩ rfl rfl ?_
  simp [encodeFields, operatorFields]

theorem oscSetF (v : UnitIx) (k : OpIx) (x : Word32) : Statement (.oscSetF v k x) := by
  refine of_fields ⟨0xFF#8, 0x00#8, 0x0#4, 0xF#4, 0xFF#8, 0x0#32⟩
    ⟨0x20#8, 0x00#8, 0x0#4, 0x0#4, 0x00#8, 0x0#32⟩ rfl rfl ?_
  simp [encodeFields, operatorFields]

theorem oscUpd (v : UnitIx) (k : OpIx) (x : Word32) : Statement (.oscUpd v k x) := by
  refine of_fields ⟨0xFF#8, 0x00#8, 0x0#4, 0xF#4, 0xFF#8, 0x0#32⟩
    ⟨0x21#8, 0x00#8, 0x0#4, 0x0#4, 0x00#8, 0x0#32⟩ rfl rfl ?_
  simp [encodeFields, operatorFields]

theorem oscOut (v : UnitIx) (k : OpIx) : Statement (.oscOut v k) := by
  refine of_fields ⟨0xFF#8, 0x00#8, 0x0#4, 0xF#4, 0xFF#8, 0xFFFFFFFF#32⟩
    ⟨0x22#8, 0x00#8, 0x0#4, 0x0#4, 0x00#8, 0x0#32⟩ rfl rfl ?_
  simp [encodeFields, operatorFields]

theorem fmNoteOn (u : UnitIx) (x : Word32) : Statement (.fmNoteOn u x) := by
  refine of_fields ⟨0xFF#8, 0x00#8, 0xF#4, 0xF#4, 0xFF#8, 0x0#32⟩
    ⟨0x30#8, 0x00#8, 0x0#4, 0x0#4, 0x00#8, 0x0#32⟩ rfl rfl ?_
  simp [encodeFields, unitFields]

theorem fmNoteOff (u : UnitIx) : Statement (.fmNoteOff u) := by
  refine of_fields ⟨0xFF#8, 0x00#8, 0xF#4, 0xF#4, 0xFF#8, 0xFFFFFFFF#32⟩
    ⟨0x31#8, 0x00#8, 0x0#4, 0x0#4, 0x00#8, 0x0#32⟩ rfl rfl ?_
  simp [encodeFields, unitFields]

theorem fmTick (u : UnitIx) (x : Word32) : Statement (.fmTick u x) := by
  refine of_fields ⟨0xFF#8, 0x00#8, 0xF#4, 0xF#4, 0xFF#8, 0x0#32⟩
    ⟨0x32#8, 0x00#8, 0x0#4, 0x0#4, 0x00#8, 0x0#32⟩ rfl rfl ?_
  simp [encodeFields, unitFields]

theorem strNoteOn (u : UnitIx) (x : Word32) : Statement (.strNoteOn u x) := by
  refine of_fields ⟨0xFF#8, 0x00#8, 0xF#4, 0xF#4, 0xFF#8, 0x0#32⟩
    ⟨0x40#8, 0x00#8, 0x0#4, 0x0#4, 0x00#8, 0x0#32⟩ rfl rfl ?_
  simp [encodeFields, unitFields]

theorem strNoteOff (u : UnitIx) : Statement (.strNoteOff u) := by
  refine of_fields ⟨0xFF#8, 0x00#8, 0xF#4, 0xF#4, 0xFF#8, 0xFFFFFFFF#32⟩
    ⟨0x41#8, 0x00#8, 0x0#4, 0x0#4, 0x00#8, 0x0#32⟩ rfl rfl ?_
  simp [encodeFields, unitFields]

theorem strTick (u : UnitIx) (x : Word32) : Statement (.strTick u x) := by
  refine of_fields ⟨0xFF#8, 0x00#8, 0xF#4, 0xF#4, 0xFF#8, 0x0#32⟩
    ⟨0x42#8, 0x00#8, 0x0#4, 0x0#4, 0x00#8, 0x0#32⟩ rfl rfl ?_
  simp [encodeFields, unitFields]

theorem denvSetFlags (u : UnitIx) (x : Word32) : Statement (.denvSetFlags u x) := by
  refine of_fields ⟨0xFF#8, 0x00#8, 0xF#4, 0xF#4, 0xFF#8, 0x0#32⟩
    ⟨0x50#8, 0x00#8, 0x0#4, 0x0#4, 0x00#8, 0x0#32⟩ rfl rfl ?_
  simp [encodeFields, unitFields]

theorem denvTick (u : UnitIx) : Statement (.denvTick u) := by
  refine of_fields ⟨0xFF#8, 0x00#8, 0xF#4, 0xF#4, 0xFF#8, 0xFFFFFFFF#32⟩
    ⟨0x51#8, 0x00#8, 0x0#4, 0x0#4, 0x00#8, 0x0#32⟩ rfl rfl ?_
  simp [encodeFields, unitFields]

theorem sqTick (u : UnitIx) : Statement (.sqTick u) := by
  refine of_fields ⟨0xFF#8, 0x00#8, 0xF#4, 0xF#4, 0xFF#8, 0xFFFFFFFF#32⟩
    ⟨0x60#8, 0x00#8, 0x0#4, 0x0#4, 0x00#8, 0x0#32⟩ rfl rfl ?_
  simp [encodeFields, unitFields]

theorem nzTick (u : UnitIx) : Statement (.nzTick u) := by
  refine of_fields ⟨0xFF#8, 0x00#8, 0xF#4, 0xF#4, 0xFF#8, 0xFFFFFFFF#32⟩
    ⟨0x61#8, 0x00#8, 0x0#4, 0x0#4, 0x00#8, 0x0#32⟩ rfl rfl ?_
  simp [encodeFields, unitFields]

theorem bankTick (x : Word32) : Statement (.bankTick x) := by
  refine of_fields ⟨0xFF#8, 0xFF#8, 0xF#4, 0xF#4, 0xFF#8, 0x0#32⟩
    ⟨0x70#8, 0x00#8, 0x0#4, 0x0#4, 0x00#8, 0x0#32⟩ rfl rfl ?_
  simp [encodeFields, unitFields]

end Sys2Proof.Laws.RowMatch
end

