-- ==== Sys2Proof/Laws/Real.lean ====
section
/-! SUPPORT. `NUM_REAL` away from its free values. -/

namespace Sys2Proof.Machine

/-- A quotient of `NUM_REAL` by a divisor other than 0 is the exact one. -/
theorem numReal_div {a b : ℝ} (h : b ≠ 0) : numReal.div a b = a / b := if_neg h

/-- The value of a finite word, as its fields give it. -/
theorem realOfF32_of_isFinite {w : Word32} (h : F32.isFinite w = true) :
    realOfF32 w =
      (let e : Nat := w.toNat / 2 ^ 23 % 2 ^ 8
       let f : Nat := w.toNat % 2 ^ 23
       let a : ℝ := if e = 0 then f * 2 ^ (-149 : ℤ) else (2 ^ 23 + f) * 2 ^ ((e : ℤ) - 150)
       if w.msb then -a else a) := by
  have he : w.toNat / 2 ^ 23 % 2 ^ 8 ≠ 255 := by
    simpa [F32.isFinite, F32.expField] using h
  simp only [realOfF32, if_neg he]

end Sys2Proof.Machine
end

