-- ==== Sys2Proof/Laws/Units.lean ====
section
/-! SUPPORT. The units' formulas under `NUM_F32`, with the constants as patterns, and the operators of a voice. -/

namespace Sys2Proof.Machine

@[simp] theorem FmVoice.op_setEnv {S : Type} (v : FmVoice S) (j k : OpIx) (e : Envelope S) :
    (v.setEnv j e).op k = if k = j then { v.op k with env := e } else v.op k := by
  cases j <;> cases k <;> rfl

@[simp] theorem FmVoice.op_setOsc {S : Type} (v : FmVoice S) (j k : OpIx) (o : Oscillator S) :
    (v.setOsc j o).op k = if k = j then { v.op k with osc := o } else v.op k := by
  cases j <;> cases k <;> rfl

theorem envf_attack (t A D SL R : Sample) :
    envf numF32 .attack t A D SL R = if F32.le A 0#32 then 0x3F800000#32 else F32.div t A := by
  simp only [envf, numF32_zero, numF32_one, numF32_le, numF32_div]

theorem envf_decay (t A D SL R : Sample) :
    envf numF32 .decay t A D SL R =
      F32.add (F32.sub 0x3F800000#32 (if F32.le D 0#32 then 0x3F800000#32 else F32.div t D))
        (F32.mul (if F32.le D 0#32 then 0x3F800000#32 else F32.div t D) SL) := by
  simp only [envf, numF32_zero, numF32_one, numF32_le, numF32_div, numF32_add, numF32_sub, numF32_mul]

theorem envf_sustain (t A D SL R : Sample) : envf numF32 .sustain t A D SL R = SL := rfl

theorem envf_release (t A D SL R : Sample) :
    envf numF32 .release t A D SL R =
      if F32.le R 0#32 then 0#32 else F32.mul SL (F32.sub 0x3F800000#32 (F32.div t R)) := by
  simp only [envf, numF32_zero, numF32_one, numF32_le, numF32_div, numF32_sub, numF32_mul]

theorem envf_off (t A D SL R : Sample) : envf numF32 .off t A D SL R = 0#32 := numF32_zero

theorem stringLength_f32 (par : Params Sample) (f : Sample) :
    stringLength numF32 par f =
      if F32.le (F32.ofNat par.cap) (F32.div par.sampleRate f) then par.cap
      else (max 1 (F32.rnd (F32.div par.sampleRate f))).toNat := rfl

theorem excitation_f32 (par : Params Sample) (draw : Nat → Sample) (n i : Nat) :
    excitation numF32 par draw n i =
      F32.add (draw i) (F32.mul par.harmAmp (Config.sin32
        (F32.div (F32.mul (F32.mul 0x40C90FDB#32 (F32.ofNat par.harmRatio)) (F32.ofNat i)) (F32.ofNat n)))) := rfl

theorem smoothed_f32 (x : Nat → Sample) (n i : Nat) :
    smoothed numF32 x n i = F32.mul (F32.add (x i) (x (prevIndex i n))) 0x3F000000#32 := by
  simp only [smoothed, numF32_half, numF32_mul, numF32_add]

theorem stringBlend_f32 (par : Params Sample) (cur0 prev : Sample) :
    stringBlend numF32 par cur0 prev =
      F32.mul par.damping (F32.add (F32.mul par.blendA cur0) (F32.mul (F32.sub 0x3F800000#32 par.blendA) prev)) := by
  simp only [stringBlend, numF32_one, numF32_mul, numF32_add, numF32_sub]

theorem rampfrac_f32 (c P : Word32) :
    rampfrac numF32 c P =
      if P = 0#32 then 0x3F800000#32 else F32.div (F32.ofNat c.toNat) (F32.ofNat P.toNat) := by
  simp only [rampfrac, numF32_one, numF32_div, numF32_ofNat]

/-- The word before word `i` of a buffer, by cases. -/
theorem prevIndex_eq {i n : Nat} (h : i < n) : prevIndex i n = if i = 0 then n - 1 else i - 1 := by
  split
  · next h0 => subst h0; exact prevIndex_zero (by omega)
  · obtain ⟨j, rfl⟩ : ∃ j, i = j + 1 := ⟨i - 1, by omega⟩
    exact prevIndex_succ h

end Sys2Proof.Machine
end

