-- ==== Sys2Proof/Machine/HostStream.lean ====
section
/-! DEFINITION. The host's serialisation of results into the output stream, as far as the spec gives it (20_memory R62, R63):
outside the block, and no step uses it (log 18). -/

namespace Sys2Proof.Machine

variable {S : Type}

/-- The four bytes of a 32-bit word in the host's byte order, the first byte of the stream first (R62). -/
def wordBytes (order : ByteOrder) (w : Word32) : List (BitVec 8) :=
  let little := [w.extractLsb' 0 8, w.extractLsb' 8 8, w.extractLsb' 16 8, w.extractLsb' 24 8]
  match order with
  | .little => little
  | .big => little.reverse

/-- The stream of the results the host writes, in order: the bytes of `toF32(x)` of each `sample(x)` (R62, R63). -/
def streamBytes (num : Num S) (order : ByteOrder) : List (Result S) → List (BitVec 8)
  | [] => []
  | .sample x :: rest => wordBytes order (num.toF32 x) ++ streamBytes num order rest
  | .none :: rest => streamBytes num order rest
  | .word _ :: rest => streamBytes num order rest

end Sys2Proof.Machine
end

