-- ==== Sys2Proof/Tests/Slice0.lean ====
section
/-! SUPPORT. The author's own tests. Expected values are the spec's (its rules, 30_encoding and 95_test_vectors), named in each
comment; `witness_<Name>` shows a concrete case that meets all the hypotheses of the obligation of that name. -/

namespace Sys2Proof.Machine.Test

open Sys2Proof Sys2Proof.Machine

set_option Elab.async false

/-! ## Well-formedness: each check refuses a term -/

theorem test_wf_envUpd : wellFormed (.envUpd 0#8 .op0 0x7F800000#32) = false := by decide +kernel
theorem test_wf_oscSetF : wellFormed (.oscSetF 0#8 .op0 0xFF800000#32) = false := by decide +kernel
theorem test_wf_oscUpd : wellFormed (.oscUpd 0#8 .op0 0x7FC00000#32) = false := by decide +kernel
theorem test_wf_fmNoteOn : wellFormed (.fmNoteOn 0#8 0x7F800001#32) = false := by decide +kernel
theorem test_wf_fmTick : wellFormed (.fmTick 0#8 0xFFFFFFFF#32) = false := by decide +kernel
theorem test_wf_strNoteOn : wellFormed (.strNoteOn 0#8 0x7F800000#32) = false := by decide +kernel
theorem test_wf_bankTick : wellFormed (.bankTick 0x7FC00000#32) = false := by decide +kernel
theorem test_wf_wr_readOnly : wellFormed (.wr (.env 0#8 .op0 .st) 0#32) = false := by decide +kernel
theorem test_wf_wr_delayLine : wellFormed (.wr (.dl 0#8 0#32) 0#32) = false := by decide +kernel
theorem test_wf_wr_notFinite : wellFormed (.wr (.env 0#8 .op0 .A) 0x7F800000#32) = false := by decide +kernel
theorem test_wf_accepts : wellFormed (.wr (.nz 0#8 .rng) 0xFFFFFFFF#32) = true ∧
    wellFormed (.envUpd 0#8 .op0 0x80000000#32) = true ∧ wellFormed (.strTick 0#8 0xFFFFFFFF#32) = true := by
  decide +kernel

/-! ## Decoding: words written from the fields of R91 and the opcodes of R98 (the list of B.1) -/

theorem test_decode_rd : decode 0x0100100400000000#64 = .ok (.rd (.env 0#8 .op1 .st)) := by decide +kernel
theorem test_decode_rd_str : decode 0x0100010100000000#64 = .ok (.rd (.str 0#8 .cur)) := by decide +kernel
theorem test_decode_rd_dl : decode 0x0100050000000005#64 = .ok (.rd (.dl 0#8 5#32)) := by decide +kernel
theorem test_decode_rd_denv : decode 0x0100020300000000#64 = .ok (.rd (.denv 0#8 .sel)) := by decide +kernel
theorem test_decode_wr : decode 0x0201000A3F000000#64 = .ok (.wr (.osc 1#8 .op0 .vol) 0x3F000000#32) := by decide +kernel
theorem test_decode_wr_nz : decode 0x0200040300000009#64 = .ok (.wr (.nz 0#8 .rng) 9#32) := by decide +kernel
theorem test_decode_wr_sq : decode 0x0200030000000002#64 = .ok (.wr (.sq 0#8 .period) 2#32) := by decide +kernel
theorem test_decode_envSet : decode 0x1001200000000001#64 = .ok (.envSet 1#8 .op2 true) := by decide +kernel
theorem test_decode_envUpd : decode 0x110000003E000000#64 = .ok (.envUpd 0#8 .op0 0x3E000000#32) := by decide +kernel
theorem test_decode_envOut : decode 0x1200000000000000#64 = .ok (.envOut 0#8 .op0) := by decide +kernel
theorem test_decode_oscSetF : decode 0x200010003F800000#64 = .ok (.oscSetF 0#8 .op1 0x3F800000#32) := by decide +kernel
theorem test_decode_oscUpd : decode 0x210020003E800000#64 = .ok (.oscUpd 0#8 .op2 0x3E800000#32) := by decide +kernel
theorem test_decode_oscOut : decode 0x2200000000000000#64 = .ok (.oscOut 0#8 .op0) := by decide +kernel
theorem test_decode_fmNoteOn : decode 0x3001000040800000#64 = .ok (.fmNoteOn 1#8 0x40800000#32) := by decide +kernel
theorem test_decode_fmNoteOff : decode 0x3100000000000000#64 = .ok (.fmNoteOff 0#8) := by decide +kernel
theorem test_decode_fmTick : decode 0x320000003D800000#64 = .ok (.fmTick 0#8 0x3D800000#32) := by decide +kernel
theorem test_decode_strNoteOn : decode 0x40000000462C4400#64 = .ok (.strNoteOn 0#8 0x462C4400#32) := by decide +kernel
theorem test_decode_strNoteOff : decode 0x4100000000000000#64 = .ok (.strNoteOff 0#8) := by decide +kernel
theorem test_decode_strTick : decode 0x42000000FFFFFFFF#64 = .ok (.strTick 0#8 0xFFFFFFFF#32) := by decide +kernel
theorem test_decode_denvSetFlags : decode 0x500000000000001E#64 = .ok (.denvSetFlags 0#8 0x1E#32) := by decide +kernel
theorem test_decode_denvTick : decode 0x5100000000000000#64 = .ok (.denvTick 0#8) := by decide +kernel
theorem test_decode_sqTick : decode 0x6000000000000000#64 = .ok (.sqTick 0#8) := by decide +kernel
theorem test_decode_nzTick : decode 0x6100000000000000#64 = .ok (.nzTick 0#8) := by decide +kernel
theorem test_decode_bankTick : decode 0x700000003D800000#64 = .ok (.bankTick 0x3D800000#32) := by decide +kernel

/-- The illegal words of B.1, rejected by the word alone, each by its name. -/
theorem test_decode_rejects :
    decode 0x0000000000000000#64 = .error .reservedOpcode ∧ decode 0x3300000000000000#64 = .error .reservedOpcode ∧
    decode 0x110001003D800000#64 = .error .fieldNotZero ∧ decode 0x700100003D800000#64 = .error .fieldNotZero ∧
    decode 0x1200300000000000#64 = .error .operatorRange ∧ decode 0x1000000000000002#64 = .error .operandKind ∧
    decode 0x5100000000000001#64 = .error .operandKind ∧ decode 0x110000007F800000#64 = .error .operandKind ∧
    decode 0x0100000700000000#64 = .error .undefinedRegister ∧
    decode 0x0100060000000000#64 = .error .undefinedRegister ∧ decode 0x0100110000000000#64 = .error .operatorRange ∧
    decode 0x0200000400000000#64 = .error .readOnly ∧ decode 0x0200050000000000#64 = .error .readOnly := by
  decide +kernel

/-- The illegal words of B.1 that only the instance (`NV = 2`, `CAP = 8`) or the sign of `f` rejects. -/
theorem test_decodeCommand_rejects :
    decodeCommand Config.vectorCfg 0x320200003D800000#64 = none ∧
    decodeCommand Config.vectorCfg 0x4000000000000000#64 = none ∧
    decodeCommand Config.vectorCfg 0x40000000C3DC0000#64 = none ∧
    decodeCommand Config.vectorCfg 0x0100050000000008#64 = none ∧
    decodeCommand Config.vectorCfg 0x0100050000000007#64 = some (.rd (.dl 0#8 7#32)) := by
  decide +kernel

theorem test_decodeTableWord : decodeTableWord 64 0x6100000000000000 = some (.nzTick 0#8) ∧
    decodeTableWord 64 0x6200000000000000 = none := by
  decide +kernel

/-- The pseudo-instruction `ENV.ADSR` of R107 expands to four `WR`. -/
theorem test_asm_adsr : Asm.assemble "ENV.ADSR v0.1, 0.5, 0.25, 1.0, 2.0 ; four".toList =
    some [0x020010003F000000#64, 0x020010013E800000#64, 0x020010023F800000#64, 0x0200100340000000#64] := by
  decide +kernel

/-- R62: the stream carries the bytes of 1.0 (0x3F800000), the least significant first under the default order. -/
theorem test_stream : streamBytes numF32 Config.hostByteOrder [.none, .sample 0x3F800000#32, .word 7#32] =
    [0x00#8, 0x00#8, 0x80#8, 0x3F#8] := by
  decide +kernel

/-! ## Steps -/

/-- The state after the command word `w` is presented and executed. -/
def after (s : State) (w : Nat) : State :=
  match step (s.withFetchWord 64 w) with
  | .next t => t
  | .fault _ => s
  | .refused _ => s

/-- The reset state with the envelope and the oscillator of operator 0 of voice 0 given. -/
def withOp0 (e : Envelope Sample) (o : Oscillator Sample) : State :=
  State.reset.withFm [{ FmVoice.reset with op0 := { env := e, osc := o } }, FmVoice.reset]

/-- An envelope with `A = 0.5`, `D = 0.25`, `SL = 0.5`, `R = 0.5` (R122). -/
def env (st : EnvState) (t out : Sample) : Envelope Sample where
  A := 0x3F000000#32
  D := 0x3E800000#32
  SL := 0x3F000000#32
  R := 0x3F000000#32
  st := st
  t := t
  out := out

/-- The oscillator of R127's example: `w = 2`, `p = 0.25`, `m = 0.5`, with `vol = 0.5` and a stored sample of 0.75. -/
def osc : Oscillator Sample where
  w := 0x40000000#32
  p := 0x3E800000#32
  vol := 0x3F000000#32
  m := 0x3F000000#32
  raw := 0x3F400000#32

/-- V-RW-1: `RD v0.0.ST` is 4 after reset. -/
theorem test_rd_reset : (after State.reset 0x0100000400000000).result = .word 4#32 := by decide +kernel
/-- V-STR-4's delay line: `RD s0.DL[3]` reads the word -1. -/
theorem test_rd_dl : (after (State.reset.withStr [⟨4, 0, [(1, 0x3F800000#32), (3, 0xBF800000#32)], 0⟩])
    0x0100050000000003).result = .sample 0xBF800000#32 := by decide +kernel
/-- V-RW-2: `WR v0.1.A, 0.5` sets that register and not the one of operator 0. -/
theorem test_wr_env : (after State.reset 0x020010003F000000).readLoc (.env 0#8 .op1 .A) = .sample 0x3F000000#32 ∧
    (after State.reset 0x020010003F000000).readLoc (.env 0#8 .op0 .A) = .sample 0#32 := by decide +kernel
/-- V-NZ-3: `WR n0.RNG, 0x2ABCD` keeps the low 17 bits. -/
theorem test_wr_rng : (after State.reset 0x020004030002ABCD).readLoc (.nz 0#8 .rng) = .word 0x0ABCD#32 := by decide +kernel
/-- V-ENV-9: note-off in mid-attack jumps to the sustain level. -/
theorem test_envSet_off : ((after (withOp0 (env .attack 0x3E000000#32 0x3E800000#32) osc) 0x1000000000000000).fm.map
    fun v => v.op0.env)[0]? = some (env .release 0#32 0x3F000000#32) := by decide +kernel
/-- E5: with `A = 0`, `ENV.SET v0.0, 1` puts out 1 at once. -/
theorem test_envSet_on : (after State.reset 0x1000000000000001).readLoc (.env 0#8 .op0 .out) = .sample 0x3F800000#32 := by
  decide +kernel
/-- R122, row "`ENV.UPD` 5": the overshoot 1.25 leaving Attack, timer restarted. -/
theorem test_envUpd_leaves : ((after (withOp0 (env .attack 0x3F000000#32 0x3F800000#32) osc) 0x110000003E000000).fm.map
    fun v => v.op0.env)[0]? = some (env .decay 0#32 0x3FA00000#32) := by decide +kernel
/-- V-ENV-3: a `dt` that exactly reaches the duration does not leave the state. -/
theorem test_envUpd_boundary : ((after (withOp0 (env .attack 0x3EC00000#32 0x3F400000#32) osc) 0x110000003E000000).fm.map
    fun v => v.op0.env)[0]? = some (env .attack 0x3F000000#32 0x3F800000#32) := by decide +kernel
/-- R121: `ENV.OUT` presents the stored output, here one that no formula gives for `t`. -/
theorem test_envOut : (after (withOp0 (env .attack 0#32 0x3F400000#32) osc) 0x1200000000000000).result =
    .sample 0x3F400000#32 := by decide +kernel
/-- V-OSC-1. -/
theorem test_oscSetF : (after State.reset 0x200010003F800000).readLoc (.osc 0#8 .op1 .w) = .sample 0x40C90FDB#32 := by
  decide +kernel
/-- V-OSC-2: `p = 0.5` and `m = 0` after `OSC.UPD .., 0.25`. -/
theorem test_oscUpd : (after (withOp0 Envelope.reset osc) 0x210000003E800000).readLoc (.osc 0#8 .op0 .p) =
    .sample 0x3F000000#32 ∧
    (after (withOp0 Envelope.reset osc) 0x210000003E800000).readLoc (.osc 0#8 .op0 .m) = .sample 0#32 := by decide +kernel
/-- V-OSC-2: the sample is the sine of 1, for every value of the free sine. -/
theorem test_oscUpd_raw : (oscUpd numF32 .op0 0x3E800000#32 { FmVoice.reset with op0 := ⟨Envelope.reset, osc⟩ }).op0.osc.raw =
    Config.sin32 0x3F800000#32 := congrArg Config.sin32 (by decide +kernel)
/-- R129: 0.75 times 0.5 is 0.375. -/
theorem test_oscOut : (after (withOp0 Envelope.reset osc) 0x2200000000000000).result = .sample 0x3EC00000#32 := by
  decide +kernel
/-- R134's example: `w1 = TWO_PI * 2` after `FM.NOTEON v0, 1.0`. -/
theorem test_fmNoteOn : (after State.reset 0x300000003F800000).readLoc (.osc 0#8 .op1 .w) = .sample 0x41490FDB#32 ∧
    (after State.reset 0x300000003F800000).readLoc (.env 0#8 .op2 .st) = .word 0#32 := by decide +kernel
/-- R135's example. -/
theorem test_fmNoteOff : ((after (withOp0 (env .sustain 0#32 0x3F000000#32) osc) 0x3100000000000000).fm.map
    fun v => v.op0.env)[0]? = some (env .release 0#32 0x3F000000#32) := by decide +kernel
/-- V-FM-5: from reset every phase advances by 0.0625 and every timer runs. -/
theorem test_fmTick : (after State.reset 0x320000003D800000).readLoc (.osc 0#8 .op2 .p) = .sample 0x3D800000#32 ∧
    (after State.reset 0x320000003D800000).readLoc (.env 0#8 .op1 .t) = .sample 0x3D800000#32 ∧
    (after State.reset 0x320000003D800000).readLoc (.osc 0#8 .op0 .m) = .sample 0#32 := by decide +kernel
/-- V-STR-1: the tie 44100 / 17640 = 2.5 rounds away from zero. -/
theorem test_strNoteOn : (after State.reset 0x400000004689D000).readLoc (.str 0#8 .N) = .word 3#32 := by decide +kernel
/-- V-STR-1: 440 Hz is clamped to `CAP = 8`. -/
theorem test_strNoteOn_clamp : (after State.reset 0x4000000043DC0000).readLoc (.str 0#8 .N) = .word 8#32 := by
  decide +kernel
/-- V-STR-6. -/
theorem test_strNoteOff : after State.reset 0x4100000000000000 = State.reset := by decide +kernel
/-- V-STR-4, tick 1: the written word and the scaled result. -/
theorem test_strTick : (after (State.reset.withStr [⟨4, 0, [(1, 0x3F800000#32), (3, 0xBF800000#32)], 0⟩])
    0x4200000000000000).result = .sample 0xBDCBC6A7#32 ∧
    (after (State.reset.withStr [⟨4, 0, [(1, 0x3F800000#32), (3, 0xBF800000#32)], 0⟩]) 0x4200000000000000).readLoc
      (.dl 0#8 0#32) = .sample 0xBE4BC6A7#32 := by decide +kernel
/-- R147: the cursor wraps from `N - 1` to 0, whatever the ignored operand. -/
theorem test_strTick_cursor : (after (State.reset.withStr [⟨4, 3, [(1, 0x3F800000#32)], 0⟩]) 0x42000000FFFFFFFF).readLoc
    (.str 0#8 .cur) = .word 0#32 := by decide +kernel
/-- V-DENV-7: `DENV.SETFLAGS d0, 14` in mid-ramp keeps the counter and the output. -/
theorem test_denvSetFlags : (after (State.reset.withDenv [⟨4#32, 3#32, 0#4, .decay, 0x3F000000#32⟩])
    0x500000000000001E).denv = [⟨4#32, 3#32, 14#4, .attack, 0x3F000000#32⟩] := by decide +kernel
/-- R165's example: `out = 1 - 3/4`, no wrap. -/
theorem test_denvTick : (after (State.reset.withDenv [⟨4#32, 3#32, 8#4, .decay, 0#32⟩]) 0x5100000000000000).denv =
    [⟨4#32, 4#32, 8#4, .decay, 0x3E800000#32⟩] := by decide +kernel
/-- V-DENV-6: an entry of -1 still resets the counter. -/
theorem test_denvTick_remain : (after (State.reset.withDenv [⟨1#32, 1#32, 0#4, .attack, 0#32⟩]) 0x5100000000000000).denv =
    [⟨1#32, 0#32, 0#4, .attack, 0x3F800000#32⟩] := by decide +kernel
/-- V-SQ-1: the third tick of period 3 fires. -/
theorem test_sqTick : (after (State.reset.withSq [⟨3#32, 2#32, 0#1⟩]) 0x6000000000000000).sq = [⟨3#32, 0#32, 1#1⟩] := by
  decide +kernel
/-- V-SQ-2: period 0 fires at every tick. -/
theorem test_sqTick_zero : (after State.reset 0x6000000000000000).result = .word 1#32 := by decide +kernel
/-- V-NZ-1: the successor of 0x1ABCD. -/
theorem test_nzTick : (after (State.reset.withNz [⟨1#32, 0#32, 0#1, 0x1ABCD#17⟩]) 0x6100000000000000).nz =
    [⟨1#32, 0#32, 0#1, 0x0D5E6#17⟩] := by decide +kernel
/-- V-NZ-6: bit 0 of the seed is republished without an advance. -/
theorem test_nzTick_republish : (after (State.reset.withNz [⟨5#32, 0#32, 0#1, 3#17⟩]) 0x6100000000000000).result =
    .word 1#32 := by decide +kernel
/-- V-BANK-2: every voice is ticked. -/
theorem test_bankTick : (after State.reset 0x700000003D800000).readLoc (.osc 1#8 .op0 .p) = .sample 0x3D800000#32 ∧
    (after State.reset 0x700000003D800000).readLoc (.osc 0#8 .op1 .p) = .sample 0x3D800000#32 := by decide +kernel
/-- P4, command 9: an illegal `BANK.TICK` changes nothing. -/
theorem test_illegal_ignored : after State.reset 0x700000007FC00000 = State.reset := by decide +kernel

/-! ## Witnesses: cases that meet the hypotheses of the obligations -/

theorem witness_DecodeInvertsEncode : wellFormed (.wr (.nz 255#8 .rng) 0xFFFFFFFF#32) = true ∧
    wellFormed (.oscUpd 255#8 .op2 0xFF7FFFFF#32) = true ∧ wellFormed (.rd (.dl 0#8 65535#32)) = true := by decide +kernel
theorem witness_EncodeInvertsDecode : decode 0x0200040300000009#64 = .ok (.wr (.nz 0#8 .rng) 9#32) := by decide +kernel
theorem witness_DecodedWordMatchesItsRow : decode 0x700000003D800000#64 = .ok (.bankTick 0x3D800000#32) := by
  decide +kernel
theorem witness_StepRunsTheDecodedCommand : (State.reset.present 0x6100000000000000#64).cmds = [0x6100000000000000#64] ∧
    decode 0x6100000000000000#64 = .ok (.nzTick 0#8) := by decide +kernel
/-- One word for each clause (a) to (g) of R103, from B.1. -/
theorem witness_IllegalWordIsIgnored : ∀ w ∈ [0x0000000000000000#64, 0x110001003D800000#64, 0x1200300000000000#64,
    0x320200003D800000#64, 0x1000000000000002#64, 0x40000000C3DC0000#64, 0x0100000700000000#64],
    (State.reset.present w).cmds = [w] ∧ IllegalWord (State.reset.present w).cfg w := by
  simp [IllegalWord, opcodes, opcodeUnits, opcodeKind, classRegs, nonFinite, State.present, State.withCmds, State.cfg,
    State.reset, State.resetOf, Config.vectorCfg]
theorem witness_IllegalCommandIsIgnored : legal State.reset.cfg (.rd (.dl 0#8 8#32)) = false ∧
    legal State.reset.cfg (.fmTick 2#8 0#32) = false ∧ legal State.reset.cfg (.strNoteOn 0#8 0x80000000#32) = false := by
  decide +kernel
theorem witness_IdleBlockHoldsItsState : State.reset.cmds = [] := rfl
theorem witness_StepKeepsTheInvariant : State.reset.Inv ∧ step State.reset = .next State.reset ∧
    (State.reset.present 0x5100000000000000#64).Inv := ⟨by decide +kernel, rfl, by decide +kernel⟩
/-- The smallest and the largest configuration. -/
theorem witness_ResetHasTheInvariant :
    Cfg.wf ⟨1, 1, 1, 1, 1, { Config.vectorCfg.par with cap := 1, sampleRate := 1#32 }⟩ ∧
    Cfg.wf ⟨256, 256, 256, 256, 256, { Config.vectorCfg.par with cap := 65536, sampleRate := 0x7F7FFFFF#32 }⟩ := by
  decide +kernel
theorem witness_StepKeepsTheConfiguration : step State.reset = .next State.reset := rfl
theorem witness_ResetValuesOfEveryLocation : locExists Config.vectorCfg (.env 1#8 .op2 .out) = true ∧
    locExists Config.vectorCfg (.dl 0#8 7#32) = true ∧ locExists Config.vectorCfg (.nz 0#8 .rng) = true := by decide +kernel
theorem witness_ResetEventRestoresEveryLocation : locExists State.reset.cfg (.osc 1#8 .op0 .tgt) = true ∧
    locExists State.reset.cfg (.str 0#8 .N) = true := by decide +kernel
theorem witness_CommandWritesOnlyItsLocations : exec (.strNoteOff 0#8) State.reset = .next State.reset ∧
    mayWrite (.strNoteOff 0#8) (.str 0#8 .cur) = false ∧ mayWrite (.strTick 0#8 0#32) (.str 0#8 .cur) = true :=
  ⟨rfl, by decide +kernel, by decide +kernel⟩
/-- Note-ons on two strings, and a modulator's update beside the other modulator's envelope. -/
theorem witness_CommandsOnDifferentUnitsCommute :
    (∀ u, touches (.strNoteOn 0#8 0x4689D000#32) u = true → touches (.strNoteOn 1#8 0x4689D000#32) u = false) ∧
    (∀ u, touches (.oscUpd 0#8 .op1 0#32) u = true → touches (.envUpd 0#8 .op2 0#32) u = false) ∧
    touches (.oscUpd 0#8 .op1 0#32) (.osc 0#8 .op0) = true ∧ touches (.oscOut 0#8 .op0) (.osc 0#8 .op0) = true := by
  refine ⟨?_, ?_, by decide +kernel, by decide +kernel⟩ <;> intro u <;> cases u <;> simp +contextual [touches, oscTarget]
theorem witness_ReadableStateIsTheWholeState : State.reset.Inv ∧ State.reset.cfg = State.reset.cfg := by decide +kernel
theorem witness_RdPresentsTheLocation : State.reset.fm[(1#8).toNat]? = some FmVoice.reset ∧
    State.reset.str[(0#8).toNat]? = some StringVoice.reset ∧ (7#32).toNat < State.reset.par.cap ∧
    State.reset.denv[(0#8).toNat]? = some Denv.reset ∧ State.reset.sq[(0#8).toNat]? = some Square.reset ∧
    State.reset.nz[(0#8).toNat]? = some Noise.reset := by decide +kernel
/-- An `S` register with the largest finite operand, a period, and the noise register with bits above 16. -/
theorem witness_WrStoresTheOperand : ∀ lx ∈ [(Loc.osc 1#8 .op2 .vol, 0xFF7FFFFF#32), (.sq 0#8 .period, 0xFFFFFFFF#32),
    (.nz 0#8 .rng, 0x2ABCD#32)], locExists State.reset.cfg lx.1 = true ∧ locWritable lx.1 = true ∧
    (wrKind lx.1 = .F → F32.isFinite lx.2 = true) := by decide +kernel
theorem witness_WrStoresTheOperand_ignored : locExists State.reset.cfg (.nz 1#8 .rng) = false ∧
    locWritable (.nz 1#8 .rng) = true ∧ locWritable (.dl 0#8 0#32) = false ∧
    (wrKind (.env 0#8 .op0 .A) = .F ∧ F32.isFinite 0x7F800000#32 = false) := by decide +kernel
/-- The unit and the finite operand of the commands on an operator or a voice; -0 and the largest finite value. -/
theorem witness_EnvSetRestartsTheEnvelope : State.reset.fm[(0#8).toNat]? = some FmVoice.reset := rfl
theorem witness_EnvUpdAdvancesTheEnvelope : F32.isFinite 0x80000000#32 = true ∧ F32.isFinite 0x7F7FFFFF#32 = true ∧
    State.reset.fm[(1#8).toNat]? = some FmVoice.reset := by decide +kernel
theorem witness_EnvOutPresentsTheStoredOutput : State.reset.fm[(1#8).toNat]? = some FmVoice.reset := rfl
theorem witness_EnvelopeIsContinuousAtBoundaries : (0 : ℝ) < 1 / 2 ∧ (0 : ℝ) < 1 / 4 ∧ (0 : ℝ) < 2 := by norm_num
theorem witness_DecayMeetsSustainInBinary32 : F32.isFinite 0x3E800000#32 = true ∧ F32.lt 0#32 0x3E800000#32 = true ∧
    F32.isFinite 0x3F000000#32 = true ∧ (0x3F000000#32 : Sample) ≠ 0x80000000#32 := by decide +kernel
theorem witness_OscSetFSetsTheFrequency : F32.isFinite 0xC3DC0000#32 = true ∧
    State.reset.fm[(0#8).toNat]? = some FmVoice.reset := by decide +kernel
/-- A modulator and the carrier. -/
theorem witness_OscUpdSamplesAndPushes : F32.isFinite 0x3E000000#32 = true ∧
    State.reset.fm[(0#8).toNat]? = some FmVoice.reset ∧ OpIx.op1 ≠ .op0 ∧ ¬ (OpIx.op0 ≠ .op0) := by decide +kernel
theorem witness_OscOutPresentsTheScaledSample : State.reset.fm[(0#8).toNat]? = some FmVoice.reset := rfl
theorem witness_FreeRunningOscillatorIsASine : (Oscillator.mk (1 : ℝ) 2 3 0 4).m = 0 := rfl
theorem witness_FmNoteOnStartsAllOperators : F32.isFinite 0x43DC0000#32 = true ∧
    State.reset.fm[(1#8).toNat]? = some FmVoice.reset := by decide +kernel
theorem witness_FmNoteOffReleasesAllEnvelopes : State.reset.fm[(1#8).toNat]? = some FmVoice.reset := rfl
theorem witness_FmTickModulatesInTheSameTick : F32.isFinite 0x3D800000#32 = true ∧
    State.reset.fm[(0#8).toNat]? = some FmVoice.reset := by decide +kernel
/-- Two voices that differ in a modulator's volume and envelope. -/
theorem witness_ModulatorVolumesAndEnvelopesStaySilent :
    let v' : FmVoice Sample := { FmVoice.reset with op1 := ⟨env .decay 0#32 0#32, { Oscillator.reset with vol := 0#32 }⟩ }
    FmVoice.reset.op0 = v'.op0 ∧ (∀ k, ∃ vol, (v'.op k).osc = { (FmVoice.reset.op k).osc with vol := vol }) ∧
      v' ≠ FmVoice.reset := by
  refine ⟨rfl, ?_, by decide +kernel⟩
  intro k
  cases k
  · exact ⟨0x3F800000#32, rfl⟩
  · exact ⟨0#32, rfl⟩
  · exact ⟨0x3F800000#32, rfl⟩
/-- A frequency of each branch: clamped to `CAP`, in between, clamped to 1. -/
theorem witness_StrNoteOnFillsTheDelayLine :
    (F32.isFinite 0x00000001#32 = true ∧ F32.lt 0#32 0x00000001#32 = true) ∧
    (F32.isFinite 0x462C4400#32 = true ∧ F32.lt 0#32 0x462C4400#32 = true) ∧
    (F32.isFinite 0x7F7FFFFF#32 = true ∧ F32.lt 0#32 0x7F7FFFFF#32 = true) ∧
    State.reset.str[(0#8).toNat]? = some StringVoice.reset := by decide +kernel
theorem witness_StringLengthStaysInBounds : Config.vectorCfg.wf ∧ F32.isFinite 0x00000001#32 = true ∧
    F32.lt 0#32 0x00000001#32 = true ∧ F32.isFinite 0x7F7FFFFF#32 = true ∧ F32.lt 0#32 0x7F7FFFFF#32 = true := by
  decide +kernel
theorem witness_StrNoteOffChangesNothing : (0#8).toNat < State.reset.str.length := by decide +kernel
/-- The cursor at the first and at the last word. -/
theorem witness_StrTickClosesTheLoop : ∀ cur ∈ [0, 3],
    (State.reset.withStr [⟨4, cur, [(1, 0x3F800000#32)], 0⟩]).str[(0#8).toNat]? = some ⟨4, cur, [(1, 0x3F800000#32)], 0⟩ ∧
    StringVoice.ok State.reset.par ⟨4, cur, [(1, 0x3F800000#32)], 0⟩ ∧ State.reset.par.cap ≤ 65536 := by decide +kernel
theorem witness_StringTicksObeyTheRecurrence :
    2 ≤ (StringVoice.mk (S := ℝ) 2 0 [(1, 1)] 0).N ∧ (StringVoice.mk (S := ℝ) 2 0 [(1, 1)] 0).cur = 0 ∧
    (StringVoice.mk (S := ℝ) 2 0 [(1, 1)] 0).N ≤ 2 := by decide
theorem witness_StringBlendIsDamped : (0 : ℝ) ≤ 0.995 ∧ (0 : ℝ) ≤ 0.8 ∧ (0.8 : ℝ) ≤ 1 := by norm_num
theorem witness_BufferEnergyNeverRisesOverARound : (0 : ℝ) ≤ 0.995 ∧ (0.995 : ℝ) < 1 ∧ (0 : ℝ) < 0.8 ∧ (0.8 : ℝ) < 1 ∧
    1 ≤ (StringVoice.mk (S := ℝ) 2 0 [(1, 1)] 0).N ∧
    (StringVoice.mk (S := ℝ) 2 0 [(1, 1)] 0).cur < (StringVoice.mk (S := ℝ) 2 0 [(1, 1)] 0).N := by norm_num
theorem witness_DenvSetFlagsSelectsTheStart : (0#8).toNat < State.reset.denv.length := by decide +kernel
/-- The clauses: a hold state, a ramp at the last count that does not wrap, a ramp at the first that does. -/
theorem witness_DenvTickRampsAndLooksUp : (∀ g ∈ [(⟨4#32, 0#32, 0#4, .holdLow, 0#32⟩ : Denv Sample),
    ⟨4#32, 3#32, 8#4, .decay, 0#32⟩, ⟨4#32, 4#32, 13#4, .attack, 0#32⟩],
    (State.reset.withDenv [g]).denv[(0#8).toNat]? = some g) ∧
    ¬ (4#32).toNat < (3#32).toNat + 1 ∧ (4#32).toNat < (4#32).toNat + 1 := by decide +kernel
theorem witness_RampLastsOneTickMoreThanThePeriod :
    (⟨4#32, 0#32, 8#4, .decay, 0#32⟩ : Denv Sample).counter = 0#32 ∧
    (⟨4#32, 0#32, 8#4, .decay, 0#32⟩ : Denv Sample).sel = .decay ∧ 4 ≤ (4#32).toNat ∧
    (⟨0#32, 0#32, 12#4, .attack, 0#32⟩ : Denv Sample).sel = .attack ∧ 0 ≤ (0#32).toNat := by decide +kernel
theorem witness_CountersStayInRange : Denv.reset.ok ∧ (⟨1#32, 5#32, 14#4, .attack, 0#32⟩ : Denv Sample).ok ∧
    (⟨1#32, 0#32, 13#4, .holdHigh, 0#32⟩ : Denv Sample).ok := by decide +kernel
/-- A count that fires and the one before it. -/
theorem witness_SqTickCountsAndToggles : (∀ g ∈ [(⟨3#32, 2#32, 0#1⟩ : Square), ⟨3#32, 1#32, 0#1⟩],
    (State.reset.withSq [g]).sq[(0#8).toNat]? = some g) ∧ (3#32).toNat ≤ (2#32).toNat + 1 ∧
    ¬ (3#32).toNat ≤ (1#32).toNat + 1 := by decide +kernel
theorem witness_SquareTogglesEveryPeriodTicks : (⟨1#32, 0#32, 1#1⟩ : Square).counter = 0#32 ∧
    1 ≤ (⟨1#32, 0#32, 1#1⟩ : Square).period.toNat := by decide +kernel
theorem witness_NzTickShiftsAndRepublishes : (∀ g ∈ [(⟨1#32, 0#32, 0#1, 1#17⟩ : Noise), ⟨5#32, 0#32, 0#1, 3#17⟩],
    (State.reset.withNz [g]).nz[(0#8).toNat]? = some g) ∧ (1#32).toNat ≤ (0#32).toNat + 1 ∧
    ¬ (5#32).toNat ≤ (0#32).toNat + 1 := by decide +kernel
theorem witness_LfsrCycleHasFullLength : (1#17 : BitVec 17) ≠ 0#17 ∧ 0 < 131070 ∧ 131070 < 131071 := by decide +kernel
/-- Two generators that differ in the stale output bit only. -/
theorem witness_NoiseGeneratorsAgreeOnEqualSeeds : (⟨3#32, 1#32, 0#1, 9#17⟩ : Noise).period =
    (⟨3#32, 1#32, 1#1, 9#17⟩ : Noise).period ∧ (⟨3#32, 1#32, 0#1, 9#17⟩ : Noise) ≠ ⟨3#32, 1#32, 1#1, 9#17⟩ := by
  decide +kernel
theorem witness_BankTickSumsEveryVoiceOnce : F32.isFinite 0x3D800000#32 = true ∧ F32.isFinite 0x80000000#32 = true := by
  decide +kernel

/-- 2 and 1 as the reals of their patterns. -/
theorem realOfF32_two : realOfF32 0x40000000#32 = 2 := by
  have he : (0x40000000#32).toNat / 2 ^ 23 % 2 ^ 8 = 128 := by decide +kernel
  have hf : (0x40000000#32).toNat % 2 ^ 23 = 0 := by decide +kernel
  have hm : (0x40000000#32).msb = false := by decide +kernel
  simp only [realOfF32, he, hf, hm]
  norm_num [zpow_neg]

theorem realOfF32_one : realOfF32 0x3F800000#32 = 1 := by
  have he : (0x3F800000#32).toNat / 2 ^ 23 % 2 ^ 8 = 127 := by decide +kernel
  have hf : (0x3F800000#32).toNat % 2 ^ 23 = 0 := by decide +kernel
  have hm : (0x3F800000#32).msb = false := by decide +kernel
  simp only [realOfF32, he, hf, hm]
  norm_num [zpow_neg]

theorem witness_BinaryOperationsAreCorrectlyRounded :
    F32.isFinite 0x40000000#32 = true ∧ F32.isFinite 0x3F800000#32 = true ∧
    realOfF32 0x40000000#32 + realOfF32 0x3F800000#32 ≠ 0 ∧ realOfF32 0x40000000#32 - realOfF32 0x3F800000#32 ≠ 0 ∧
    realOfF32 0x40000000#32 * realOfF32 0x3F800000#32 ≠ 0 ∧ realOfF32 0x3F800000#32 ≠ 0 ∧
    realOfF32 0x40000000#32 / realOfF32 0x3F800000#32 ≠ 0 := by
  rw [realOfF32_two, realOfF32_one]
  refine ⟨by decide +kernel, by decide +kernel, ?_⟩
  norm_num
theorem witness_ComparisonsAndRoundingFollowTheReals : F32.isFinite 0x80000000#32 = true ∧
    F32.isFinite 0x7F7FFFFF#32 = true := by decide +kernel
theorem witness_ConversionsAreCorrectlyRounded : F32.isFinite 0x00000001#32 = true ∧
    (0x00000001#32 : Word32) ≠ 0x80000000#32 ∧ F32.isFinite 0xFF7FFFFF#32 = true := by decide +kernel
theorem witness_NansPropagateAndNeverCompare : F32.isNan 0x7F800001#32 = true ∧ F32.isNan 0xFFFFFFFF#32 = true := by
  decide +kernel

end Sys2Proof.Machine.Test
end

section
/-! What each command writes (10_state R42) and what it leaves unchanged: O6 and O16. -/

namespace Sys2Proof.Machine

variable {S : Type}

/-- The step on a stream with a next word is the meaning of the command the word decodes to (R16, R92). -/
theorem step_of_decode {s : State} {w : CmdWord} {rest : List CmdWord} {i : Instr} (hs : s.cmds = w :: rest)
    (hw : decode w = .ok i) : step s = exec i (s.withCmds rest) := by
  have hf : s.fetch = some (w, s.withCmds rest) := by simp [State.fetch, hs]
  simp [step, hf, hw]

/-! The registers of an envelope and of an oscillator that each operation keeps. -/

/-- Leaving a timed state changes `st` and `t` only (40_envelope R116). -/
theorem envLeave_cases (num : Num S) (e : Envelope S) :
    envLeave num e = e ∨ ∃ st, envLeave num e = { e with st := st, t := num.zero } := by
  unfold envLeave
  split
  · split
    · exact .inr ⟨_, rfl⟩
    · exact .inl rfl
  · exact .inl rfl

/-- `ENV.SET` keeps the parameters of the envelope. -/
theorem envRegResult_envSet (num : Num S) (gate : Bool) (e : Envelope S) {r : EnvReg}
    (h : mayWrite.envTickReg r = false) : envRegResult (envSet num gate e) r = envRegResult e r := by
  cases r with
  | st | t | out => exact absurd h (by decide)
  | A | D | SL | R => rfl

/-- `ENV.UPD` keeps the parameters of the envelope. -/
theorem envRegResult_envUpd (num : Num S) (dt : S) (e : Envelope S) {r : EnvReg}
    (h : mayWrite.envTickReg r = false) : envRegResult (envUpd num dt e) r = envRegResult e r := by
  have hleave (e' : Envelope S) : envRegResult (envLeave num e') r = envRegResult e' r := by
    obtain he | ⟨st, he⟩ := envLeave_cases num e'
    · rw [he]
    · rw [he]
      cases r with
      | st | t | out => exact absurd h (by decide)
      | A | D | SL | R => rfl
  rw [envUpd, hleave]
  cases r with
  | st | t | out => exact absurd h (by decide)
  | A | D | SL | R => rfl

/-! The frame of one FM voice. It is closed under composition, so a command that is a sequence of unit operations has the
frame of its parts. -/

/-- Voice `y` reads as voice `x`, both taken as voice `v`, at every location outside `W`. -/
def FmVoice.Frame (v : UnitIx) (W : Loc → Prop) (x y : FmVoice Sample) : Prop :=
  (∀ k r, ¬ W (.env v k r) → envRegResult (y.op k).env r = envRegResult (x.op k).env r) ∧
  (∀ k r, ¬ W (.osc v k r) → oscRegResult k (y.op k).osc r = oscRegResult k (x.op k).osc r)

section
variable {v : UnitIx} {W : Loc → Prop} {x y z : FmVoice Sample}

theorem FmVoice.Frame.refl (x : FmVoice Sample) : FmVoice.Frame v W x x :=
  ⟨fun _ _ _ => rfl, fun _ _ _ => rfl⟩

theorem FmVoice.Frame.trans (hxy : FmVoice.Frame v W x y) (hyz : FmVoice.Frame v W y z) : FmVoice.Frame v W x z :=
  ⟨fun k r hw => (hyz.1 k r hw).trans (hxy.1 k r hw), fun k r hw => (hyz.2 k r hw).trans (hxy.2 k r hw)⟩

theorem FmVoice.Frame.setEnv {k : OpIx} {e : Envelope Sample}
    (h : ∀ r, ¬ W (.env v k r) → envRegResult e r = envRegResult (x.op k).env r) :
    FmVoice.Frame v W x (x.setEnv k e) := by
  refine ⟨fun j r hw => ?_, fun j r _ => by rw [FmVoice.setEnv_osc]⟩
  by_cases hj : j = k
  · subst hj
    rw [FmVoice.setEnv_env_same, h r hw]
  · rw [FmVoice.setEnv_env_other x e hj]

theorem FmVoice.Frame.setOsc {k : OpIx} {o : Oscillator Sample}
    (h : ∀ r, ¬ W (.osc v k r) → oscRegResult k o r = oscRegResult k (x.op k).osc r) :
    FmVoice.Frame v W x (x.setOsc k o) := by
  refine ⟨fun j r _ => by rw [FmVoice.setOsc_env], fun j r hw => ?_⟩
  by_cases hj : j = k
  · subst hj
    rw [FmVoice.setOsc_osc_same, h r hw]
  · rw [FmVoice.setOsc_osc_other x o hj]

theorem FmVoice.Frame.envSet {k : OpIx} (gate : Bool) (h : ∀ r, mayWrite.envTickReg r = true → W (.env v k r))
    (x : FmVoice Sample) : FmVoice.Frame v W x (voiceEnvSet numF32 k gate x) :=
  .setEnv fun r hw => envRegResult_envSet _ _ _ (Bool.eq_false_iff.2 (mt (h r) hw))

theorem FmVoice.Frame.envUpd {k : OpIx} (dt : Sample) (h : ∀ r, mayWrite.envTickReg r = true → W (.env v k r))
    (x : FmVoice Sample) : FmVoice.Frame v W x (voiceEnvUpd numF32 k dt x) :=
  .setEnv fun r hw => envRegResult_envUpd _ _ _ (Bool.eq_false_iff.2 (mt (h r) hw))

theorem FmVoice.Frame.oscSetF {k : OpIx} (f : Sample) (hw : W (.osc v k .w)) (hp : W (.osc v k .p))
    (x : FmVoice Sample) : FmVoice.Frame v W x (voiceOscSetF numF32 k f x) :=
  .setOsc fun r hr => by
    cases r with
    | w => exact absurd hw hr
    | p => exact absurd hp hr
    | vol | m | raw | tgt => rfl

theorem FmVoice.Frame.oscPush {k : OpIx} (a : Sample) (hm : W (.osc v k .m)) (x : FmVoice Sample) :
    FmVoice.Frame v W x (x.setOsc k (Machine.oscPush numF32 a (x.op k).osc)) :=
  .setOsc fun r hr => by
    cases r with
    | m => exact absurd hm hr
    | w | p | vol | raw | tgt => rfl

theorem FmVoice.Frame.oscAdvance {k : OpIx} (dt : Sample) (hp : W (.osc v k .p)) (hm : W (.osc v k .m))
    (hraw : W (.osc v k .raw)) (x : FmVoice Sample) :
    FmVoice.Frame v W x (x.setOsc k (Machine.oscAdvance numF32 dt (x.op k).osc)) :=
  .setOsc fun r hr => by
    cases r with
    | p => exact absurd hp hr
    | m => exact absurd hm hr
    | raw => exact absurd hraw hr
    | w | vol | tgt => rfl

/-- `OSC.UPD` writes `p`, `m` and `raw` of its oscillator, and `m` of the one it feeds (41_oscillator R127). -/
theorem FmVoice.Frame.oscUpd {k : OpIx} (dt : Sample) (hp : W (.osc v k .p)) (hm : W (.osc v k .m))
    (hraw : W (.osc v k .raw)) (htgt : ∀ j, oscTarget k = some j → W (.osc v j .m)) (x : FmVoice Sample) :
    FmVoice.Frame v W x (Machine.oscUpd numF32 k dt x) := by
  have hown := FmVoice.Frame.oscAdvance dt hp hm hraw x
  unfold Machine.oscUpd
  split
  · exact hown
  · next j hj => exact hown.trans (.oscPush _ (htgt j hj) _)

theorem FmVoice.Frame.gate (gate : Bool) (h : ∀ k r, mayWrite.envTickReg r = true → W (.env v k r))
    (x : FmVoice Sample) : FmVoice.Frame v W x (voiceGate numF32 gate x) :=
  ((FmVoice.Frame.envSet gate (h .op0) x).trans (.envSet gate (h .op1) _)).trans (.envSet gate (h .op2) _)

theorem FmVoice.Frame.noteOn (f : Sample) (henv : ∀ k r, mayWrite.envTickReg r = true → W (.env v k r))
    (hw : ∀ k, W (.osc v k .w)) (hp : ∀ k, W (.osc v k .p)) (x : FmVoice Sample) :
    FmVoice.Frame v W x (fmNoteOn numF32 f x) :=
  (((FmVoice.Frame.oscSetF f (hw .op0) (hp .op0) x).trans (.oscSetF _ (hw .op1) (hp .op1) _)).trans
    (.oscSetF _ (hw .op2) (hp .op2) _)).trans (.gate true henv _)

theorem FmVoice.Frame.advance (dt : Sample) (henv : ∀ k r, mayWrite.envTickReg r = true → W (.env v k r))
    (hp : ∀ k, W (.osc v k .p)) (hm : ∀ k, W (.osc v k .m)) (hraw : ∀ k, W (.osc v k .raw)) (x : FmVoice Sample) :
    FmVoice.Frame v W x (fmAdvance numF32 dt x) := by
  have hosc (k : OpIx) (y : FmVoice Sample) : FmVoice.Frame v W y (Machine.oscUpd numF32 k dt y) :=
    .oscUpd dt (hp k) (hm k) (hraw k) (fun j _ => hm j) y
  exact (((((FmVoice.Frame.envUpd dt (henv .op0) x).trans (.envUpd dt (henv .op1) _)).trans
    (.envUpd dt (henv .op2) _)).trans (hosc .op1 _)).trans (hosc .op2 _)).trans (hosc .op0 _)

end

/-- `BANK.TICK` leaves in the bank what `FM.TICK` leaves of each voice (46_bank_mixer R187). -/
theorem bankTick_voices (num : Num S) (dt : S) (xs : List (FmVoice S)) (acc : S) :
    (bankTick num dt xs acc).1 = xs.map (fmAdvance num dt) := by
  induction xs generalizing acc with
  | nil => rfl
  | cons x rest ih => exact congrArg (fmAdvance num dt x :: ·) (ih _)

/-- The meaning of `BANK.TICK`, with what it leaves in the bank and what it presents apart. -/
theorem exec_bankTick_map (dt : Word32) (s : State) :
    exec (.bankTick dt) s = perform (.bankTick dt) s fun s =>
      (s.withFm (s.fm.map (fmAdvance numF32 dt))).withResult (.sample (bankTick numF32 dt s.fm numF32.zero).2) := by
  simp only [← bankTick_voices numF32 dt _ numF32.zero]
  exact exec_bankTick dt s

/-- The frame of replacing every FM voice. -/
theorem State.OnlyChanges_voices {s : State} {f : FmVoice Sample → FmVoice Sample} {r : Result Sample} {W : Loc → Prop}
    (hf : ∀ v x, FmVoice.Frame v W x (f x)) : s.OnlyChanges ((s.withFm (s.fm.map f)).withResult r) W := by
  refine ⟨State.cfg_congr (by simp) rfl rfl rfl rfl rfl, rfl, fun loc hw => ?_⟩
  cases loc with
  | env v k g =>
    cases hx : s.fm[v.toNat]? with
    | none => simp [State.readLoc, hx]
    | some x => simpa [State.readLoc, hx] using (hf v x).1 k g hw
  | osc v k g =>
    cases hx : s.fm[v.toNat]? with
    | none => simp [State.readLoc, hx]
    | some x => simpa [State.readLoc, hx] using (hf v x).2 k g hw
  | _ => rfl

/-! The frame of a command: the locations outside its entry of R42, and the counts of draws (log 10). -/

/-- `t` is `s` but for what command `i` may write. -/
def State.FrameOf (i : Instr) (s t : State) : Prop :=
  s.OnlyChanges t (fun loc => mayWrite i loc = true) ∧
  ∀ j : UnitIx, (∀ f, i ≠ .strNoteOn j f) → (t.str[j.toNat]?).map (·.taken) = (s.str[j.toNat]?).map (·.taken)

section
variable {i : Instr} {s t : State}

theorem State.FrameOf.withResult (i : Instr) (s : State) (r : Result Sample) : State.FrameOf i s (s.withResult r) :=
  ⟨State.OnlyChanges_refl s r _, fun _ _ => rfl⟩

theorem State.FrameOf.of_exec {effect : State → State} (hexec : exec i s = perform i s effect)
    (h : exec i s = .next t) (he : State.FrameOf i s (effect s)) : State.FrameOf i s t := by
  rw [hexec] at h
  obtain ⟨-, rfl⟩ | ⟨-, rfl⟩ := perform_cases h
  · exact he
  · exact .withResult i s _

theorem State.FrameOf.onVoice {v : UnitIx} {f : FmVoice Sample → FmVoice Sample × Result Sample}
    (hf : ∀ x, FmVoice.Frame v (fun loc => mayWrite i loc = true) x (f x).1) : State.FrameOf i s (s.onVoice v f) := by
  obtain ⟨x, hx, h⟩ | ⟨-, h⟩ := s.onUnit_cases s.fm State.withFm v f
  · rw [State.onVoice, h]
    obtain ⟨henv, hosc⟩ := hf x
    exact ⟨State.OnlyChanges_voice hx _ henv hosc, fun _ _ => rfl⟩
  · rw [State.onVoice, h]
    exact .withResult i s _

theorem State.FrameOf.onDenv {d : UnitIx} {f : Denv Sample → Denv Sample × Result Sample}
    (hf : ∀ x r, mayWrite i (.denv d r) ≠ true → denvRegResult (f x).1 r = denvRegResult x r) :
    State.FrameOf i s (s.onDenv d f) := by
  obtain ⟨x, hx, h⟩ | ⟨-, h⟩ := s.onUnit_cases s.denv State.withDenv d f
  · rw [State.onDenv, h]
    exact ⟨State.OnlyChanges_denv hx _ (hf x), fun _ _ => rfl⟩
  · rw [State.onDenv, h]
    exact .withResult i s _

theorem State.FrameOf.onSquare {q : UnitIx} {f : Square → Square × Result Sample}
    (hf : ∀ x r, mayWrite i (.sq q r) ≠ true → sqRegResult (S := Sample) (f x).1 r = sqRegResult x r) :
    State.FrameOf i s (s.onSquare q f) := by
  obtain ⟨x, hx, h⟩ | ⟨-, h⟩ := s.onUnit_cases s.sq State.withSq q f
  · rw [State.onSquare, h]
    exact ⟨State.OnlyChanges_square hx _ (hf x), fun _ _ => rfl⟩
  · rw [State.onSquare, h]
    exact .withResult i s _

theorem State.FrameOf.onNoise {n : UnitIx} {f : Noise → Noise × Result Sample}
    (hf : ∀ x r, mayWrite i (.nz n r) ≠ true → nzRegResult (S := Sample) (f x).1 r = nzRegResult x r) :
    State.FrameOf i s (s.onNoise n f) := by
  obtain ⟨x, hx, h⟩ | ⟨-, h⟩ := s.onUnit_cases s.nz State.withNz n f
  · rw [State.onNoise, h]
    exact ⟨State.OnlyChanges_noise hx _ (hf x), fun _ _ => rfl⟩
  · rw [State.onNoise, h]
    exact .withResult i s _

/-- A command that may write the whole delay line of its string. -/
theorem State.FrameOf.onString {u : UnitIx} {f : StringVoice Sample → StringVoice Sample × Result Sample}
    (hf : ∀ x r, mayWrite i (.str u r) ≠ true → strRegResult (S := Sample) (f x).1 r = strRegResult x r)
    (hdl : ∀ a, mayWrite i (.dl u a) = true)
    (htaken : ∀ x, (∀ g, i ≠ .strNoteOn u g) → (f x).1.taken = x.taken) : State.FrameOf i s (s.onString u f) := by
  obtain ⟨x, hx, h⟩ | ⟨-, h⟩ := s.onUnit_cases s.str State.withStr u f
  · rw [State.onString, h]
    refine ⟨State.OnlyChanges_string hx _ (hf x) fun a ha => absurd (hdl a) ha, fun j hj => ?_⟩
    rw [State.withResult_str, State.withStr_str, getElem?_set_unit _ (unit_lt hx)]
    split
    · next h => subst h; simp [hx, htaken x hj]
    · rfl
  · rw [State.onString, h]
    exact .withResult i s _

end

/-! A register other than the one that `WR` names, and a read-only one, read as before (47_register_access R195). -/

theorem envRegResult_writeEnvReg {v : UnitIx} {k : OpIx} {r g : EnvReg} (e : Envelope S) (x : S)
    (h : r = g → locWritable (.env v k g) = false) : envRegResult (writeEnvReg e r x) g = envRegResult e g := by
  cases r with
  | st | t | out => rfl
  | A => cases g with | A => cases h rfl | _ => rfl
  | D => cases g with | D => cases h rfl | _ => rfl
  | SL => cases g with | SL => cases h rfl | _ => rfl
  | R => cases g with | R => cases h rfl | _ => rfl

theorem oscRegResult_writeOscReg {v : UnitIx} {k : OpIx} {r g : OscReg} (o : Oscillator S) (x : S)
    (h : r = g → locWritable (.osc v k g) = false) : oscRegResult k (writeOscReg o r x) g = oscRegResult k o g := by
  cases r with
  | w | p | m | raw | tgt => rfl
  | vol => cases g with | vol => cases h rfl | _ => rfl

theorem denvRegResult_writeDenvReg {d : UnitIx} {r g : DenvReg} (y : Denv S) (x : Word32)
    (h : r = g → locWritable (.denv d g) = false) : denvRegResult (writeDenvReg y r x) g = denvRegResult y g := by
  cases r with
  | counter | flags | sel | out => rfl
  | period => cases g with | period => cases h rfl | _ => rfl

theorem sqRegResult_writeSqReg {q : UnitIx} {r g : SqReg} (y : Square) (x : Word32)
    (h : r = g → locWritable (.sq q g) = false) :
    sqRegResult (S := Sample) (writeSqReg y r x) g = sqRegResult y g := by
  cases r with
  | counter | out => rfl
  | period => cases g with | period => cases h rfl | _ => rfl

theorem nzRegResult_writeNzReg {n : UnitIx} {r g : NzReg} (y : Noise) (x : Word32)
    (h : r = g → locWritable (.nz n g) = false) :
    nzRegResult (S := Sample) (writeNzReg y r x) g = nzRegResult y g := by
  cases r with
  | counter | out => rfl
  | period => cases g with | period => cases h rfl | _ => rfl
  | rng => cases g with | rng => cases h rfl | _ => rfl

/-- A location outside the entry of `WR target` is another one, or is read-only. -/
theorem readOnly_of_not_mayWrite_wr {target loc : Loc} {x : Word32} (h : mayWrite (.wr target x) loc ≠ true)
    (heq : target = loc) : locWritable loc = false := by
  simpa [mayWrite, heq] using h

/-- `WR` writes the named register and no other, and that only if it is writable (R195, R196). -/
theorem State.FrameOf.writeLoc (loc : Loc) (x : Word32) (s : State) :
    State.FrameOf (.wr loc x) s (s.writeLoc loc x) := by
  cases loc with
  | env v k r =>
    exact .onVoice fun y => .setEnv fun g hg =>
      envRegResult_writeEnvReg _ _ fun h => readOnly_of_not_mayWrite_wr hg (h ▸ rfl)
  | osc v k r =>
    exact .onVoice fun y => .setOsc fun g hg =>
      oscRegResult_writeOscReg _ _ fun h => readOnly_of_not_mayWrite_wr hg (h ▸ rfl)
  | denv d r =>
    exact .onDenv fun y g hg =>
      denvRegResult_writeDenvReg _ _ fun h => readOnly_of_not_mayWrite_wr hg (h ▸ rfl)
  | sq q r =>
    exact .onSquare fun y g hg =>
      sqRegResult_writeSqReg _ _ fun h => readOnly_of_not_mayWrite_wr hg (h ▸ rfl)
  | nz n r =>
    exact .onNoise fun y g hg =>
      nzRegResult_writeNzReg _ _ fun h => readOnly_of_not_mayWrite_wr hg (h ▸ rfl)
  | str | dl => exact .withResult _ s _

/-- The frame of `STR.NOTEON`: the string's registers, its delay line and its count of draws. -/
theorem State.FrameOf.strNoteOn (u : UnitIx) (f : Word32) (s : State)
    (g : StringVoice Sample → StringVoice Sample × Result Sample) :
    State.FrameOf (.strNoteOn u f) s (s.onString u g) :=
  .onString (fun _ _ hr => absurd (by simp [mayWrite]) hr) (fun _ => by simp [mayWrite])
    (fun _ h => absurd rfl (h f))

/-- The frame of `STR.TICK`: the cursor and the delay line, but no draw (43_string_voice R147). -/
theorem State.FrameOf.strTick (u : UnitIx) (x : Word32) (s : State) (par : Params Sample) :
    State.FrameOf (.strTick u x) s
      (s.onString u fun v => ((strTick numF32 par v).1, .sample (strTick numF32 par v).2)) := by
  refine .onString (fun v r hr => ?_) (fun _ => by simp [mayWrite]) (fun _ _ => rfl)
  cases r with
  | cur => exact absurd (by simp [mayWrite]) hr
  | N => rfl

/-- `DENV.TICK` changes `counter`, `sel` and `out` only (44_discrete_envelope R165). -/
theorem denvTick_cases (num : Num S) (g : Denv S) :
    ∃ c sel out, denvTick num g = { g with counter := c, sel := sel, out := out } := by
  have hadv (dir : Direction) (out : S) :
      ∃ c sel, denvAdvance dir { g with out := out } = { g with counter := c, sel := sel, out := out } := by
    simp only [denvAdvance]
    split
    · exact ⟨_, _, rfl⟩
    · exact ⟨_, _, rfl⟩
  unfold denvTick
  split
  · obtain ⟨c, sel, h⟩ := hadv .leavingDecay (num.sub num.one (rampfrac num g.counter g.period))
    exact ⟨c, sel, _, h⟩
  · obtain ⟨c, sel, h⟩ := hadv .leavingAttack (rampfrac num g.counter g.period)
    exact ⟨c, sel, _, h⟩
  · exact ⟨_, _, _, rfl⟩
  · exact ⟨_, _, _, rfl⟩

/-- Every command keeps what its entry of R42 does not name. -/
theorem exec_frame {i : Instr} {s t : State} (h : exec i s = .next t) : State.FrameOf i s t := by
  cases i with
  | rd loc => exact .of_exec (exec_rd _ _) h (.withResult _ s _)
  | wr loc x => exact .of_exec (exec_wr _ _ _) h (.writeLoc loc x s)
  | envSet v k gate =>
    exact .of_exec (exec_envSet _ _ _ _) h (.onVoice fun x => .envSet gate (fun r hr => by simp [mayWrite, hr]) x)
  | envUpd v k dt =>
    exact .of_exec (exec_envUpd _ _ _ _) h (.onVoice fun x => .envUpd dt (fun r hr => by simp [mayWrite, hr]) x)
  | envOut v k => exact .of_exec (exec_envOut _ _ _) h (.onVoice fun x => .refl x)
  | oscSetF v k f =>
    exact .of_exec (exec_oscSetF _ _ _ _) h (.onVoice fun x =>
      .oscSetF f (by simp [mayWrite]) (by simp [mayWrite]) x)
  | oscUpd v k dt =>
    refine .of_exec (exec_oscUpd _ _ _ _) h (.onVoice fun x => .oscUpd dt ?_ ?_ ?_ (fun j hj => ?_) x)
    · simp [mayWrite]
    · simp [mayWrite]
    · simp [mayWrite]
    · simp [mayWrite, hj]
  | oscOut v k => exact .of_exec (exec_oscOut _ _ _) h (.onVoice fun x => .refl x)
  | fmNoteOn v f =>
    refine .of_exec (exec_fmNoteOn _ _ _) h (.onVoice fun x =>
      .noteOn f (fun k r hr => ?_) (fun k => ?_) (fun k => ?_) x)
    · simp [mayWrite, hr]
    · simp [mayWrite]
    · simp [mayWrite]
  | fmNoteOff v =>
    exact .of_exec (exec_fmNoteOff _ _) h (.onVoice fun x => .gate false (fun k r hr => by simp [mayWrite, hr]) x)
  | fmTick v dt =>
    refine .of_exec (exec_fmTick _ _ _) h (.onVoice fun x =>
      .advance dt (fun k r hr => ?_) (fun k => ?_) (fun k => ?_) (fun k => ?_) x)
    · simp [mayWrite, hr]
    · simp [mayWrite]
    · simp [mayWrite]
    · simp [mayWrite]
  | strNoteOn u f => exact .of_exec (exec_strNoteOn _ _ _) h (.strNoteOn u f s _)
  | strNoteOff u => exact .of_exec (exec_strNoteOff _ _) h (.withResult _ s _)
  | strTick u x => exact .of_exec (exec_strTick _ _ _) h (.strTick u x s s.par)
  | denvSetFlags d x =>
    refine .of_exec (exec_denvSetFlags _ _ _) h (.onDenv fun g r hr => ?_)
    cases r with
    | flags | sel => exact absurd (by simp [mayWrite]) hr
    | period | counter | out => rfl
  | denvTick d =>
    refine .of_exec (exec_denvTick _ _) h (.onDenv fun g r hr => ?_)
    obtain ⟨c, sel, out, hg⟩ := denvTick_cases numF32 g
    rw [hg]
    cases r with
    | counter | sel | out => exact absurd (by simp [mayWrite]) hr
    | period | flags => rfl
  | sqTick q =>
    refine .of_exec (exec_sqTick _ _) h (.onSquare fun g r hr => ?_)
    cases r with
    | counter | out => exact absurd (by simp [mayWrite]) hr
    | period => rfl
  | nzTick n =>
    refine .of_exec (exec_nzTick _ _) h (.onNoise fun g r hr => ?_)
    cases r with
    | counter | out | rng => exact absurd (by simp [mayWrite]) hr
    | period => rfl
  | bankTick dt =>
    refine .of_exec (exec_bankTick_map _ _) h ⟨?_, fun _ _ => rfl⟩
    refine State.OnlyChanges_voices fun v x =>
      .advance dt (fun k r hr => ?_) (fun k => ?_) (fun k => ?_) (fun k => ?_) x
    · simp [mayWrite, hr]
    · simp [mayWrite]
    · simp [mayWrite]
    · simp [mayWrite]

/-- Settles O6: the head of the stream is fetched, decoded and executed. -/
theorem stepRunsTheDecodedCommand : Obligations.StepRunsTheDecodedCommand :=
  fun _ _ _ _ hs hw => step_of_decode hs hw

/-- Settles O16: the frame of each command, by cases on the command. -/
theorem commandWritesOnlyItsLocations : Obligations.CommandWritesOnlyItsLocations :=
  fun _ _ _ h => exec_frame h

end Sys2Proof.Machine
end

section
/-! Commands to different units commute (20_memory R68 (c)): O17. Each command is confined to the units it is to: it leaves
every other unit alone, and what it makes of its own units and its result depends on those units only. Two commands confined
to disjoint units commute. -/

namespace Sys2Proof.Machine

/-! Two banks related unit by unit. -/

/-- Banks of one length whose units are related by `R`, which is told the low 8 bits of the index: a bank may be longer than
a `unit` field can address. -/
def BankRel {α : Type} (R : UnitIx → α → α → Prop) (xs ys : List α) : Prop :=
  xs.length = ys.length ∧ ∀ n x y, xs[n]? = some x → ys[n]? = some y → R (BitVec.ofNat 8 n) x y

section
variable {α : Type} {R : UnitIx → α → α → Prop} {xs ys zs : List α} {i : UnitIx}

theorem BankRel.refl (hR : ∀ i x, R i x x) (xs : List α) : BankRel R xs xs :=
  ⟨rfl, fun _ _ _ hx hy => Option.some.inj (hx.symm.trans hy) ▸ hR _ _⟩

theorem BankRel.symm (hR : ∀ i x y, R i x y → R i y x) (h : BankRel R xs ys) : BankRel R ys xs :=
  ⟨h.1.symm, fun n x y hx hy => hR _ _ _ (h.2 n y x hy hx)⟩

theorem BankRel.trans (hR : ∀ i x y z, R i x y → R i y z → R i x z) (h : BankRel R xs ys) (h' : BankRel R ys zs) :
    BankRel R xs zs := by
  refine ⟨h.1.trans h'.1, fun n x z hx hz => ?_⟩
  obtain ⟨hn, -⟩ := List.getElem?_eq_some_iff.1 hx
  have hy : ys[n]? = some (ys[n]'(h.1 ▸ hn)) := List.getElem?_eq_getElem _
  exact hR _ _ _ _ (h.2 n _ _ hx hy) (h'.2 n _ _ hy hz)

theorem BankRel.and {Q T : UnitIx → α → α → Prop} (hT : ∀ i x y, R i x y → Q i x y → T i x y) (h : BankRel R xs ys)
    (h' : BankRel Q xs ys) : BankRel T xs ys :=
  ⟨h.1, fun n x y hx hy => hT _ _ _ (h.2 n x y hx hy) (h'.2 n x y hx hy)⟩

theorem BankRel.eq (hR : ∀ i x y, R i x y → x = y) (h : BankRel R xs ys) : xs = ys :=
  List.ext_getElem h.1 fun n hx hy => hR _ _ _ (h.2 n _ _ (List.getElem?_eq_getElem hx) (List.getElem?_eq_getElem hy))

/-- The unit at an index is missing from both banks, or there in both and related. -/
theorem BankRel.cases (h : BankRel R xs ys) (i : UnitIx) :
    (xs[i.toNat]? = none ∧ ys[i.toNat]? = none) ∨
      ∃ x y, xs[i.toNat]? = some x ∧ ys[i.toNat]? = some y ∧ R i x y := by
  by_cases hi : i.toNat < xs.length
  · have hx := List.getElem?_eq_getElem hi
    have hy := List.getElem?_eq_getElem (h.1 ▸ hi : i.toNat < ys.length)
    have hr := h.2 _ _ _ hx hy
    rw [BitVec.ofNat_toNat, BitVec.setWidth_eq] at hr
    exact .inr ⟨_, _, hx, hy, hr⟩
  · exact .inl ⟨List.getElem?_eq_none (Nat.le_of_not_lt hi), List.getElem?_eq_none (h.1 ▸ Nat.le_of_not_lt hi)⟩

theorem BankRel.set {x y : α} (h : BankRel R xs ys) (hxy : R i x y) :
    BankRel R (xs.set i.toNat x) (ys.set i.toNat y) := by
  refine ⟨by simp [h.1], fun n a b ha hb => ?_⟩
  rw [List.getElem?_set] at ha hb
  by_cases hn : i.toNat = n
  · subst hn
    simp only [if_true, Option.ite_none_right_eq_some, Option.some.injEq] at ha hb
    rw [BitVec.ofNat_toNat, BitVec.setWidth_eq, ← ha.2, ← hb.2]
    exact hxy
  · rw [if_neg hn] at ha hb
    exact h.2 n a b ha hb

/-- Replacing one unit by a related one. -/
theorem BankRel.set_right {x y : α} (hR : ∀ i x, R i x x) (hx : xs[i.toNat]? = some x) (hxy : R i x y) :
    BankRel R xs (xs.set i.toNat y) := by
  have h := (BankRel.refl hR xs).set hxy
  rwa [set_unit_self hx] at h

end

/-! Two states that agree on some units. -/

/-- Two voices, both taken as voice `v`, agree on the envelopes and oscillators in `P`. -/
def FmVoice.AgreeOn (P : UnitId → Prop) (v : UnitIx) (x y : FmVoice Sample) : Prop :=
  (∀ k, P (.env v k) → (x.op k).env = (y.op k).env) ∧ (∀ k, P (.osc v k) → (x.op k).osc = (y.op k).osc)

/-- Two states have the same configuration and the same host stream, and agree on the units in `P`. -/
structure State.AgreeOn (P : UnitId → Prop) (s t : State) : Prop where
  par : s.par = t.par
  cmds : s.cmds = t.cmds
  fm : BankRel (FmVoice.AgreeOn P) s.fm t.fm
  str : BankRel (fun i x y => P (.str i) → x = y) s.str t.str
  denv : BankRel (fun i x y => P (.denv i) → x = y) s.denv t.denv
  sq : BankRel (fun i x y => P (.sq i) → x = y) s.sq t.sq
  nz : BankRel (fun i x y => P (.nz i) → x = y) s.nz t.nz

section
variable {P Q T : UnitId → Prop} {s t u : State} {v : UnitIx} {x y z : FmVoice Sample}

theorem FmVoice.AgreeOn.refl (x : FmVoice Sample) : FmVoice.AgreeOn P v x x :=
  ⟨fun _ _ => rfl, fun _ _ => rfl⟩

theorem FmVoice.AgreeOn.symm (h : FmVoice.AgreeOn P v x y) : FmVoice.AgreeOn P v y x :=
  ⟨fun k hk => (h.1 k hk).symm, fun k hk => (h.2 k hk).symm⟩

theorem FmVoice.AgreeOn.trans (h : FmVoice.AgreeOn P v x y) (h' : FmVoice.AgreeOn P v y z) : FmVoice.AgreeOn P v x z :=
  ⟨fun k hk => (h.1 k hk).trans (h'.1 k hk), fun k hk => (h.2 k hk).trans (h'.2 k hk)⟩

theorem FmVoice.AgreeOn.union (hT : ∀ u, T u → P u ∨ Q u) (h : FmVoice.AgreeOn P v x y)
    (h' : FmVoice.AgreeOn Q v x y) : FmVoice.AgreeOn T v x y :=
  ⟨fun k hk => (hT _ hk).elim (h.1 k) (h'.1 k), fun k hk => (hT _ hk).elim (h.2 k) (h'.2 k)⟩

/-- Voices that agree on all of their envelopes and oscillators are equal. -/
theorem FmVoice.AgreeOn.eq (he : ∀ k, P (.env v k)) (ho : ∀ k, P (.osc v k)) (h : FmVoice.AgreeOn P v x y) : x = y :=
  FmVoice.ext_op fun k => by
    have henv := h.1 k (he k)
    have hosc := h.2 k (ho k)
    cases hx : x.op k
    cases hy : y.op k
    simp_all

theorem State.AgreeOn.refl (s : State) : State.AgreeOn P s s :=
  ⟨rfl, rfl, .refl (fun _ => .refl) _, .refl (fun _ _ _ => rfl) _, .refl (fun _ _ _ => rfl) _,
    .refl (fun _ _ _ => rfl) _, .refl (fun _ _ _ => rfl) _⟩

theorem State.AgreeOn.symm (h : State.AgreeOn P s t) : State.AgreeOn P t s where
  par := h.par.symm
  cmds := h.cmds.symm
  fm := h.fm.symm fun _ _ _ => .symm
  str := h.str.symm fun _ _ _ hR hP => (hR hP).symm
  denv := h.denv.symm fun _ _ _ hR hP => (hR hP).symm
  sq := h.sq.symm fun _ _ _ hR hP => (hR hP).symm
  nz := h.nz.symm fun _ _ _ hR hP => (hR hP).symm

theorem State.AgreeOn.trans (h : State.AgreeOn P s t) (h' : State.AgreeOn P t u) : State.AgreeOn P s u where
  par := h.par.trans h'.par
  cmds := h.cmds.trans h'.cmds
  fm := h.fm.trans (fun _ _ _ _ => .trans) h'.fm
  str := h.str.trans (fun _ _ _ _ hR hR' hP => (hR hP).trans (hR' hP)) h'.str
  denv := h.denv.trans (fun _ _ _ _ hR hR' hP => (hR hP).trans (hR' hP)) h'.denv
  sq := h.sq.trans (fun _ _ _ _ hR hR' hP => (hR hP).trans (hR' hP)) h'.sq
  nz := h.nz.trans (fun _ _ _ _ hR hR' hP => (hR hP).trans (hR' hP)) h'.nz

theorem State.AgreeOn.union (hT : ∀ u, T u → P u ∨ Q u) (h : State.AgreeOn P s t) (h' : State.AgreeOn Q s t) :
    State.AgreeOn T s t where
  par := h.par
  cmds := h.cmds
  fm := h.fm.and (fun _ _ _ => .union hT) h'.fm
  str := h.str.and (fun _ _ _ hR hR' hP => (hT _ hP).elim hR hR') h'.str
  denv := h.denv.and (fun _ _ _ hR hR' hP => (hT _ hP).elim hR hR') h'.denv
  sq := h.sq.and (fun _ _ _ hR hR' hP => (hT _ hP).elim hR hR') h'.sq
  nz := h.nz.and (fun _ _ _ hR hR' hP => (hT _ hP).elim hR hR') h'.nz

theorem State.AgreeOn.mono (hQ : ∀ u, Q u → P u) (h : State.AgreeOn P s t) : State.AgreeOn Q s t :=
  h.union (fun u hu => .inl (hQ u hu)) h

theorem State.AgreeOn.cfg (h : State.AgreeOn P s t) : s.cfg = t.cfg :=
  State.cfg_congr h.fm.1 h.str.1 h.denv.1 h.sq.1 h.nz.1 h.par

theorem State.AgreeOn.withResult (h : State.AgreeOn P s t) (r r' : Result Sample) :
    State.AgreeOn P (s.withResult r) (t.withResult r') := { h with }

/-- States that agree on every unit differ in the latest result at most. -/
theorem State.AgreeOn.eq (h : State.AgreeOn (fun _ => True) s t) : s.withResult .none = t.withResult .none := by
  have hfm := h.fm.eq fun _ _ _ hR => hR.eq (fun _ => trivial) (fun _ => trivial)
  have hstr := h.str.eq fun _ _ _ hR => hR trivial
  have hdenv := h.denv.eq fun _ _ _ hR => hR trivial
  have hsq := h.sq.eq fun _ _ _ hR => hR trivial
  have hnz := h.nz.eq fun _ _ _ hR => hR trivial
  simp [State.withResult, hfm, hstr, hdenv, hsq, hnz, h.par, h.cmds]

/-- A location of a unit in `P` reads alike. -/
theorem State.AgreeOn.readLoc {loc : Loc} (hP : P (locUnit loc)) (h : State.AgreeOn P s t) :
    s.readLoc loc = t.readLoc loc := by
  cases loc with
  | env v k r =>
    obtain ⟨hx, hy⟩ | ⟨x, y, hx, hy, hR⟩ := h.fm.cases v
    · simp [State.readLoc, hx, hy]
    · rw [State.readLoc_env_of hx, State.readLoc_env_of hy, hR.1 k hP]
  | osc v k r =>
    obtain ⟨hx, hy⟩ | ⟨x, y, hx, hy, hR⟩ := h.fm.cases v
    · simp [State.readLoc, hx, hy]
    · rw [State.readLoc_osc_of hx, State.readLoc_osc_of hy, hR.2 k hP]
  | str i r =>
    obtain ⟨hx, hy⟩ | ⟨x, y, hx, hy, hR⟩ := h.str.cases i
    · simp [State.readLoc, hx, hy]
    · rw [State.readLoc_str_of hx, State.readLoc_str_of hy, hR hP]
  | denv d r =>
    obtain ⟨hx, hy⟩ | ⟨x, y, hx, hy, hR⟩ := h.denv.cases d
    · simp [State.readLoc, hx, hy]
    · rw [State.readLoc_denv_of hx, State.readLoc_denv_of hy, hR hP]
  | sq q r =>
    obtain ⟨hx, hy⟩ | ⟨x, y, hx, hy, hR⟩ := h.sq.cases q
    · simp [State.readLoc, hx, hy]
    · rw [State.readLoc_sq_of hx, State.readLoc_sq_of hy, hR hP]
  | nz n r =>
    obtain ⟨hx, hy⟩ | ⟨x, y, hx, hy, hR⟩ := h.nz.cases n
    · simp [State.readLoc, hx, hy]
    · rw [State.readLoc_nz_of hx, State.readLoc_nz_of hy, hR hP]
  | dl i a =>
    obtain ⟨hx, hy⟩ | ⟨x, y, hx, hy, hR⟩ := h.str.cases i
    · simp [State.readLoc, hx, hy]
    · rw [State.readLoc_dl_of hx, State.readLoc_dl_of hy, hR hP, h.par]

end

/-! Operations confined to some units. -/

/-- An operation on states changes no unit outside `P`, and what it makes of the units in `P` and presents depends on
those units and the configuration only. -/
structure State.Confined (P : UnitId → Prop) (e : State → State) : Prop where
  frame : ∀ s, State.AgreeOn (fun u => ¬ P u) s (e s)
  depends : ∀ s t, State.AgreeOn P s t → State.AgreeOn P (e s) (e t) ∧ (e s).result = (e t).result

/-- A command always answers a next state, by an operation confined to the units it is to. -/
def ExecConfined (i : Instr) : Prop :=
  ∃ e, (∀ s, exec i s = .next (e s)) ∧ State.Confined (fun u => touches i u = true) e

/-- Operations confined to disjoint units commute, and neither sees in its result whether the other went first. -/
theorem State.Confined.commute {P Q : UnitId → Prop} {e f : State → State} (he : State.Confined P e)
    (hf : State.Confined Q f) (hPQ : ∀ u, P u → ¬ Q u) (s : State) :
    (f (e s)).withResult .none = (e (f s)).withResult .none ∧
      (e s).result = (e (f s)).result ∧ (f (e s)).result = (f s).result := by
  obtain ⟨hP, hre⟩ := he.depends s (f s) ((hf.frame s).mono hPQ)
  obtain ⟨hQ, hrf⟩ := hf.depends s (e s) ((he.frame s).mono fun u hQ hP => hPQ u hP hQ)
  have onP : State.AgreeOn P (f (e s)) (e (f s)) := (((hf.frame (e s)).mono hPQ).symm).trans hP
  have onQ : State.AgreeOn Q (f (e s)) (e (f s)) :=
    hQ.symm.trans ((he.frame (f s)).mono fun u hQ hP => hPQ u hP hQ)
  have onRest : State.AgreeOn (fun u => ¬ P u ∧ ¬ Q u) (f (e s)) (e (f s)) :=
    ((((he.frame s).mono fun _ h => h.1).trans ((hf.frame (e s)).mono fun _ h => h.2)).symm).trans
      (((hf.frame s).mono fun _ h => h.2).trans ((he.frame (f s)).mono fun _ h => h.1))
  have onAll := (onP.union (T := fun u => P u ∨ Q u) (fun _ h => h) onQ).union (T := fun _ => True)
    (fun u _ => by tauto) onRest
  exact ⟨onAll.eq, hre, hrf.symm⟩

section
variable {P : UnitId → Prop} {s t : State}

/-- A meaning whose effect is confined is confined: its legality depends on the configuration only. -/
theorem ExecConfined.of_exec {i : Instr} {effect : State → State} (hexec : ∀ s, exec i s = perform i s effect)
    (he : State.Confined (fun u => touches i u = true) effect) : ExecConfined i := by
  refine ⟨fun s => if legal s.cfg i then effect s else s.ignore, hexec, fun s => ?_, fun s t h => ?_⟩
  · split
    · exact he.frame s
    · exact (State.AgreeOn.refl s).withResult s.result .none
  · rw [h.cfg]
    split
    · exact he.depends s t h
    · exact ⟨h.withResult _ _, rfl⟩

/-- Presenting a result that depends on units in `P`. -/
theorem State.Confined.withResult {r : State → Result Sample} (hr : ∀ s t, State.AgreeOn P s t → r s = r t) :
    State.Confined P fun s => s.withResult (r s) :=
  ⟨fun s => (State.AgreeOn.refl s).withResult s.result _, fun s t h => ⟨h.withResult _ _, hr s t h⟩⟩

/-- Stepping one unit of a bank leaves the states related if it leaves that unit related. -/
theorem State.AgreeOn.onUnit_right {α : Type} {R : UnitIx → α → α → Prop} {xs : List α}
    {put : State → List α → State} {i : UnitIx} {f : α → α × Result Sample} (hR : ∀ i x, R i x x)
    (hput : ∀ ys, BankRel R xs ys → State.AgreeOn P s (put s ys)) (hf : ∀ x, R i x (f x).1) :
    State.AgreeOn P s (s.onUnit xs put i f) := by
  obtain ⟨x, hx, h⟩ | ⟨-, h⟩ := s.onUnit_cases xs put i f
  · rw [h]
    exact (hput _ (.set_right hR hx (hf x))).withResult s.result _
  · rw [h]
    exact (State.AgreeOn.refl s).withResult s.result .none

/-- Stepping the same unit of two related banks leaves them related and presents one result, if the unit does. -/
theorem State.AgreeOn.onUnit {α : Type} {R : UnitIx → α → α → Prop} {xs ys : List α}
    {put : State → List α → State} {i : UnitIx} {f g : α → α × Result Sample} (h : State.AgreeOn P s t)
    (hxs : BankRel R xs ys) (hput : ∀ xs ys, BankRel R xs ys → State.AgreeOn P (put s xs) (put t ys))
    (hfg : ∀ x y, R i x y → R i (f x).1 (g y).1 ∧ (f x).2 = (g y).2) :
    State.AgreeOn P (s.onUnit xs put i f) (t.onUnit ys put i g) ∧
      (s.onUnit xs put i f).result = (t.onUnit ys put i g).result := by
  obtain ⟨hx, hy⟩ | ⟨x, y, hx, hy, hxy⟩ := hxs.cases i
  · simp only [State.onUnit, hx, hy]
    exact ⟨h.withResult .none .none, rfl⟩
  · obtain ⟨hnew, hres⟩ := hfg x y hxy
    rw [State.onUnit_some hx, State.onUnit_some hy]
    exact ⟨(hput _ _ (hxs.set hnew)).withResult _ _, hres⟩

theorem State.Confined.onString {i : UnitIx} (hP : P (.str i))
    (f : Params Sample → StringVoice Sample → StringVoice Sample × Result Sample) :
    State.Confined P fun s => s.onString i (f s.par) where
  frame s := .onUnit_right (fun _ _ _ => rfl) (fun _ hb => { State.AgreeOn.refl s with str := hb })
    fun _ hn => absurd hP hn
  depends s t h := State.AgreeOn.onUnit h h.str (fun _ _ hb => { h with str := hb })
    fun x y hxy => by simp [hxy hP, h.par]

theorem State.Confined.onDenv {d : UnitIx} (hP : P (.denv d)) (f : Denv Sample → Denv Sample × Result Sample) :
    State.Confined P fun s => s.onDenv d f where
  frame s := .onUnit_right (fun _ _ _ => rfl) (fun _ hb => { State.AgreeOn.refl s with denv := hb })
    fun _ hn => absurd hP hn
  depends s t h := State.AgreeOn.onUnit h h.denv (fun _ _ hb => { h with denv := hb }) fun x y hxy => by simp [hxy hP]

theorem State.Confined.onSquare {q : UnitIx} (hP : P (.sq q)) (f : Square → Square × Result Sample) :
    State.Confined P fun s => s.onSquare q f where
  frame s := .onUnit_right (fun _ _ _ => rfl) (fun _ hb => { State.AgreeOn.refl s with sq := hb })
    fun _ hn => absurd hP hn
  depends s t h := State.AgreeOn.onUnit h h.sq (fun _ _ hb => { h with sq := hb }) fun x y hxy => by simp [hxy hP]

theorem State.Confined.onNoise {n : UnitIx} (hP : P (.nz n)) (f : Noise → Noise × Result Sample) :
    State.Confined P fun s => s.onNoise n f where
  frame s := .onUnit_right (fun _ _ _ => rfl) (fun _ hb => { State.AgreeOn.refl s with nz := hb })
    fun _ hn => absurd hP hn
  depends s t h := State.AgreeOn.onUnit h h.nz (fun _ _ hb => { h with nz := hb }) fun x y hxy => by simp [hxy hP]

end

/-- An operation on voice `v` confined to the envelopes and oscillators in `P`. -/
structure FmVoice.Confined (P : UnitId → Prop) (v : UnitIx) (f : FmVoice Sample → FmVoice Sample × Result Sample) :
    Prop where
  frame : ∀ x, FmVoice.AgreeOn (fun u => ¬ P u) v x (f x).1
  depends : ∀ x y, FmVoice.AgreeOn P v x y → FmVoice.AgreeOn P v (f x).1 (f y).1 ∧ (f x).2 = (f y).2

section
variable {P : UnitId → Prop} {v : UnitIx} {k : OpIx}

theorem State.Confined.onVoice {f : FmVoice Sample → FmVoice Sample × Result Sample} (hf : FmVoice.Confined P v f) :
    State.Confined P fun s => s.onVoice v f where
  frame s := .onUnit_right (fun _ => .refl)
    (fun _ hb => { State.AgreeOn.refl (P := fun u => ¬ P u) s with fm := hb }) hf.frame
  depends _ _ h := State.AgreeOn.onUnit h h.fm (fun _ _ hb => { h with fm := hb }) hf.depends

/-- A command to the whole voice. -/
theorem FmVoice.Confined.whole (he : ∀ k, P (.env v k)) (ho : ∀ k, P (.osc v k))
    (f : FmVoice Sample → FmVoice Sample × Result Sample) : FmVoice.Confined P v f where
  frame _ := ⟨fun k hn => absurd (he k) hn, fun k hn => absurd (ho k) hn⟩
  depends x y h := by
    rw [h.eq he ho]
    exact ⟨.refl _, rfl⟩

/-- A command that presents a value read from the voice. -/
theorem FmVoice.Confined.present {r : FmVoice Sample → Result Sample}
    (hr : ∀ x y, FmVoice.AgreeOn P v x y → r x = r y) : FmVoice.Confined P v fun x => (x, r x) where
  frame x := .refl x
  depends x y h := ⟨h, hr x y h⟩

/-- An envelope in `P` replaced by one made from units in `P`. -/
theorem FmVoice.Confined.setEnv (hP : P (.env v k)) (e : Envelope Sample → Envelope Sample) :
    FmVoice.Confined P v fun x => (x.setEnv k (e (x.op k).env), .none) where
  frame x := by
    refine ⟨fun j hn => ?_, fun j _ => by rw [FmVoice.setEnv_osc]⟩
    have hj : j ≠ k := fun h => hn (h ▸ hP)
    rw [FmVoice.setEnv_env_other _ _ hj]
  depends x y h := by
    refine ⟨⟨fun j hj => ?_, fun j hj => by simpa only [FmVoice.setEnv_osc] using h.2 j hj⟩, rfl⟩
    by_cases hjk : j = k
    · subst hjk
      rw [FmVoice.setEnv_env_same, FmVoice.setEnv_env_same, h.1 j hP]
    · rw [FmVoice.setEnv_env_other _ _ hjk, FmVoice.setEnv_env_other _ _ hjk, h.1 j hj]

/-- An oscillator in `P` replaced by one made from units in `P`. -/
theorem FmVoice.Confined.setOsc (hP : P (.osc v k)) {o : FmVoice Sample → Oscillator Sample}
    (ho : ∀ x y, FmVoice.AgreeOn P v x y → o x = o y) : FmVoice.Confined P v fun x => (x.setOsc k (o x), .none) where
  frame x := by
    refine ⟨fun j _ => by rw [FmVoice.setOsc_env], fun j hn => ?_⟩
    have hj : j ≠ k := fun h => hn (h ▸ hP)
    rw [FmVoice.setOsc_osc_other _ _ hj]
  depends x y h := by
    refine ⟨⟨fun j hj => by simpa only [FmVoice.setOsc_env] using h.1 j hj, fun j hj => ?_⟩, rfl⟩
    by_cases hjk : j = k
    · subst hjk
      rw [FmVoice.setOsc_osc_same, FmVoice.setOsc_osc_same, ho x y h]
    · rw [FmVoice.setOsc_osc_other _ _ hjk, FmVoice.setOsc_osc_other _ _ hjk, h.2 j hj]

/-- One confined operation after another. -/
theorem FmVoice.Confined.comp {f g : FmVoice Sample → FmVoice Sample × Result Sample} (hf : FmVoice.Confined P v f)
    (hg : FmVoice.Confined P v g) : FmVoice.Confined P v fun x => g (f x).1 where
  frame x := (hf.frame x).trans (hg.frame _)
  depends x y h := hg.depends _ _ (hf.depends x y h).1

/-- `OSC.UPD` is confined to its oscillator and the one it feeds (R68 (c)). -/
theorem FmVoice.Confined.oscUpd (dt : Sample) (hP : P (.osc v k)) (htgt : ∀ j, oscTarget k = some j → P (.osc v j)) :
    FmVoice.Confined P v fun x => (oscUpd numF32 k dt x, .none) := by
  have hadvance : FmVoice.Confined P v fun x => (x.setOsc k (oscAdvance numF32 dt (x.op k).osc), .none) :=
    .setOsc hP fun x y h => by rw [h.2 k hP]
  have hpush (j : OpIx) (hj : P (.osc v j)) :
      FmVoice.Confined P v fun x => (x.setOsc j (oscPush numF32 (x.op k).osc.raw (x.op j).osc), .none) :=
    .setOsc hj fun x y h => by rw [h.2 k hP, h.2 j hj]
  cases k with
  | op0 => exact hadvance
  | op1 => exact hadvance.comp (hpush .op0 (htgt _ rfl))
  | op2 => exact hadvance.comp (hpush .op0 (htgt _ rfl))

theorem FmVoice.Confined.gate (gate : Bool) (hP : ∀ k, P (.env v k)) :
    FmVoice.Confined P v fun x => (voiceGate numF32 gate x, .none) :=
  ((FmVoice.Confined.setEnv (hP .op0) (envSet numF32 gate)).comp (.setEnv (hP .op1) (envSet numF32 gate))).comp
    (.setEnv (hP .op2) (envSet numF32 gate))

/-- `WR` is confined to the unit of its location. -/
theorem State.Confined.writeLoc {loc : Loc} (hP : P (locUnit loc)) (x : Word32) :
    State.Confined P fun s => s.writeLoc loc x := by
  cases loc with
  | env v k r => exact .onVoice (.setEnv hP fun e => writeEnvReg e r (numF32.ofF32 x))
  | osc v k r => exact .onVoice (.setOsc hP fun y z h => by rw [h.2 k hP])
  | denv d r => exact .onDenv hP _
  | sq q r => exact .onSquare hP _
  | nz n r => exact .onNoise hP _
  | str | dl => exact .withResult fun _ _ _ => rfl

end

/-- `BANK.TICK` is confined to the FM voices. -/
theorem State.Confined.bankTick {P : UnitId → Prop} (he : ∀ v k, P (.env v k)) (ho : ∀ v k, P (.osc v k))
    (f : FmVoice Sample → FmVoice Sample) (r : List (FmVoice Sample) → Result Sample) :
    State.Confined P fun s => (s.withFm (s.fm.map f)).withResult (r s.fm) where
  frame s := { State.AgreeOn.refl (P := fun u => ¬ P u) s with
    fm := ⟨by simp, fun _ _ _ _ _ => ⟨fun k hn => absurd (he _ k) hn, fun k hn => absurd (ho _ k) hn⟩⟩ }
  depends s t h := by
    have hfm : s.fm = t.fm := h.fm.eq fun v _ _ hR => hR.eq (he v) (ho v)
    simp only [hfm]
    exact ⟨{ h with fm := .refl (fun _ => .refl) _ }, rfl⟩

/-- Every command is confined to the units it is to. -/
theorem exec_confined (i : Instr) : ExecConfined i := by
  cases i with
  | rd loc =>
    exact .of_exec (exec_rd loc) (.withResult fun _ _ h => h.readLoc (by simp [touches]))
  | wr loc x => exact .of_exec (exec_wr loc x) (.writeLoc (by simp [touches]) x)
  | envSet v k gate =>
    exact .of_exec (exec_envSet v k gate) (.onVoice (.setEnv (by simp [touches]) (envSet numF32 gate)))
  | envUpd v k dt =>
    exact .of_exec (exec_envUpd v k dt) (.onVoice (.setEnv (by simp [touches]) (envUpd numF32 dt)))
  | envOut v k =>
    exact .of_exec (exec_envOut v k) (.onVoice (.present fun _ _ h => by rw [h.1 k (by simp [touches])]))
  | oscSetF v k f =>
    exact .of_exec (exec_oscSetF v k f)
      (.onVoice (.setOsc (by simp [touches]) fun _ _ h => by rw [h.2 k (by simp [touches])]))
  | oscUpd v k dt =>
    exact .of_exec (exec_oscUpd v k dt)
      (.onVoice (.oscUpd dt (by simp [touches]) fun j hj => by simp [touches, hj]))
  | oscOut v k =>
    exact .of_exec (exec_oscOut v k) (.onVoice (.present fun _ _ h => by rw [h.2 k (by simp [touches])]))
  | fmNoteOn v f =>
    exact .of_exec (exec_fmNoteOn v f)
      (.onVoice (.whole (by simp [touches, touches.ofVoice]) (by simp [touches, touches.ofVoice]) _))
  | fmNoteOff v => exact .of_exec (exec_fmNoteOff v) (.onVoice (.gate false (by simp [touches])))
  | fmTick v dt =>
    exact .of_exec (exec_fmTick v dt)
      (.onVoice (.whole (by simp [touches, touches.ofVoice]) (by simp [touches, touches.ofVoice]) _))
  | strNoteOn u f =>
    exact .of_exec (exec_strNoteOn u f)
      (.onString (by simp [touches]) fun par x => (strNoteOn numF32 par (x.draw u) f x, .none))
  | strNoteOff u => exact .of_exec (exec_strNoteOff u) (.withResult fun _ _ _ => rfl)
  | strTick u x =>
    exact .of_exec (exec_strTick u x)
      (.onString (by simp [touches]) fun par y => ((strTick numF32 par y).1, .sample (strTick numF32 par y).2))
  | denvSetFlags d x => exact .of_exec (exec_denvSetFlags d x) (.onDenv (by simp [touches]) _)
  | denvTick d => exact .of_exec (exec_denvTick d) (.onDenv (by simp [touches]) _)
  | sqTick q => exact .of_exec (exec_sqTick q) (.onSquare (by simp [touches]) _)
  | nzTick n => exact .of_exec (exec_nzTick n) (.onNoise (by simp [touches]) _)
  | bankTick dt =>
    exact .of_exec (exec_bankTick_map dt) (.bankTick (by simp [touches]) (by simp [touches]) _
      fun voices => .sample (bankTick numF32 dt voices numF32.zero).2)

/-- Settles O17: each command is confined to its units, and operations confined to disjoint units commute. -/
theorem commandsOnDifferentUnitsCommute : Obligations.CommandsOnDifferentUnitsCommute := by
  intro i j s hij
  obtain ⟨e, hexec, he⟩ := exec_confined i
  obtain ⟨f, hexec', hf⟩ := exec_confined j
  have hdisjoint : ∀ u, touches i u = true → ¬ touches j u = true := fun u hu => by simp [hij u hu]
  exact ⟨e s, f (e s), f s, e (f s), hexec _, hexec' _, hexec' _, hexec _, he.commute hf hdisjoint s⟩

end Sys2Proof.Machine
end

section
/-! Binary32 against the reals (00_scope R12): O54 to O57. A finite word is a whole number of units of 2^-149, so the one
fact behind every operation is that rounding a quotient of naturals of such units is rounding the real quotient. -/

namespace Sys2Proof.Machine

/-! The fields of a word. All but the sign are read from its 31 low bits. -/

theorem F32.absBits_lt (x : Sample) : F32.absBits x < 2 ^ 31 := Nat.mod_lt _ (by decide)

theorem F32.expField_eq (x : Sample) : F32.expField x = F32.absBits x / 2 ^ 23 := by
  unfold F32.expField F32.absBits
  omega

theorem F32.frac_eq (x : Sample) : F32.frac x = F32.absBits x % 2 ^ 23 := by
  unfold F32.frac F32.absBits
  omega

theorem F32.isFinite_iff {x : Sample} : F32.isFinite x = true ↔ F32.absBits x < 0x7F800000 := by
  have h := F32.absBits_lt x
  rw [F32.isFinite, bne_iff_ne, F32.expField_eq]
  omega

/-- A word is its sign and its 31 low bits. -/
theorem F32.pack_sign_absBits (x : Sample) : F32.pack (F32.sign x) (F32.absBits x) = x := by
  apply BitVec.eq_of_toNat_eq
  rw [F32.toNat_pack _ (F32.absBits_lt x), F32.sign, BitVec.msb_eq_decide, F32.absBits]
  have h := x.isLt
  split
  · next hs =>
    have := of_decide_eq_true hs
    omega
  · next hs =>
    have := of_decide_eq_false (Bool.eq_false_iff.2 hs)
    omega

@[simp] theorem F32.absBits_neg (x : Sample) : F32.absBits (F32.neg x) = F32.absBits x := by
  have h : (0x80000000#32).toNat % 2 ^ 31 = 0 := by decide
  rw [F32.absBits, F32.neg, BitVec.toNat_xor, Nat.xor_mod_two_pow, h, Nat.xor_zero, F32.absBits]

@[simp] theorem F32.sign_neg (x : Sample) : F32.sign (F32.neg x) = !F32.sign x := by
  have h : (0x80000000#32).msb = true := by decide
  rw [F32.sign, F32.sign, F32.neg, BitVec.msb_xor, h, Bool.xor_true]

@[simp] theorem F32.isFinite_neg (x : Sample) : F32.isFinite (F32.neg x) = F32.isFinite x := by
  simp [F32.isFinite, F32.expField_eq]

@[simp] theorem F32.isNan_neg (x : Sample) : F32.isNan (F32.neg x) = F32.isNan x := by
  simp [F32.isNan, F32.expField_eq, F32.frac_eq]

/-! The magnitude as a function of the 31 low bits. -/

/-- The magnitude of 31 low bits, in units of 2^-149. -/
def F32.magnitudeOf (b : Nat) : Nat :=
  if b / 2 ^ 23 = 0 then b % 2 ^ 23 else (2 ^ 23 + b % 2 ^ 23) * 2 ^ (b / 2 ^ 23 - 1)

theorem F32.magnitude_eq (x : Sample) : F32.magnitude x = F32.magnitudeOf (F32.absBits x) := by
  rw [F32.magnitude, F32.expField_eq, F32.frac_eq, F32.magnitudeOf]

@[simp] theorem F32.magnitude_neg (x : Sample) : F32.magnitude (F32.neg x) = F32.magnitude x := by
  simp [F32.magnitude_eq]

@[simp] theorem F32.toInt_neg (x : Sample) : F32.toInt (F32.neg x) = -F32.toInt x := by
  cases h : F32.sign x <;> simp [F32.toInt, h]

/-- The magnitude of an exponent and a fraction. -/
theorem F32.magnitudeOf_fields (e : Nat) {f : Nat} (hf : f < 2 ^ 23) :
    F32.magnitudeOf (e * 2 ^ 23 + f) = if e = 0 then f else (2 ^ 23 + f) * 2 ^ (e - 1) := by
  have he : (e * 2 ^ 23 + f) / 2 ^ 23 = e := by omega
  have hr : (e * 2 ^ 23 + f) % 2 ^ 23 = f := by omega
  rw [F32.magnitudeOf, he, hr]

/-- The 31 low bits as an exponent and a fraction. -/
theorem F32.exists_fields (b : Nat) : ∃ e f, f < 2 ^ 23 ∧ b = e * 2 ^ 23 + f :=
  ⟨b / 2 ^ 23, b % 2 ^ 23, Nat.mod_lt _ (by decide), (Nat.div_add_mod' b _).symm⟩

/-- The successor pattern has a larger magnitude, in the same binade or as the first of the next one. -/
theorem F32.magnitudeOf_lt_succ (b : Nat) : F32.magnitudeOf b < F32.magnitudeOf (b + 1) := by
  obtain ⟨e, f, hf, rfl⟩ := F32.exists_fields b
  by_cases hc : f + 1 < 2 ^ 23
  · rw [add_assoc, F32.magnitudeOf_fields e hf, F32.magnitudeOf_fields e hc]
    split
    · exact Nat.lt_succ_self f
    · exact Nat.mul_lt_mul_of_pos_right (by omega) (Nat.two_pow_pos _)
  · have hnext : e * 2 ^ 23 + f + 1 = (e + 1) * 2 ^ 23 + 0 := by omega
    rw [hnext, F32.magnitudeOf_fields e hf, F32.magnitudeOf_fields (e + 1) (by decide)]
    cases e with
    | zero => simpa using hf
    | succ e =>
      simp only [Nat.add_one_ne_zero, if_false, Nat.add_sub_cancel, pow_succ 2 e]
      calc (2 ^ 23 + f) * 2 ^ e < (2 ^ 23 * 2) * 2 ^ e := Nat.mul_lt_mul_of_pos_right (by omega) (Nat.two_pow_pos e)
        _ = (2 ^ 23 + 0) * (2 ^ e * 2) := by ring

theorem F32.magnitudeOf_strictMono : StrictMono F32.magnitudeOf := strictMono_nat_of_lt_succ F32.magnitudeOf_lt_succ

theorem F32.magnitude_lt_iff (x y : Sample) : F32.magnitude x < F32.magnitude y ↔ F32.absBits x < F32.absBits y := by
  rw [F32.magnitude_eq, F32.magnitude_eq, F32.magnitudeOf_strictMono.lt_iff_lt]

theorem F32.magnitude_eq_zero_iff (x : Sample) : F32.magnitude x = 0 ↔ F32.absBits x = 0 := by
  rw [F32.magnitude_eq]
  exact F32.magnitudeOf_strictMono.injective.eq_iff' rfl

/-- The ordered value of patterns orders the values of finite ones. -/
theorem F32.order_lt_iff (x y : Sample) : F32.order x < F32.order y ↔ F32.toInt x < F32.toInt y := by
  have hxy := F32.magnitude_lt_iff x y
  have hyx := F32.magnitude_lt_iff y x
  have hx := F32.magnitude_eq_zero_iff x
  have hy := F32.magnitude_eq_zero_iff y
  unfold F32.order F32.toInt
  split <;> split <;> omega

theorem F32.lt_iff {x y : Sample} (hx : F32.isFinite x = true) (hy : F32.isFinite y = true) :
    F32.lt x y = true ↔ F32.toInt x < F32.toInt y := by
  simp [F32.lt, F32.isNan_of_isFinite hx, F32.isNan_of_isFinite hy, F32.order_lt_iff]

theorem F32.le_iff {x y : Sample} (hx : F32.isFinite x = true) (hy : F32.isFinite y = true) :
    F32.le x y = true ↔ F32.toInt x ≤ F32.toInt y := by
  rw [← not_lt, ← F32.order_lt_iff, not_lt]
  simp [F32.le, F32.isNan_of_isFinite hx, F32.isNan_of_isFinite hy]

/-! The real value of a finite word. -/

/-- The real value of a finite word is its integer value in units of 2^-149. -/
theorem realOfF32_eq_toInt {w : Word32} (h : F32.isFinite w = true) : realOfF32 w = F32.toInt w / 2 ^ 149 := by
  have hmag : (if F32.expField w = 0 then (F32.frac w : ℝ) * 2 ^ (-149 : ℤ)
      else (2 ^ 23 + F32.frac w) * 2 ^ ((F32.expField w : ℤ) - 150)) = F32.magnitude w / 2 ^ 149 := by
    rw [F32.magnitude, div_eq_mul_inv, show ((2 : ℝ) ^ 149)⁻¹ = 2 ^ (-149 : ℤ) by rw [zpow_neg]; rfl]
    split
    · rfl
    · next he =>
      have hexp : (F32.expField w : ℤ) - 150 = (F32.expField w - 1 : ℕ) + (-149) := by omega
      rw [hexp, zpow_add₀ two_ne_zero, zpow_natCast]
      push_cast
      ring
  have he : w.toNat / 2 ^ 23 % 2 ^ 8 = F32.expField w := rfl
  have hf : w.toNat % 2 ^ 23 = F32.frac w := rfl
  have hs : w.msb = F32.sign w := rfl
  simp only [realOfF32_of_isFinite h, he, hf, hs, hmag, F32.toInt]
  split
  · push_cast
    ring
  · push_cast
    ring

theorem F32.abs_toInt (w : Sample) : |(F32.toInt w : ℝ)| = F32.magnitude w := by
  cases h : F32.sign w <;> simp [F32.toInt, h]

theorem abs_realOfF32 {w : Word32} (h : F32.isFinite w = true) : |realOfF32 w| = F32.magnitude w / 2 ^ 149 := by
  rw [realOfF32_eq_toInt h, abs_div, F32.abs_toInt, abs_of_pos (by positivity : (0 : ℝ) < 2 ^ 149)]

/-- A finite word other than a zero is negative when its sign bit is set. -/
theorem realOfF32_neg_iff {w : Word32} (h : F32.isFinite w = true) (h0 : realOfF32 w ≠ 0) :
    realOfF32 w < 0 ↔ F32.sign w = true := by
  have hm : F32.magnitude w ≠ 0 := fun hm => h0 (by simpa [hm] using abs_realOfF32 h)
  rw [realOfF32_eq_toInt h, div_neg_iff]
  have h149 : (0 : ℝ) < 2 ^ 149 := by positivity
  cases hs : F32.sign w <;> simp [F32.toInt, hs, h149.not_gt, Nat.pos_of_ne_zero hm]

theorem realOfF32_neg {w : Word32} (h : F32.isFinite w = true) : realOfF32 (F32.neg w) = -realOfF32 w := by
  rw [realOfF32_eq_toInt h, realOfF32_eq_toInt (by simpa using h), F32.toInt_neg]
  push_cast
  ring

/-! Rounding. -/

/-- Rounding a quotient of naturals by its remainder is rounding the real quotient by its fraction. -/
theorem realRoundHalfEven_div (n : Nat) {d : Nat} (hd : 0 < d) :
    realRoundHalfEven ((n : ℝ) / d) = F32.roundHalfEven n d := by
  have hd' : (0 : ℝ) < d := by exact_mod_cast hd
  have hfrac : (n : ℝ) / d - (n / d : ℕ) = (n % d : ℕ) / d := by
    rw [div_sub' hd'.ne', ← Nat.cast_mul, sub_eq_of_eq_add]
    exact_mod_cast (Nat.mod_add_div n d).symm
  have hlt : ((n % d : ℕ) : ℝ) / d < 1 / 2 ↔ 2 * (n % d) < d := by
    rw [div_lt_div_iff₀ hd' two_pos, one_mul, mul_comm]
    exact_mod_cast Iff.rfl
  have hgt : (1 : ℝ) / 2 < ((n % d : ℕ) : ℝ) / d ↔ d < 2 * (n % d) := by
    rw [div_lt_div_iff₀ two_pos hd', one_mul, mul_comm]
    exact_mod_cast Iff.rfl
  simp only [realRoundHalfEven, Nat.floor_div_eq_div, hfrac, hlt, hgt, F32.roundHalfEven]

/-- The word nearest a real is the one rounding of its sign and of its magnitude in units of 2^-149. -/
theorem realToF32_eq_round {x : ℝ} {s : Bool} {n d : Nat} (hd : 0 < d) (hx : |x| * 2 ^ 149 = n / d)
    (hs : x < 0 ↔ s = true) : realToF32 x = F32.round s n d := by
  have hscale (k : Nat) : (n : ℝ) / d / 2 ^ k = (n : ℝ) / (d * 2 ^ k : ℕ) := by
    push_cast
    rw [div_div]
  simp only [realToF32, hx, Nat.floor_div_eq_div, hscale,
    realRoundHalfEven_div n (Nat.mul_pos hd (Nat.two_pow_pos _)), hs, F32.round, F32.pack, F32.roundBits]

/-- Nothing is rounded where the divisor divides. -/
theorem F32.roundHalfEven_mul_self (m : Nat) {d : Nat} (hd : 0 < d) : F32.roundHalfEven (m * d) d = m := by
  simp [F32.roundHalfEven, Nat.mul_div_cancel m hd, hd]

/-- Rounding the magnitude of finite bits gives the bits back. -/
theorem F32.roundBits_magnitudeOf {b : Nat} (hb : b < 0x7F800000) : F32.roundBits (F32.magnitudeOf b) 1 = b := by
  obtain ⟨e, f, hf, rfl⟩ := F32.exists_fields b
  rw [F32.magnitudeOf_fields e hf, F32.roundBits, Nat.div_one, one_mul]
  cases e with
  | zero =>
    have hlog : Nat.log2 f - 23 = 0 := by
      by_cases h0 : f = 0
      · simp [h0]
      · have := (Nat.log2_lt h0).2 hf
        omega
    have hround := F32.roundHalfEven_mul_self f Nat.one_pos
    rw [mul_one] at hround
    simp only [if_true, hlog, pow_zero, hround]
    omega
  | succ e =>
    have hpos := Nat.two_pow_pos e
    have hlog : Nat.log2 ((2 ^ 23 + f) * 2 ^ e) = 23 + e := by
      rw [Nat.log2_eq_iff (Nat.mul_pos (by omega) hpos).ne', pow_add, show 23 + e + 1 = 24 + e by omega, pow_add]
      exact ⟨Nat.mul_le_mul_right _ (by omega), Nat.mul_lt_mul_of_pos_right (by omega) hpos⟩
    have hround := F32.roundHalfEven_mul_self (2 ^ 23 + f) hpos
    simp only [Nat.add_one_ne_zero, if_false, Nat.add_sub_cancel, hlog, Nat.add_sub_cancel_left, hround]
    omega

/-! The operations on finite words. -/

section
variable {x y : Sample}

theorem F32.addAs_of_finite (src : NanSource) (hx : F32.isFinite x = true) (hy : F32.isFinite y = true)
    (hz : F32.toInt x + F32.toInt y ≠ 0) :
    F32.addAs src x y =
      F32.round (decide (F32.toInt x + F32.toInt y < 0)) (F32.toInt x + F32.toInt y).natAbs 1 := by
  simp [F32.addAs, F32.isNan_of_isFinite hx, F32.isNan_of_isFinite hy, F32.isInf_of_isFinite hx,
    F32.isInf_of_isFinite hy, hz]

theorem F32.mul_of_finite (hx : F32.isFinite x = true) (hy : F32.isFinite y = true) :
    F32.mul x y =
      F32.round (F32.sign x != F32.sign y) (F32.magnitude x * F32.magnitude y) (2 ^ 149) := by
  simp [F32.mul, F32.isNan_of_isFinite hx, F32.isNan_of_isFinite hy, F32.isInf_of_isFinite hx,
    F32.isInf_of_isFinite hy]

theorem F32.div_of_finite (hx : F32.isFinite x = true) (hy : F32.isFinite y = true) (h0 : F32.magnitude y ≠ 0) :
    F32.div x y =
      F32.round (F32.sign x != F32.sign y) (F32.magnitude x * 2 ^ 149) (F32.magnitude y) := by
  have hz : F32.isZero y = false := by
    simpa [F32.isZero, F32.magnitude_eq_zero_iff] using h0
  simp [F32.div, F32.isNan_of_isFinite hx, F32.isNan_of_isFinite hy, F32.isInf_of_isFinite hx,
    F32.isInf_of_isFinite hy, hz]

theorem addAs_eq_realToF32 (src : NanSource) (hx : F32.isFinite x = true) (hy : F32.isFinite y = true)
    (h0 : realOfF32 x + realOfF32 y ≠ 0) : F32.addAs src x y = realToF32 (realOfF32 x + realOfF32 y) := by
  have hsum : realOfF32 x + realOfF32 y = (F32.toInt x + F32.toInt y : ℤ) / 2 ^ 149 := by
    rw [realOfF32_eq_toInt hx, realOfF32_eq_toInt hy]
    push_cast
    ring
  have h149 : (0 : ℝ) < 2 ^ 149 := by positivity
  have hz : F32.toInt x + F32.toInt y ≠ 0 := fun hz => h0 (by rw [hsum, hz]; simp)
  rw [F32.addAs_of_finite src hx hy hz, hsum]
  refine (realToF32_eq_round Nat.one_pos ?_ ?_).symm
  · rw [abs_div, abs_of_pos h149, div_mul_cancel₀ _ h149.ne', Nat.cast_natAbs]
    push_cast
    ring
  · rw [decide_eq_true_iff, div_neg_iff]
    simp only [h149, h149.not_gt, and_false, and_true, false_or]
    exact_mod_cast Iff.rfl

/-- The sign of a product or quotient of two reals that are not zero. -/
theorem sign_bne_iff {a b : ℝ} {p q : Bool} (ha : a ≠ 0) (hb : b ≠ 0) (hp : a < 0 ↔ p = true)
    (hq : b < 0 ↔ q = true) : (0 < a ∧ b < 0 ∨ a < 0 ∧ 0 < b) ↔ (p != q) = true := by
  have ha' : 0 < a ↔ p = false := by
    rw [← Bool.not_eq_true, ← hp, not_lt]
    exact ⟨le_of_lt, fun h => lt_of_le_of_ne h ha.symm⟩
  have hb' : 0 < b ↔ q = false := by
    rw [← Bool.not_eq_true, ← hq, not_lt]
    exact ⟨le_of_lt, fun h => lt_of_le_of_ne h hb.symm⟩
  rw [ha', hb', hp, hq]
  cases p <;> cases q <;> simp

theorem mul_eq_realToF32 (hx : F32.isFinite x = true) (hy : F32.isFinite y = true)
    (h0 : realOfF32 x * realOfF32 y ≠ 0) : F32.mul x y = realToF32 (realOfF32 x * realOfF32 y) := by
  obtain ⟨hx0, hy0⟩ := mul_ne_zero_iff.1 h0
  rw [F32.mul_of_finite hx hy]
  refine (realToF32_eq_round (Nat.two_pow_pos 149) ?_ ?_).symm
  · rw [abs_mul, abs_realOfF32 hx, abs_realOfF32 hy]
    push_cast
    field_simp
    ring
  · rw [mul_neg_iff]
    exact sign_bne_iff hx0 hy0 (realOfF32_neg_iff hx hx0) (realOfF32_neg_iff hy hy0)

theorem div_eq_realToF32 (hx : F32.isFinite x = true) (hy : F32.isFinite y = true) (hy0 : realOfF32 y ≠ 0)
    (h0 : realOfF32 x / realOfF32 y ≠ 0) : F32.div x y = realToF32 (realOfF32 x / realOfF32 y) := by
  have hx0 : realOfF32 x ≠ 0 := fun h => h0 (by rw [h, zero_div])
  have hm : F32.magnitude y ≠ 0 := fun hm => hy0 (by simpa [hm] using abs_realOfF32 hy)
  rw [F32.div_of_finite hx hy hm]
  refine (realToF32_eq_round (Nat.pos_of_ne_zero hm) ?_ ?_).symm
  · rw [abs_div, abs_realOfF32 hx, abs_realOfF32 hy]
    push_cast
    field_simp
    ring
  · rw [div_neg_iff]
    exact sign_bne_iff hx0 hy0 (realOfF32_neg_iff hx hx0) (realOfF32_neg_iff hy hy0)

/-! Rounding to an integer. -/

/-- The nearest integer to a magnitude in units of 2^-149. -/
theorem realRnd_units (m : Nat) : realRnd ((m : ℝ) / 2 ^ 149) = ((2 * m + 2 ^ 149) / 2 ^ 150 : ℕ) := by
  have h : (m : ℝ) / 2 ^ 149 + 1 / 2 = ((2 * m + 2 ^ 149 : ℕ) : ℝ) / (2 ^ 150 : ℕ) := by
    push_cast
    ring
  rw [realRnd, if_pos (by positivity), h, ← Int.natCast_floor_eq_floor (by positivity), Nat.floor_div_eq_div]

theorem realRnd_zero : realRnd 0 = 0 := by
  simpa using realRnd_units 0

/-- Ties away from zero round a real and its negative alike. -/
theorem realRnd_neg (a : ℝ) : realRnd (-a) = -realRnd a := by
  obtain h | h | h := lt_trichotomy a 0
  · simp [realRnd, h.le, h.not_ge]
  · simp [h, realRnd_zero]
  · simp [realRnd, h.le, h.not_ge]

theorem rnd_eq_realRnd (hx : F32.isFinite x = true) : F32.rnd x = realRnd (realOfF32 x) := by
  rw [F32.rnd, if_pos hx, realOfF32_eq_toInt hx, F32.toInt]
  cases F32.sign x with
  | false => exact (realRnd_units _).symm
  | true =>
    simp only [if_true, Int.cast_neg, Int.cast_natCast, neg_div]
    rw [realRnd_neg, realRnd_units]

/-! NaNs. -/

theorem F32.isNan_addAs (src : NanSource) (h : F32.isNan x = true ∨ F32.isNan y = true) :
    F32.isNan (F32.addAs src x y) = true := by
  rw [F32.addAs, if_pos (by simpa using h)]
  exact F32.isNan_nan _ _ _

end

/-- Settles O54: each operation is one rounding of a quotient of naturals, and so is `realToF32` of the exact result. -/
theorem binaryOperationsAreCorrectlyRounded : Obligations.BinaryOperationsAreCorrectlyRounded := by
  intro x y hx hy
  refine ⟨addAs_eq_realToF32 .add hx hy, fun h => ?_, mul_eq_realToF32 hx hy, div_eq_realToF32 hx hy⟩
  rw [sub_eq_add_neg, ← realOfF32_neg hy] at h ⊢
  exact addAs_eq_realToF32 .sub hx (by simpa using hy) h

/-- Settles O55: comparisons and `rnd` on the integer value of the words. -/
theorem comparisonsAndRoundingFollowTheReals : Obligations.ComparisonsAndRoundingFollowTheReals := by
  intro x y hx hy
  have h149 : (0 : ℝ) < 2 ^ 149 := by positivity
  rw [F32.lt_iff hx hy, F32.le_iff hx hy]
  refine ⟨?_, ?_, rnd_eq_realRnd hx⟩
  · rw [realOfF32_eq_toInt hx, realOfF32_eq_toInt hy, div_lt_div_iff_of_pos_right h149, Int.cast_lt]
  · rw [realOfF32_eq_toInt hx, realOfF32_eq_toInt hy, div_le_div_iff_of_pos_right h149, Int.cast_le]

theorem ofNat_eq_realToF32 (n : Nat) : F32.ofNat n = realToF32 n := by
  refine (realToF32_eq_round Nat.one_pos ?_ (by simp)).symm
  rw [Nat.abs_cast]
  push_cast
  ring

/-- A finite word but -0 is the word nearest its value. -/
theorem realToF32_realOfF32 {w : Word32} (h : F32.isFinite w = true) (hw : w ≠ 0x80000000#32) :
    realToF32 (realOfF32 w) = w := by
  have hround : realToF32 (realOfF32 w) = F32.round (F32.sign w) (F32.magnitude w) 1 := by
    refine realToF32_eq_round Nat.one_pos ?_ ?_
    · rw [abs_realOfF32 h]
      field_simp
      simp
    · by_cases h0 : realOfF32 w = 0
      · have hzero : F32.absBits w = 0 := by
          rw [← F32.magnitude_eq_zero_iff]
          simpa [h0] using (abs_realOfF32 h).symm
        have hsign : F32.sign w = false := by
          by_contra hs
          apply hw
          rw [← F32.pack_sign_absBits w, hzero, Bool.eq_true_of_not_eq_false hs]
          rfl
        simp [h0, hsign]
      · exact realOfF32_neg_iff h h0
  rw [hround, F32.round, F32.magnitude_eq, F32.roundBits_magnitudeOf (F32.isFinite_iff.1 h), F32.pack_sign_absBits]

/-- Settles O56: the rounding of a natural, and the rounding of a value that needs none. -/
theorem conversionsAreCorrectlyRounded : Obligations.ConversionsAreCorrectlyRounded :=
  ⟨ofNat_eq_realToF32, fun _ => realToF32_realOfF32⟩

/-- Settles O57: every operation tests for a NaN operand first. -/
theorem nansPropagateAndNeverCompare : Obligations.NansPropagateAndNeverCompare := by
  intro x y h
  have htest : (F32.isNan x || F32.isNan y) = true := by simpa using h
  refine ⟨F32.isNan_addAs _ h, F32.isNan_addAs _ (by simpa using h), ?_, ?_, ?_, ?_⟩
  · rw [F32.mul, if_pos htest]
    exact F32.isNan_nan _ _ _
  · rw [F32.div, if_pos htest]
    exact F32.isNan_nan _ _ _
  · obtain h | h := h <;> simp [F32.lt, h]
  · obtain h | h := h <;> simp [F32.le, h]

end Sys2Proof.Machine
end

section
/-! The state after reset (10_state R49, 70_reset R220): O12, O14 and O15. -/

namespace Sys2Proof.Machine

/-- The unit at an index of a bank that repeats one unit. -/
theorem getElem?_replicate_unit {α : Type} {n : Nat} {i : UnitIx} (x : α) (h : i.toNat < n) :
    (List.replicate n x)[i.toNat]? = some x := by
  rw [List.getElem?_replicate, if_pos h]

/-- Every location that exists reads its reset value in the reset state, by the class of the location. -/
theorem State.resetOf_readLoc {c : Cfg} {loc : Loc} (h : locExists c loc = true) :
    (State.resetOf c).readLoc loc = resetRead loc := by
  cases loc with
  | env v k r =>
    rw [State.readLoc_env_of (getElem?_replicate_unit _ (of_decide_eq_true h))]
    cases k <;> cases r <;> rfl
  | osc v k r =>
    rw [State.readLoc_osc_of (getElem?_replicate_unit _ (of_decide_eq_true h))]
    cases k <;> cases r <;> rfl
  | str i r =>
    rw [State.readLoc_str_of (getElem?_replicate_unit _ (of_decide_eq_true h))]
    cases r <;> rfl
  | denv d r =>
    rw [State.readLoc_denv_of (getElem?_replicate_unit _ (of_decide_eq_true h))]
    cases r <;> rfl
  | sq q r =>
    rw [State.readLoc_sq_of (getElem?_replicate_unit _ (of_decide_eq_true h))]
    cases r <;> rfl
  | nz n r =>
    rw [State.readLoc_nz_of (getElem?_replicate_unit _ (of_decide_eq_true h))]
    cases r <;> rfl
  | dl i a =>
    obtain ⟨hi, ha⟩ : i.toNat < c.ns ∧ a.toNat < c.par.cap := by simpa [locExists] using h
    have hcap : a.toNat < (State.resetOf c).par.cap := ha
    rw [State.readLoc_dl_of (getElem?_replicate_unit _ hi), if_pos hcap, numF32_zero]
    rfl

/-! The reset event. -/

theorem State.resetEvent_cfg (s : State) : s.resetEvent.cfg = s.cfg := by
  simp [State.resetEvent, State.resetOf, State.cfg]

/-- A string voice at the reset event differs from a string voice after reset in its count of draws at most (log 17). -/
theorem State.resetEvent_str_cases (s : State) (i : UnitIx) :
    ((State.resetOf s.cfg).str[i.toNat]? = none ∧ s.resetEvent.str[i.toNat]? = none) ∨
      ∃ x, (State.resetOf s.cfg).str[i.toNat]? = some StringVoice.reset ∧
        s.resetEvent.str[i.toNat]? = some (StringVoice.resetEvent x) := by
  have hreset : (State.resetOf s.cfg).str = List.replicate s.str.length StringVoice.reset := rfl
  have hevent : s.resetEvent.str = s.str.map StringVoice.resetEvent := rfl
  rw [hreset, hevent, List.getElem?_map]
  by_cases hi : i.toNat < s.str.length
  · obtain ⟨x, hx⟩ := exists_unit hi
    exact .inr ⟨x, getElem?_replicate_unit _ hi, by rw [hx]; rfl⟩
  · exact .inl ⟨by simpa using hi, by simpa using hi⟩

/-- After the reset event every location reads as in the reset state of the same configuration. -/
theorem State.resetEvent_readLoc (s : State) (loc : Loc) :
    s.resetEvent.readLoc loc = (State.resetOf s.cfg).readLoc loc := by
  cases loc with
  | str i r =>
    obtain ⟨hr, he⟩ | ⟨x, hr, he⟩ := s.resetEvent_str_cases i
    · simp [State.readLoc, hr, he]
    · rw [State.readLoc_str_of hr, State.readLoc_str_of he]
      cases r <;> rfl
  | dl i a =>
    obtain ⟨hr, he⟩ | ⟨x, hr, he⟩ := s.resetEvent_str_cases i
    · simp [State.readLoc, hr, he]
    · rw [State.readLoc_dl_of hr, State.readLoc_dl_of he]
      rfl
  | env | osc | denv | sq | nz => rfl

/-- Settles O14: each bank of the reset state repeats one reset unit. -/
theorem resetValuesOfEveryLocation : Obligations.ResetValuesOfEveryLocation :=
  fun _ _ => State.resetOf_readLoc

/-- Settles O15: the reset event reads as the reset state of the same configuration. -/
theorem resetEventRestoresEveryLocation : Obligations.ResetEventRestoresEveryLocation :=
  fun s => ⟨s.resetEvent_cfg, fun loc h => (s.resetEvent_readLoc loc).trans (State.resetOf_readLoc h)⟩

/-! The invariant after reset. -/

theorem StringVoice.reset_ok {par : Params Sample} (h : 1 ≤ par.cap) : StringVoice.reset.ok par :=
  ⟨⟨Nat.le_refl 1, h, Nat.one_pos⟩, rfl⟩

theorem Denv.reset_ok : Denv.reset.ok := by decide

theorem State.resetOf_inv {c : Cfg} (h : c.wf) : (State.resetOf c).Inv := by
  have hcap : 1 ≤ c.par.cap := by
    obtain ⟨-, -, -, -, -, ⟨hcap, -⟩, -⟩ := h
    exact hcap
  refine ⟨by rwa [State.resetOf_cfg], fun v hv => ?_, fun v hv => ?_, fun g hg => ?_⟩
  · rw [List.eq_of_mem_replicate hv]
    exact ⟨rfl, rfl⟩
  · rw [List.eq_of_mem_replicate hv]
    exact StringVoice.reset_ok hcap
  · rw [List.eq_of_mem_replicate hg]
    exact Denv.reset_ok

/-- Settles O12: every unit of the reset state is a reset unit, and each of those is well formed. -/
theorem resetHasTheInvariant : Obligations.ResetHasTheInvariant :=
  ⟨fun _ => State.resetOf_inv, State.resetOf_inv (by decide)⟩

end Sys2Proof.Machine
end

section
/-! `RD` sees all of the block's state (30_encoding R212): O18. Each kind of unit is determined by what its registers read
as, and a bank by the units that a `unit` field addresses. -/

namespace Sys2Proof.Machine

variable {S : Type}

/-! The integer codes lose nothing. -/

/-- The envelope state of an integer code (00_scope R14). -/
def envStateOfCode (w : Word32) : EnvState :=
  if w = 0#32 then .attack else if w = 1#32 then .decay else if w = 2#32 then .sustain
  else if w = 3#32 then .release else .off

theorem envStateCode_injective : Function.Injective envStateCode :=
  Function.LeftInverse.injective (g := envStateOfCode) fun st => by cases st <;> rfl

/-- The discrete selector of an integer code (00_scope R14). -/
def dselOfCode (w : Word32) : DSel :=
  if w = 0#32 then .decay else if w = 1#32 then .attack else if w = 2#32 then .holdLow else .holdHigh

theorem dselCode_injective : Function.Injective dselCode :=
  Function.LeftInverse.injective (g := dselOfCode) fun sel => by cases sel <;> rfl

theorem setWidth_injective {n : Nat} (h : n ≤ 32) : Function.Injective (BitVec.setWidth 32 : BitVec n → Word32) := by
  intro x y hxy
  apply BitVec.eq_of_toNat_eq
  rw [← BitVec.toNat_setWidth_of_le h, hxy, BitVec.toNat_setWidth_of_le h]

theorem ofNat_word_injOn {a b : Nat} (ha : a < 2 ^ 32) (hb : b < 2 ^ 32) (h : BitVec.ofNat 32 a = BitVec.ofNat 32 b) :
    a = b := by
  have hab := congrArg BitVec.toNat h
  rwa [BitVec.toNat_ofNat, BitVec.toNat_ofNat, Nat.mod_eq_of_lt ha, Nat.mod_eq_of_lt hb] at hab

/-! Units that read alike. -/

theorem Envelope.ext_reg {e e' : Envelope S} (h : ∀ r, envRegResult e r = envRegResult e' r) : e = e' := by
  cases e
  cases e'
  simp only [Envelope.mk.injEq]
  exact ⟨Result.sample.inj (h .A), Result.sample.inj (h .D), Result.sample.inj (h .SL), Result.sample.inj (h .R),
    envStateCode_injective (Result.word.inj (h .st)), Result.sample.inj (h .t), Result.sample.inj (h .out)⟩

theorem Oscillator.ext_reg {k : OpIx} {o o' : Oscillator S} (h : ∀ r, oscRegResult k o r = oscRegResult k o' r) :
    o = o' := by
  cases o
  cases o'
  simp only [Oscillator.mk.injEq]
  exact ⟨Result.sample.inj (h .w), Result.sample.inj (h .p), Result.sample.inj (h .vol), Result.sample.inj (h .m),
    Result.sample.inj (h .raw)⟩

theorem Operator.ext_parts {a b : Operator S} (henv : a.env = b.env) (hosc : a.osc = b.osc) : a = b := by
  cases a
  cases b
  exact Operator.mk.injEq .. ▸ ⟨henv, hosc⟩

theorem FmVoice.ext_reg {v v' : FmVoice S} (henv : ∀ k r, envRegResult (v.op k).env r = envRegResult (v'.op k).env r)
    (hosc : ∀ k r, oscRegResult k (v.op k).osc r = oscRegResult k (v'.op k).osc r) : v = v' :=
  FmVoice.ext_op fun k => Operator.ext_parts (Envelope.ext_reg (henv k)) (Oscillator.ext_reg (hosc k))

theorem Denv.ext_reg {g g' : Denv S} (h : ∀ r, denvRegResult g r = denvRegResult g' r) : g = g' := by
  cases g
  cases g'
  simp only [Denv.mk.injEq]
  exact ⟨Result.word.inj (h .period), Result.word.inj (h .counter),
    setWidth_injective (by decide) (Result.word.inj (h .flags)), dselCode_injective (Result.word.inj (h .sel)),
    Result.sample.inj (h .out)⟩

theorem Square.ext_reg {g g' : Square} (h : ∀ r, sqRegResult (S := S) g r = sqRegResult g' r) : g = g' := by
  cases g
  cases g'
  simp only [Square.mk.injEq]
  exact ⟨Result.word.inj (h .period), Result.word.inj (h .counter),
    setWidth_injective (by decide) (Result.word.inj (h .out))⟩

theorem Noise.ext_reg {g g' : Noise} (h : ∀ r, nzRegResult (S := S) g r = nzRegResult g' r) : g = g' := by
  cases g
  cases g'
  simp only [Noise.mk.injEq]
  exact ⟨Result.word.inj (h .period), Result.word.inj (h .counter),
    setWidth_injective (by decide) (Result.word.inj (h .out)),
    setWidth_injective (by decide) (Result.word.inj (h .rng))⟩

/-- A canonical delay line lists no word at or above its capacity. -/
theorem Memory.read_of_cap_le [DecidableEq S] {z : S} {cap a : Nat} {m : Memory S} (hm : Memory.wf z cap m = true)
    (ha : cap ≤ a) : Memory.read z m a = z := by
  have hall : ∀ c ∈ m, c.1 < cap := by
    simp only [Memory.wf, Bool.and_eq_true, List.all_eq_true, decide_eq_true_eq] at hm
    exact fun c hc => (hm.2 c hc).1
  clear hm
  induction m with
  | nil => rfl
  | cons c rest ih =>
    obtain ⟨b, w⟩ := c
    have hb : b < cap := hall (b, w) (by simp)
    rw [Memory.read, if_neg (by omega)]
    exact ih fun c hc => hall c (by simp [hc])

/-- Well-formed strings with the same count of draws whose registers and delay-line words read alike are equal: `N` and
`cur` fit a word, and a canonical delay line is determined by its words. -/
theorem StringVoice.ext_reg {par : Params Sample} {x y : StringVoice Sample} (hcap : par.cap ≤ 65536) (hx : x.ok par)
    (hy : y.ok par) (htaken : x.taken = y.taken) (hreg : ∀ r, strRegResult (S := Sample) x r = strRegResult y r)
    (hdl : ∀ a < par.cap, Memory.read 0#32 x.dl a = Memory.read 0#32 y.dl a) : x = y := by
  obtain ⟨⟨-, hxN, hxcur⟩, hxwf⟩ := hx
  obtain ⟨⟨-, hyN, hycur⟩, hywf⟩ := hy
  have hN : x.N = y.N := ofNat_word_injOn (by omega) (by omega) (Result.word.inj (hreg .N))
  have hcur : x.cur = y.cur := ofNat_word_injOn (by omega) (by omega) (Result.word.inj (hreg .cur))
  have hmem : x.dl = y.dl := Memory.ext_read hxwf hywf fun a => by
    by_cases ha : a < par.cap
    · exact hdl a ha
    · rw [Memory.read_of_cap_le hxwf (by omega), Memory.read_of_cap_le hywf (by omega)]
  cases x
  cases y
  simp only [StringVoice.mk.injEq]
  exact ⟨hN, hcur, hmem, htaken⟩

/-- Banks of one length that a `unit` field addresses whole are equal when the units at every index are. -/
theorem bank_ext {α : Type} {xs ys : List α} (hlen : xs.length = ys.length) (h256 : xs.length ≤ 256)
    (h : ∀ (i : UnitIx) x y, xs[i.toNat]? = some x → ys[i.toNat]? = some y → x = y) : xs = ys := by
  refine List.ext_getElem hlen fun n hx hy => ?_
  have hn : (BitVec.ofNat 8 n).toNat = n := by
    rw [BitVec.toNat_ofNat, Nat.mod_eq_of_lt (by omega)]
  refine h (BitVec.ofNat 8 n) _ _ ?_ ?_
  · rw [hn, List.getElem?_eq_getElem hx]
  · rw [hn, List.getElem?_eq_getElem hy]

section
variable {s t : State} {i : UnitIx}

/-- The voices at an index of two states that read alike are equal. -/
theorem FmVoice.eq_of_readLoc {x y : FmVoice Sample} (hx : s.fm[i.toNat]? = some x) (hy : t.fm[i.toNat]? = some y)
    (h : ∀ loc, s.readLoc loc = t.readLoc loc) : x = y :=
  FmVoice.ext_reg
    (fun k r => by simpa only [State.readLoc_env_of hx, State.readLoc_env_of hy] using h (.env i k r))
    (fun k r => by simpa only [State.readLoc_osc_of hx, State.readLoc_osc_of hy] using h (.osc i k r))

theorem StringVoice.eq_of_readLoc {x y : StringVoice Sample} (hx : s.str[i.toNat]? = some x)
    (hy : t.str[i.toNat]? = some y) (hpar : s.par = t.par) (hcap : s.par.cap ≤ 65536) (hxok : x.ok s.par)
    (hyok : y.ok s.par) (htaken : x.taken = y.taken) (h : ∀ loc, s.readLoc loc = t.readLoc loc) : x = y := by
  refine StringVoice.ext_reg hcap hxok hyok htaken (fun r => ?_) fun a ha => ?_
  · simpa only [State.readLoc_str_of hx, State.readLoc_str_of hy] using h (.str i r)
  · have hword : (BitVec.ofNat 32 a).toNat = a := by
      rw [BitVec.toNat_ofNat, Nat.mod_eq_of_lt (by omega)]
    have hread := h (.dl i (BitVec.ofNat 32 a))
    rw [State.readLoc_dl_of hx, State.readLoc_dl_of hy, ← hpar, hword, if_pos ha, if_pos ha, numF32_zero] at hread
    exact Result.sample.inj hread

theorem Denv.eq_of_readLoc {x y : Denv Sample} (hx : s.denv[i.toNat]? = some x) (hy : t.denv[i.toNat]? = some y)
    (h : ∀ loc, s.readLoc loc = t.readLoc loc) : x = y :=
  Denv.ext_reg fun r => by simpa only [State.readLoc_denv_of hx, State.readLoc_denv_of hy] using h (.denv i r)

theorem Square.eq_of_readLoc {x y : Square} (hx : s.sq[i.toNat]? = some x) (hy : t.sq[i.toNat]? = some y)
    (h : ∀ loc, s.readLoc loc = t.readLoc loc) : x = y :=
  Square.ext_reg fun r => by simpa only [State.readLoc_sq_of hx, State.readLoc_sq_of hy] using h (.sq i r)

theorem Noise.eq_of_readLoc {x y : Noise} (hx : s.nz[i.toNat]? = some x) (hy : t.nz[i.toNat]? = some y)
    (h : ∀ loc, s.readLoc loc = t.readLoc loc) : x = y :=
  Noise.ext_reg fun r => by simpa only [State.readLoc_nz_of hx, State.readLoc_nz_of hy] using h (.nz i r)

end

/-- Settles O18: bank by bank, each unit is determined by what its registers read as. -/
theorem readableStateIsTheWholeState : Obligations.ReadableStateIsTheWholeState := by
  intro s t hs ht hcfg hcmds hresult htaken hread
  obtain ⟨⟨⟨-, hnv⟩, ⟨-, hns⟩, ⟨-, hnd⟩, ⟨-, hnq⟩, ⟨-, hnn⟩, ⟨-, hcap⟩, -⟩, -, hsstr, -⟩ := hs
  obtain ⟨-, -, htstr, -⟩ := ht
  have hpar : s.par = t.par := congrArg Cfg.par hcfg
  have hfm : s.fm = t.fm :=
    bank_ext (congrArg Cfg.nv hcfg) hnv fun _ _ _ hx hy => FmVoice.eq_of_readLoc hx hy hread
  have hstr : s.str = t.str := bank_ext (congrArg Cfg.ns hcfg) hns fun i x y hx hy => by
    have hcount : x.taken = y.taken := by simpa [hx, hy] using congrArg (·[i.toNat]?) htaken
    exact StringVoice.eq_of_readLoc hx hy hpar hcap (hsstr x (List.mem_of_getElem? hx))
      (hpar ▸ htstr y (List.mem_of_getElem? hy)) hcount hread
  have hdenv : s.denv = t.denv :=
    bank_ext (congrArg Cfg.nd hcfg) hnd fun _ _ _ hx hy => Denv.eq_of_readLoc hx hy hread
  have hsq : s.sq = t.sq :=
    bank_ext (congrArg Cfg.nq hcfg) hnq fun _ _ _ hx hy => Square.eq_of_readLoc hx hy hread
  have hnz : s.nz = t.nz :=
    bank_ext (congrArg Cfg.nn hcfg) hnn fun _ _ _ hx hy => Noise.eq_of_readLoc hx hy hread
  cases s
  cases t
  simp only [State.mk.injEq]
  exact ⟨hfm, hstr, hdenv, hsq, hnz, hpar, hcmds, hresult⟩

end Sys2Proof.Machine
end

section
/-! The length that `STR.NOTEON` computes (43_string_voice R142): O36. Where the quotient is below `CAP`, it is a finite
number of units of 2^-149 below `CAP`'s, so it rounds to `CAP` at most; where it overflows, it is not below `CAP`. -/

namespace Sys2Proof.Machine

theorem F32.absBits_round (s : Bool) (n d : Nat) : F32.absBits (F32.round s n d) = F32.roundBits n d := by
  have h := F32.roundBits_le n d
  rw [F32.absBits, F32.round, F32.toNat_pack s (by omega)]
  split <;> omega

theorem F32.sign_round (s : Bool) (n d : Nat) : F32.sign (F32.round s n d) = s := by
  have h := F32.roundBits_le n d
  rw [F32.sign, BitVec.msb_eq_decide, F32.round, F32.toNat_pack s (by omega)]
  cases s with
  | false => simpa using (by omega : F32.roundBits n d < 2 ^ 31)
  | true => simp

/-- One rounding never makes a NaN: it overflows to the infinity at most. -/
theorem F32.isNan_round (s : Bool) (n d : Nat) : F32.isNan (F32.round s n d) = false := by
  have h := F32.roundBits_le n d
  rw [F32.isNan, F32.expField_eq, F32.frac_eq, F32.absBits_round, Bool.and_eq_false_iff, beq_eq_false_iff_ne,
    bne_eq_false_iff_eq]
  omega

/-- A natural below 2^24 is, in units of 2^-149, the magnitude of a finite pattern: its significand fits. -/
theorem F32.exists_magnitudeOf_nat {n : Nat} (h1 : 1 ≤ n) (hn : n < 2 ^ 24) :
    ∃ b < 0x7F800000, F32.magnitudeOf b = n * 2 ^ 149 := by
  have hne : n ≠ 0 := by omega
  have hlog : Nat.log2 n < 24 := (Nat.log2_lt hne).2 hn
  have hscale : 2 ^ Nat.log2 n * 2 ^ (23 - Nat.log2 n) = 2 ^ 23 := by
    rw [← pow_add]
    congr 1
    omega
  have hlow : 2 ^ 23 ≤ n * 2 ^ (23 - Nat.log2 n) :=
    hscale ▸ Nat.mul_le_mul_right _ (Nat.log2_self_le hne)
  have hhigh : n * 2 ^ (23 - Nat.log2 n) < 2 ^ 24 := by
    calc n * 2 ^ (23 - Nat.log2 n) < 2 ^ (Nat.log2 n + 1) * 2 ^ (23 - Nat.log2 n) :=
          Nat.mul_lt_mul_of_pos_right Nat.lt_log2_self (Nat.two_pow_pos _)
      _ = 2 ^ 24 := by rw [pow_succ, mul_right_comm, hscale, ← pow_succ]
  obtain ⟨f, hf⟩ := Nat.exists_eq_add_of_le hlow
  refine ⟨(Nat.log2 n + 127) * 2 ^ 23 + f, by omega, ?_⟩
  rw [F32.magnitudeOf_fields _ (by omega), if_neg (by omega), ← hf, mul_assoc, ← pow_add]
  congr 2
  omega

/-- A natural below 2^24 is exact in binary32 (00_scope R12). -/
theorem F32.ofNat_exact {n : Nat} (h1 : 1 ≤ n) (hn : n < 2 ^ 24) :
    F32.isFinite (F32.ofNat n) = true ∧ F32.toInt (F32.ofNat n) = n * 2 ^ 149 := by
  obtain ⟨b, hb, hmag⟩ := F32.exists_magnitudeOf_nat h1 hn
  have habs : F32.absBits (F32.ofNat n) = b := by
    rw [F32.ofNat, F32.absBits_round, ← hmag, F32.roundBits_magnitudeOf hb]
  have hsign : F32.sign (F32.ofNat n) = false := F32.sign_round _ _ _
  refine ⟨F32.isFinite_iff.2 (habs ▸ hb), ?_⟩
  rw [F32.toInt, hsign, F32.magnitude_eq, habs, hmag]
  push_cast
  rfl

/-- No word that is not a NaN is above the positive infinity. -/
theorem F32.le_of_not_isFinite {x q : Sample} (hx : F32.isFinite x = true) (hnan : F32.isNan q = false)
    (hsign : F32.sign q = false) (hq : F32.isFinite q = false) : F32.le x q = true := by
  have habs : ¬ F32.absBits q < 0x7F800000 := fun h => Bool.eq_false_iff.1 hq (F32.isFinite_iff.2 h)
  have hxabs := F32.isFinite_iff.1 hx
  have horder : F32.order x ≤ F32.order q := by
    rw [F32.order, F32.order, hsign]
    split
    · simp only [Bool.false_eq_true, if_false]
      omega
    · simp only [Bool.false_eq_true, if_false]
      omega
  simp [F32.le, F32.isNan_of_isFinite hx, hnan, horder]

/-- A finite word below a natural rounds to that natural at most. -/
theorem F32.rnd_le {q : Sample} {n : Nat} (hq : F32.isFinite q = true) (hlt : F32.toInt q < n * 2 ^ 149) :
    F32.rnd q ≤ n := by
  rw [F32.toInt] at hlt
  rw [F32.rnd, if_pos hq]
  dsimp only
  split
  · omega
  · next hs =>
    simp only [hs, Bool.false_eq_true, if_false] at hlt
    omega

theorem F32.sign_of_toNat_lt {x : Sample} (h : x.toNat < 0x7F800000) : F32.sign x = false := by
  rw [F32.sign, BitVec.msb_eq_decide, decide_eq_false_iff_not]
  omega

/-- A pattern above +0 has no sign bit and a magnitude. -/
theorem F32.pos_of_zero_lt {f : Sample} (h : F32.lt 0#32 f = true) : F32.sign f = false ∧ F32.magnitude f ≠ 0 := by
  have hzero : F32.order 0#32 = 0 := by decide
  simp only [F32.lt, Bool.and_eq_true, decide_eq_true_eq, hzero] at h
  obtain ⟨-, hpos⟩ := h
  rw [F32.order] at hpos
  rw [Ne, F32.magnitude_eq_zero_iff]
  split at hpos
  · omega
  · next hs => exact ⟨Bool.eq_false_iff.2 hs, by omega⟩

/-- The quotient of positive finite words: one rounding, with no sign. -/
theorem F32.div_pos_eq_round {x f : Sample} (hx : x.toNat < 0x7F800000) (hf : F32.isFinite f = true)
    (hpos : F32.lt 0#32 f = true) :
    F32.div x f = F32.round false (F32.magnitude x * 2 ^ 149) (F32.magnitude f) := by
  obtain ⟨hsign, hmag⟩ := F32.pos_of_zero_lt hpos
  have hfin : F32.isFinite x = true := F32.isFinite_iff.2 (lt_of_le_of_lt (Nat.mod_le _ _) hx)
  rw [F32.div_of_finite hfin hf hmag, F32.sign_of_toNat_lt hx, hsign, bne_self_eq_false]

/-- The length is between 1 and `CAP` for every positive finite frequency. -/
theorem stringLength_mem {c : Cfg} {f : Word32} (hc : c.wf) (hf : F32.isFinite f = true) (hpos : F32.lt 0#32 f = true) :
    1 ≤ stringLength numF32 c.par f ∧ stringLength numF32 c.par f ≤ c.par.cap := by
  obtain ⟨-, -, -, -, -, ⟨hcap, hcap'⟩, -, hrate⟩ := hc
  obtain ⟨hcapfin, hcapint⟩ := F32.ofNat_exact hcap (by omega)
  have hdiv := F32.div_pos_eq_round hrate hf hpos
  rw [stringLength_f32]
  split
  · exact ⟨hcap, le_refl _⟩
  · next hle =>
    have hfin : F32.isFinite (F32.div c.par.sampleRate f) = true := by
      by_contra hq
      refine hle (F32.le_of_not_isFinite hcapfin ?_ ?_ (Bool.eq_false_iff.2 hq))
      · rw [hdiv, F32.isNan_round]
      · rw [hdiv, F32.sign_round]
    rw [F32.le_iff hcapfin hfin, not_le, hcapint] at hle
    have hrnd := F32.rnd_le hfin hle
    omega

/-- Settles O36: the length is `CAP` where the quotient reaches it, and a rounded smaller quotient elsewhere. -/
theorem stringLengthStaysInBounds : Obligations.StringLengthStaysInBounds :=
  fun _ _ => stringLength_mem

end Sys2Proof.Machine
end

section
/-! The invariant of every reachable state (10_state R48): O11 and O13, with O33 and O46 on the way. Each unit operation
keeps its unit well formed, so each command keeps the invariant. -/

namespace Sys2Proof.Machine

variable {S : Type}

/-! FM voices: the modulation accumulators. -/

/-- `OSC.UPD` leaves its own modulation accumulator at 0 (41_oscillator R127): no operator is its own target. -/
theorem oscUpd_m_same (num : Num S) (k : OpIx) (dt : S) (v : FmVoice S) :
    ((oscUpd num k dt v).op k).osc.m = num.zero := by
  cases k <;> rfl

/-- `OSC.UPD` leaves alone every other oscillator but its target. -/
theorem oscUpd_osc_other (num : Num S) {k j : OpIx} (dt : S) (v : FmVoice S) (hk : j ≠ k) (ht : oscTarget k ≠ some j) :
    ((oscUpd num k dt v).op j).osc = (v.op j).osc := by
  unfold oscUpd
  split
  · exact FmVoice.setOsc_osc_other _ _ hk
  · next l hl =>
    have hj : j ≠ l := fun h => ht (h ▸ hl)
    rw [FmVoice.setOsc_osc_other _ _ hj, FmVoice.setOsc_osc_other _ _ hk]

/-- Each oscillator is advanced once in an FM tick, the carrier after the modulators have pushed to it. -/
theorem fmAdvance_m (num : Num S) (dt : S) (v : FmVoice S) (k : OpIx) :
    ((fmAdvance num dt v).op k).osc.m = num.zero := by
  unfold fmAdvance
  cases k with
  | op0 => exact oscUpd_m_same num .op0 dt _
  | op1 =>
    rw [oscUpd_osc_other num (k := .op0) dt _ (by decide) (by decide),
      oscUpd_osc_other num (k := .op2) dt _ (by decide) (by decide)]
    exact oscUpd_m_same num .op1 dt _
  | op2 =>
    rw [oscUpd_osc_other num (k := .op0) dt _ (by decide) (by decide)]
    exact oscUpd_m_same num .op2 dt _

/-- Settles O33: every operator's own `OSC.UPD` consumes its modulation, the carrier's last. -/
theorem fmTickConsumesAllModulation : Obligations.FmTickConsumesAllModulation :=
  fun _ num dt v k => fmAdvance_m num dt v k

/-- A voice is well formed when every operator but the carrier has nothing in its modulation accumulator (R128 (a)). -/
theorem FmVoice.ok_iff {v : FmVoice Sample} : v.ok ↔ ∀ k, k ≠ .op0 → (v.op k).osc.m = 0#32 := by
  refine ⟨fun ⟨h1, h2⟩ k hk => ?_, fun h => ⟨h .op1 (by decide), h .op2 (by decide)⟩⟩
  cases k with
  | op0 => exact absurd rfl hk
  | op1 => exact h1
  | op2 => exact h2

section
variable {v : FmVoice Sample}

theorem FmVoice.ok.setEnv (h : v.ok) (k : OpIx) (e : Envelope Sample) : (v.setEnv k e).ok := by
  rw [FmVoice.ok_iff] at h ⊢
  exact fun j hj => by rw [FmVoice.setEnv_osc, h j hj]

/-- Replacing an oscillator keeps the voice well formed if a modulator's accumulator is 0 in the new one. -/
theorem FmVoice.ok.setOsc (h : v.ok) {k : OpIx} {o : Oscillator Sample} (ho : k ≠ .op0 → o.m = 0#32) :
    (v.setOsc k o).ok := by
  rw [FmVoice.ok_iff] at h ⊢
  intro j hj
  by_cases hjk : j = k
  · subst hjk
    rw [FmVoice.setOsc_osc_same, ho hj]
  · rw [FmVoice.setOsc_osc_other _ _ hjk, h j hj]

/-- An oscillator operation that keeps the modulation accumulator. -/
theorem FmVoice.ok.setOsc_of_m (h : v.ok) {k : OpIx} {o : Oscillator Sample} (ho : o.m = (v.op k).osc.m) :
    (v.setOsc k o).ok :=
  h.setOsc fun hk => ho.trans (FmVoice.ok_iff.1 h k hk)

theorem FmVoice.ok.writeOscReg (h : v.ok) (k : OpIx) (r : OscReg) (x : Sample) :
    (v.setOsc k (Machine.writeOscReg (v.op k).osc r x)).ok :=
  h.setOsc_of_m (by cases r <;> rfl)

theorem FmVoice.ok.oscSetF (h : v.ok) (k : OpIx) (f : Sample) : (voiceOscSetF numF32 k f v).ok :=
  h.setOsc_of_m rfl

/-- The accumulator of a modulator is cleared by its own `OSC.UPD` and is no operator's target. -/
theorem FmVoice.ok.oscUpd (h : v.ok) (k : OpIx) (dt : Sample) : (Machine.oscUpd numF32 k dt v).ok := by
  rw [FmVoice.ok_iff] at h ⊢
  intro j hj
  by_cases hjk : j = k
  · subst hjk
    rw [oscUpd_m_same, numF32_zero]
  · have ht : oscTarget k ≠ some j := by
      cases k with
      | op0 => simp [oscTarget]
      | op1 | op2 => simpa [oscTarget] using hj.symm
    rw [oscUpd_osc_other _ _ _ hjk ht, h j hj]

theorem FmVoice.ok.gate (h : v.ok) (gate : Bool) : (voiceGate numF32 gate v).ok :=
  ((h.setEnv .op0 _).setEnv .op1 _).setEnv .op2 _

theorem FmVoice.ok.noteOn (h : v.ok) (f : Sample) : (fmNoteOn numF32 f v).ok :=
  (((h.oscSetF .op0 _).oscSetF .op1 _).oscSetF .op2 _).gate true

end

theorem fmAdvance_ok (dt : Sample) (v : FmVoice Sample) : (fmAdvance numF32 dt v).ok :=
  FmVoice.ok_iff.2 fun k _ => by rw [fmAdvance_m, numF32_zero]

/-! String voices: the length, the cursor and the delay line. -/

theorem strNoteOn_ok {c : Cfg} {f : Word32} {v : StringVoice Sample} (hc : c.wf) (hf : F32.isFinite f = true)
    (hpos : F32.lt 0#32 f = true) (draw : Nat → Sample) (h : v.ok c.par) :
    (strNoteOn numF32 c.par draw f v).ok c.par := by
  obtain ⟨hlow, hhigh⟩ := stringLength_mem hc hf hpos
  obtain ⟨-, hwf⟩ := h
  rw [← numF32_zero] at hwf
  exact ⟨⟨hlow, hhigh, hlow⟩, numF32_zero ▸ Memory.wf_fill _ _ hhigh hwf⟩

theorem strTick_ok {par : Params Sample} {v : StringVoice Sample} (h : v.ok par) : (strTick numF32 par v).1.ok par := by
  obtain ⟨⟨hN, hNcap, hcur⟩, hwf⟩ := h
  rw [← numF32_zero] at hwf
  exact ⟨⟨hN, hNcap, Nat.mod_lt _ hN⟩, numF32_zero ▸ Memory.wf_write _ (by omega) hwf⟩

/-! Discrete envelopes: the transition table and the counter. -/

/-- A selector from which no -1 entry of the row for `flags` is looked up (44_discrete_envelope R169). -/
def DSel.ready (flags : BitVec 4) (sel : DSel) : Prop :=
  (sel = .decay → ttEntry .leavingDecay flags ≠ none) ∧ (sel = .attack → ttEntry .leavingAttack flags ≠ none)

theorem Denv.ok_iff {g : Denv Sample} :
    g.ok ↔ g.sel.ready g.flags ∧ (g.sel = .holdLow ∨ g.sel = .holdHigh → g.counter = 0#32) := by
  rw [DSel.ready, and_assoc]

/-- The start state that `DENV.SETFLAGS` selects is ready (R163, R169). -/
theorem DSel.ready_start (flags : BitVec 4) : DSel.ready flags (if flagAttackFirst flags then .attack else .decay) := by
  unfold DSel.ready
  revert flags
  decide

/-- What the table names is ready under the same flags: no entry leads to a -1 entry (R168, R169). -/
theorem DSel.ready_of_ttEntry {dir : Direction} {flags : BitVec 4} {sel : DSel} (h : ttEntry dir flags = some sel) :
    DSel.ready flags sel := by
  unfold DSel.ready
  revert flags
  cases dir with
  | leavingDecay => cases sel <;> decide
  | leavingAttack => cases sel <;> decide

/-- Everything `advance(dir)` can do (R165): the counter wraps and the table is looked up, or the counter rises. -/
theorem denvAdvance_cases (dir : Direction) (g : Denv S) :
    (denvAdvance dir g = { g with counter := 0#32, sel := (ttEntry dir g.flags).getD g.sel }) ∨
      (g.counter.toNat + 1 ≤ g.period.toNat ∧
        denvAdvance dir g = { g with counter := BitVec.ofNat 32 (g.counter.toNat + 1) }) := by
  simp only [denvAdvance]
  split
  · exact .inl rfl
  · next h => exact .inr ⟨Nat.le_of_not_lt h, rfl⟩

/-- A ramp that would look up an entry other than -1 still stands well when it has advanced. -/
theorem denvAdvance_ok {dir : Direction} {g : Denv Sample} (h : g.ok) (hramp : g.sel = .decay ∨ g.sel = .attack)
    (hentry : ttEntry dir g.flags ≠ none) : (denvAdvance dir g).ok := by
  obtain ⟨hready, -⟩ := Denv.ok_iff.1 h
  obtain ⟨sel, hsel⟩ := Option.ne_none_iff_exists'.1 hentry
  rw [Denv.ok_iff]
  obtain hg | ⟨-, hg⟩ := denvAdvance_cases dir g
  · rw [hg, hsel]
    exact ⟨DSel.ready_of_ttEntry hsel, fun _ => rfl⟩
  · rw [hg]
    refine ⟨hready, fun hhold => ?_⟩
    obtain h | h := hramp <;> simp [h] at hhold

theorem denvAdvance_counter_le (dir : Direction) (g : Denv S) :
    (denvAdvance dir g).counter.toNat ≤ (denvAdvance dir g).period.toNat := by
  obtain hg | ⟨hle, hg⟩ := denvAdvance_cases dir g
  · rw [hg]
    exact Nat.zero_le _
  · rw [hg, BitVec.toNat_ofNat]
    exact (Nat.mod_le _ _).trans hle

theorem denvTick_ok {g : Denv Sample} (h : g.ok) : (denvTick numF32 g).ok := by
  obtain ⟨hdecay, hattack, hhold⟩ := id h
  unfold denvTick
  split
  · next hsel => exact denvAdvance_ok h (.inl hsel) (hdecay hsel)
  · next hsel => exact denvAdvance_ok h (.inr hsel) (hattack hsel)
  · exact h
  · exact h

/-- The counter is in range after a tick: by the wrap in a ramp, by the invariant in a hold state. -/
theorem denvTick_counter_le {g : Denv Sample} (h : g.ok) :
    (denvTick numF32 g).counter.toNat ≤ (denvTick numF32 g).period.toNat := by
  obtain ⟨-, -, hhold⟩ := h
  unfold denvTick
  split
  · exact denvAdvance_counter_le _ _
  · exact denvAdvance_counter_le _ _
  · next hsel => simp [hhold (.inl hsel)]
  · next hsel => simp [hhold (.inr hsel)]

theorem denvSetFlags_ok (operand : Word32) (g : Denv Sample) : (denvSetFlags operand g).ok := by
  rw [Denv.ok_iff]
  refine ⟨DSel.ready_start _, fun hhold => ?_⟩
  simp only [denvSetFlags] at hhold
  split at hhold <;> simp at hhold

theorem writeDenvReg_ok {g : Denv Sample} (h : g.ok) (r : DenvReg) (x : Word32) : (writeDenvReg g r x).ok := by
  cases r <;> exact h

/-- `count` leaves the counter below the period, or at 0 (45_square_noise R176). -/
theorem countTick_lt (c P : Word32) : (countTick c P).1.toNat < max P.toNat 1 := by
  simp only [countTick]
  split
  · simp
  · next h =>
    rw [BitVec.toNat_ofNat]
    have := Nat.mod_le (c.toNat + 1) (2 ^ 32)
    omega

/-- Settles O46: the discrete envelope by its invariant, the generators by their shared counter. -/
theorem countersStayInRange : Obligations.CountersStayInRange :=
  ⟨fun _ => denvTick_counter_le, fun g => countTick_lt g.counter g.period, fun g => countTick_lt g.counter g.period⟩

/-! The invariant of a state. -/

section
variable {s t : State}

theorem State.Inv.withResult (h : s.Inv) (r : Result Sample) : (s.withResult r).Inv := h

theorem State.Inv.withCmds (h : s.Inv) (ws : List CmdWord) : (s.withCmds ws).Inv := h

/-- Stepping one unit keeps the invariant if putting the stepped unit back does. -/
theorem State.Inv.onUnit {α : Type} {xs : List α} {put : State → List α → State} {i : UnitIx}
    {f : α → α × Result Sample} (h : s.Inv) (hput : ∀ x ∈ xs, (put s (xs.set i.toNat (f x).1)).Inv) :
    (s.onUnit xs put i f).Inv := by
  obtain ⟨x, hx, he⟩ | ⟨-, he⟩ := s.onUnit_cases xs put i f
  · rw [he]
    exact (hput x (List.mem_of_getElem? hx)).withResult _
  · rw [he]
    exact h.withResult .none

theorem State.Inv.onVoice {v : UnitIx} {f : FmVoice Sample → FmVoice Sample × Result Sample} (h : s.Inv)
    (hf : ∀ x : FmVoice Sample, x.ok → (f x).1.ok) : (s.onVoice v f).Inv := by
  obtain ⟨hwf, hfm, hstr, hdenv⟩ := id h
  exact h.onUnit fun x hx =>
    ⟨(State.withFm_set_cfg s _ _).symm ▸ hwf, forall_mem_set _ (hf x (hfm x hx)) hfm, hstr, hdenv⟩

theorem State.Inv.onString {i : UnitIx} {f : StringVoice Sample → StringVoice Sample × Result Sample} (h : s.Inv)
    (hf : ∀ x : StringVoice Sample, x.ok s.par → (f x).1.ok s.par) : (s.onString i f).Inv := by
  obtain ⟨hwf, hfm, hstr, hdenv⟩ := id h
  exact h.onUnit fun x hx =>
    ⟨(State.withStr_set_cfg s _ _).symm ▸ hwf, hfm, forall_mem_set _ (hf x (hstr x hx)) hstr, hdenv⟩

theorem State.Inv.onDenv {d : UnitIx} {f : Denv Sample → Denv Sample × Result Sample} (h : s.Inv)
    (hf : ∀ g : Denv Sample, g.ok → (f g).1.ok) : (s.onDenv d f).Inv := by
  obtain ⟨hwf, hfm, hstr, hdenv⟩ := id h
  exact h.onUnit fun x hx =>
    ⟨(State.withDenv_set_cfg s _ _).symm ▸ hwf, hfm, hstr, forall_mem_set _ (hf x (hdenv x hx)) hdenv⟩

/-- No clause of the invariant but the bank's size is about the square generators. -/
theorem State.Inv.onSquare (h : s.Inv) (q : UnitIx) (f : Square → Square × Result Sample) : (s.onSquare q f).Inv := by
  obtain ⟨hwf, hunits⟩ := id h
  exact h.onUnit fun _ _ => ⟨(State.withSq_set_cfg s _ _).symm ▸ hwf, hunits⟩

/-- No clause of the invariant but the bank's size is about the noise generators. -/
theorem State.Inv.onNoise (h : s.Inv) (n : UnitIx) (f : Noise → Noise × Result Sample) : (s.onNoise n f).Inv := by
  obtain ⟨hwf, hunits⟩ := id h
  exact h.onUnit fun _ _ => ⟨(State.withNz_set_cfg s _ _).symm ▸ hwf, hunits⟩

theorem State.Inv.voices (h : s.Inv) {f : FmVoice Sample → FmVoice Sample} (hf : ∀ x, (f x).ok) :
    (s.withFm (s.fm.map f)).Inv := by
  obtain ⟨hwf, -, hunits⟩ := h
  have hcfg : (s.withFm (s.fm.map f)).cfg = s.cfg := State.cfg_congr (by simp) rfl rfl rfl rfl rfl
  exact ⟨hcfg.symm ▸ hwf, List.forall_mem_map.2 fun x _ => hf x, hunits⟩

theorem State.Inv.writeLoc (h : s.Inv) (loc : Loc) (x : Word32) : (s.writeLoc loc x).Inv := by
  cases loc with
  | env v k r => exact h.onVoice fun y hy => hy.setEnv k _
  | osc v k r => exact h.onVoice fun y hy => hy.writeOscReg k r _
  | denv d r => exact h.onDenv fun y hy => writeDenvReg_ok hy r x
  | sq q r => exact h.onSquare q _
  | nz n r => exact h.onNoise n _
  | str | dl => exact h.withResult .none

/-- A command keeps the invariant if its effect does where it is legal. -/
theorem State.Inv.of_exec {i : Instr} {effect : State → State} (h : s.Inv) (hexec : exec i s = perform i s effect)
    (ht : exec i s = .next t) (he : legal s.cfg i = true → (effect s).Inv) : t.Inv := by
  rw [hexec] at ht
  obtain ⟨hl, rfl⟩ | ⟨-, rfl⟩ := perform_cases ht
  · exact he hl
  · exact h.withResult .none

end

/-- The frequency of a legal `STR.NOTEON` is finite and positive (30_encoding R103 (e), (f)). -/
theorem legal_strNoteOn {c : Cfg} {i : UnitIx} {f : Word32} (h : legal c (.strNoteOn i f) = true) :
    F32.isFinite f = true ∧ F32.lt 0#32 f = true := by
  simp only [legal, wellFormed, operandLegal, inRange, Bool.and_eq_true, numF32_zero, numF32_lt, numF32_ofF32] at h
  obtain ⟨hfin, -, hpos⟩ := h
  exact ⟨hfin, hpos⟩

/-- Every command keeps the invariant. -/
theorem exec_keeps_inv {i : Instr} {s t : State} (hs : s.Inv) (h : exec i s = .next t) : t.Inv := by
  cases i with
  | rd loc => exact hs.of_exec (exec_rd _ _) h fun _ => hs.withResult _
  | wr loc x => exact hs.of_exec (exec_wr _ _ _) h fun _ => hs.writeLoc loc x
  | envSet v k gate => exact hs.of_exec (exec_envSet _ _ _ _) h fun _ => hs.onVoice fun _ hx => hx.setEnv k _
  | envUpd v k dt => exact hs.of_exec (exec_envUpd _ _ _ _) h fun _ => hs.onVoice fun _ hx => hx.setEnv k _
  | envOut v k => exact hs.of_exec (exec_envOut _ _ _) h fun _ => hs.onVoice fun _ hx => hx
  | oscSetF v k f => exact hs.of_exec (exec_oscSetF _ _ _ _) h fun _ => hs.onVoice fun _ hx => hx.oscSetF k f
  | oscUpd v k dt => exact hs.of_exec (exec_oscUpd _ _ _ _) h fun _ => hs.onVoice fun _ hx => hx.oscUpd k dt
  | oscOut v k => exact hs.of_exec (exec_oscOut _ _ _) h fun _ => hs.onVoice fun _ hx => hx
  | fmNoteOn v f => exact hs.of_exec (exec_fmNoteOn _ _ _) h fun _ => hs.onVoice fun _ hx => hx.noteOn f
  | fmNoteOff v => exact hs.of_exec (exec_fmNoteOff _ _) h fun _ => hs.onVoice fun _ hx => hx.gate false
  | fmTick v dt => exact hs.of_exec (exec_fmTick _ _ _) h fun _ => hs.onVoice fun x _ => fmAdvance_ok dt x
  | strNoteOn u f =>
    obtain ⟨hwf, -⟩ := id hs
    refine hs.of_exec (exec_strNoteOn _ _ _) h fun hl => hs.onString fun x hx => ?_
    obtain ⟨hfin, hpos⟩ := legal_strNoteOn hl
    exact strNoteOn_ok (c := s.cfg) hwf hfin hpos _ hx
  | strNoteOff u => exact hs.of_exec (exec_strNoteOff _ _) h fun _ => hs.withResult _
  | strTick u x => exact hs.of_exec (exec_strTick _ _ _) h fun _ => hs.onString fun _ hx => strTick_ok hx
  | denvSetFlags d x =>
    exact hs.of_exec (exec_denvSetFlags _ _ _) h fun _ => hs.onDenv fun g _ => denvSetFlags_ok x g
  | denvTick d => exact hs.of_exec (exec_denvTick _ _) h fun _ => hs.onDenv fun _ hg => denvTick_ok hg
  | sqTick q => exact hs.of_exec (exec_sqTick _ _) h fun _ => hs.onSquare q _
  | nzTick n => exact hs.of_exec (exec_nzTick _ _) h fun _ => hs.onNoise n _
  | bankTick dt =>
    exact hs.of_exec (exec_bankTick_map _ _) h fun _ => (hs.voices (fmAdvance_ok dt)).withResult _

/-! The step. -/

/-- Everything a step can do (R16, R92, R103): hold an idle block, ignore the next word, or run the command it is. -/
theorem step_cases {s t : State} (h : step s = .next t) :
    t = s.ignore ∨ ∃ rest, t = (s.withCmds rest).ignore ∨ ∃ i, exec i (s.withCmds rest) = .next t := by
  cases hs : s.cmds with
  | nil =>
    have hf : s.fetch = none := by simp [State.fetch, hs]
    simp only [step, hf, Host.Outcome.next.injEq] at h
    exact .inl h.symm
  | cons w rest =>
    have hf : s.fetch = some (w, s.withCmds rest) := by simp [State.fetch, hs]
    refine .inr ⟨rest, ?_⟩
    cases hw : decode w with
    | ok i => exact .inr ⟨i, by rwa [step_of_decode hs hw] at h⟩
    | error e =>
      simp only [step, hf, hw, Host.Outcome.next.injEq] at h
      exact .inl h.symm

/-- Settles O11: by cases on the step, and on the command it runs. -/
theorem stepKeepsTheInvariant : Obligations.StepKeepsTheInvariant := by
  intro s t hs h
  obtain rfl | ⟨rest, rfl | ⟨i, hi⟩⟩ := step_cases h
  · exact hs.withResult .none
  · exact (hs.withCmds rest).withResult .none
  · exact exec_keeps_inv (hs.withCmds rest) hi

/-- Settles O13: the configuration is in the frame of every command. -/
theorem stepKeepsTheConfiguration : Obligations.StepKeepsTheConfiguration := by
  intro s t h
  obtain rfl | ⟨rest, rfl | ⟨i, hi⟩⟩ := step_cases h
  · rfl
  · rfl
  · obtain ⟨⟨hcfg, -, -⟩, -⟩ := exec_frame hi
    exact hcfg

end Sys2Proof.Machine
end

section
/-! The decoder and the encoder are inverse to each other (30_encoding R98 to R100): O1, O2 and O3. First what each part of
the decoder accepts, then a dispatch on the opcode with one case per shape of row, so that a later proof about the decoder
speaks of five shapes and not of 19 opcodes. -/

namespace Sys2Proof.Machine

/-! What each part of the decoder accepts (R98). -/

theorem decodeOperator_eq_ok_iff {kind : OperandKind} {mk : UnitIx → OpIx → Word32 → Instr} {f : Fields} {i : Instr} :
    decodeOperator kind mk f = .ok i ↔
      f.cls = 0#4 ∧ f.reg = 0#8 ∧ ∃ k, opOfCode f.op = some k ∧ operandLegal kind f.operand = true ∧
        mk f.unit k f.operand = i := by
  unfold decodeOperator
  split
  · simp; tauto
  · split
    · simp_all
    · split <;> simp_all

theorem decodeUnit_eq_ok_iff {kind : OperandKind} {mk : UnitIx → Word32 → Instr} {f : Fields} {i : Instr} :
    decodeUnit kind mk f = .ok i ↔
      f.cls = 0#4 ∧ f.reg = 0#8 ∧ f.op = 0#4 ∧ operandLegal kind f.operand = true ∧ mk f.unit f.operand = i := by
  unfold decodeUnit
  split
  · simp; tauto
  · split <;> simp_all

theorem decodeBank_eq_ok_iff {f : Fields} {i : Instr} :
    decodeBank f = .ok i ↔
      f.unit = 0#8 ∧ f.cls = 0#4 ∧ f.reg = 0#8 ∧ f.op = 0#4 ∧ operandLegal .F f.operand = true ∧
        .bankTick f.operand = i := by
  unfold decodeBank
  split <;> simp_all [decodeUnit_eq_ok_iff]

theorem decodeRegister_eq_ok_iff {f : Fields} {loc : Loc} :
    decodeRegister f = .ok loc ↔
      ∃ k n, decodeAccessOp f = some k ∧ RegName.ofAddress f.cls f.reg = some n ∧ n.loc f.unit k = loc := by
  unfold decodeRegister
  split <;> simp_all

theorem decodeRd_eq_ok_iff {f : Fields} {i : Instr} :
    decodeRd f = .ok i ↔
      (f.cls = 5#4 ∧ f.op = 0#4 ∧ f.reg = 0#8 ∧ .rd (.dl f.unit f.operand) = i) ∨
      (f.cls ≠ 5#4 ∧ ∃ loc, decodeRegister f = .ok loc ∧ f.operand = 0#32 ∧ .rd loc = i) := by
  unfold decodeRd
  split
  · split
    · simp_all
    · split <;> simp_all
  · split
    · simp_all
    · split <;> simp_all [operandLegal]

theorem decodeWr_eq_ok_iff {f : Fields} {i : Instr} :
    decodeWr f = .ok i ↔
      f.cls ≠ 5#4 ∧ ∃ loc, decodeRegister f = .ok loc ∧ locWritable loc = true ∧
        operandLegal (wrKind loc) f.operand = true ∧ .wr loc f.operand = i := by
  unfold decodeWr
  split
  · simp_all
  · split
    · simp_all
    · split
      · simp_all
      · split <;> simp_all

/-! Encoding, field by field. -/

@[simp] theorem accessFields_opcode (opcode : BitVec 8) (loc : Loc) (x : Word32) :
    (accessFields opcode loc x).opcode = opcode := by
  cases loc <;> rfl

/-- The `op` field of an access to register `n`: the operator in class 0, else 0 (R94). -/
def accessOp (n : RegName) (k : OpIx) : BitVec 4 := if n.address.1 = 0#4 then opCode k else 0#4

/-- An access to a register has the register's address and the operator of class 0. -/
theorem accessFields_loc (opcode : BitVec 8) (n : RegName) (u : UnitIx) (k : OpIx) (x : Word32) :
    accessFields opcode (n.loc u k) x = registerFields opcode n u (accessOp n k) x := by
  rcases n with r | r | r | r | r | r <;> cases r <;> rfl

/-- Every location is a delay-line word or a register; outside class 0 the register's operator is 0, as the decoder gives
it. -/
theorem dl_or_register (loc : Loc) :
    (∃ i a, loc = .dl i a) ∨ ∃ (n : RegName) (u : UnitIx) (k : OpIx), loc = n.loc u k ∧ (n.address.1 ≠ 0#4 → k = .op0) := by
  cases loc with
  | env v k r => exact .inr ⟨.env r, v, k, rfl, fun hc => absurd (by cases r <;> rfl) hc⟩
  | osc v k r => exact .inr ⟨.osc r, v, k, rfl, fun hc => absurd (by cases r <;> rfl) hc⟩
  | str i r => exact .inr ⟨.str r, i, .op0, rfl, fun _ => rfl⟩
  | denv d r => exact .inr ⟨.denv r, d, .op0, rfl, fun _ => rfl⟩
  | sq q r => exact .inr ⟨.sq r, q, .op0, rfl, fun _ => rfl⟩
  | nz n r => exact .inr ⟨.nz r, n, .op0, rfl, fun _ => rfl⟩
  | dl i a => exact .inl ⟨i, a, rfl⟩

theorem RegName.class_ne_five (n : RegName) : n.address.1 ≠ 5#4 := by
  rcases n with r | r | r | r | r | r <;> cases r <;> decide

theorem rdOperand_register (n : RegName) (u : UnitIx) (k : OpIx) : rdOperand (n.loc u k) = 0#32 := by
  cases n <;> rfl

/-! Decoding the fields of a command. -/

theorem decodeOperator_operatorFields (kind : OperandKind) (mk : UnitIx → OpIx → Word32 → Instr) (opcode : BitVec 8)
    (v : UnitIx) (k : OpIx) {x : Word32} (h : operandLegal kind x = true) :
    decodeOperator kind mk (operatorFields opcode v k x) = .ok (mk v k x) :=
  decodeOperator_eq_ok_iff.2 ⟨rfl, rfl, k, opOfCode_opCode k, h, rfl⟩

theorem decodeUnit_unitFields (kind : OperandKind) (mk : UnitIx → Word32 → Instr) (opcode : BitVec 8) (u : UnitIx)
    {x : Word32} (h : operandLegal kind x = true) : decodeUnit kind mk (unitFields opcode u x) = .ok (mk u x) :=
  decodeUnit_eq_ok_iff.2 ⟨rfl, rfl, rfl, h, rfl⟩

theorem decodeRegister_registerFields (opcode : BitVec 8) (n : RegName) (u : UnitIx) {k : OpIx} (x : Word32)
    (hk : n.address.1 ≠ 0#4 → k = .op0) :
    decodeRegister (registerFields opcode n u (accessOp n k) x) = .ok (n.loc u k) := by
  refine decodeRegister_eq_ok_iff.2 ⟨k, n, ?_, RegName.ofAddress_address n, rfl⟩
  by_cases hc : n.address.1 = 0#4
  · simp [decodeAccessOp, registerFields, accessOp, hc]
  · simp [decodeAccessOp, registerFields, accessOp, hc, hk hc]

theorem decodeRd_accessFields (opcode : BitVec 8) (loc : Loc) :
    decodeRd (accessFields opcode loc (rdOperand loc)) = .ok (.rd loc) := by
  obtain ⟨i, a, rfl⟩ | ⟨n, u, k, rfl, hk⟩ := dl_or_register loc
  · exact decodeRd_eq_ok_iff.2 (.inl ⟨rfl, rfl, rfl, rfl⟩)
  · rw [accessFields_loc, rdOperand_register]
    exact decodeRd_eq_ok_iff.2 (.inr ⟨n.class_ne_five, _, decodeRegister_registerFields _ _ _ _ hk, rfl, rfl⟩)

theorem decodeWr_accessFields (opcode : BitVec 8) {loc : Loc} {x : Word32} (hloc : locWritable loc = true)
    (hx : operandLegal (wrKind loc) x = true) : decodeWr (accessFields opcode loc x) = .ok (.wr loc x) := by
  obtain ⟨i, a, rfl⟩ | ⟨n, u, k, rfl, hk⟩ := dl_or_register loc
  · simp [locWritable] at hloc
  · rw [accessFields_loc]
    exact decodeWr_eq_ok_iff.2 ⟨n.class_ne_five, _, decodeRegister_registerFields _ _ _ _ hk, hloc, hx, rfl⟩

/-- The decoder reads a well-formed command from its fields, row by row of the opcode table. -/
theorem decodeFields_encodeFields {i : Instr} (h : wellFormed i = true) : decodeFields (encodeFields i) = .ok i := by
  cases i with
  | rd loc => simpa [encodeFields, decodeFields] using decodeRd_accessFields 0x01#8 loc
  | wr loc x =>
    obtain ⟨hloc, hx⟩ : locWritable loc = true ∧ operandLegal (wrKind loc) x = true := by simpa [wellFormed] using h
    simpa [encodeFields, decodeFields] using decodeWr_accessFields 0x02#8 hloc hx
  | envSet v k g =>
    have hdec := decodeOperator_operatorFields .G (fun v k x => .envSet v k (gateOf x)) 0x10#8 v k (operandLegal_gateWord g)
    rwa [gateOf_gateWord] at hdec
  | envUpd v k dt => exact decodeOperator_operatorFields .F .envUpd 0x11#8 v k h
  | envOut v k => exact decodeOperator_operatorFields .Z (fun v k _ => .envOut v k) 0x12#8 v k (x := 0#32) rfl
  | oscSetF v k f => exact decodeOperator_operatorFields .F .oscSetF 0x20#8 v k h
  | oscUpd v k dt => exact decodeOperator_operatorFields .F .oscUpd 0x21#8 v k h
  | oscOut v k => exact decodeOperator_operatorFields .Z (fun v k _ => .oscOut v k) 0x22#8 v k (x := 0#32) rfl
  | fmNoteOn v f => exact decodeUnit_unitFields .F .fmNoteOn 0x30#8 v h
  | fmNoteOff v => exact decodeUnit_unitFields .Z (fun v _ => .fmNoteOff v) 0x31#8 v (x := 0#32) rfl
  | fmTick v dt => exact decodeUnit_unitFields .F .fmTick 0x32#8 v h
  | strNoteOn s f => exact decodeUnit_unitFields .F .strNoteOn 0x40#8 s h
  | strNoteOff s => exact decodeUnit_unitFields .Z (fun s _ => .strNoteOff s) 0x41#8 s (x := 0#32) rfl
  | strTick s x => exact decodeUnit_unitFields .X .strTick 0x42#8 s h
  | denvSetFlags d x => exact decodeUnit_unitFields .U .denvSetFlags 0x50#8 d h
  | denvTick d => exact decodeUnit_unitFields .Z (fun d _ => .denvTick d) 0x51#8 d (x := 0#32) rfl
  | sqTick q => exact decodeUnit_unitFields .Z (fun q _ => .sqTick q) 0x60#8 q (x := 0#32) rfl
  | nzTick n => exact decodeUnit_unitFields .Z (fun n _ => .nzTick n) 0x61#8 n (x := 0#32) rfl
  | bankTick dt => exact decodeUnit_unitFields .F (fun _ x => .bankTick x) 0x70#8 0#8 h

/-- Settles O1: the word of a command has the command's fields, and the decoder reads the command from them. -/
theorem decodeInvertsEncode : Obligations.DecodeInvertsEncode :=
  fun i h => (decode_encode_fields i).trans (decodeFields_encodeFields h)

/-! Encoding a decoded command. -/

/-- A location the decoder finds has the fields it was found in. -/
theorem accessFields_of_decodeRegister {f : Fields} {loc : Loc} (h : decodeRegister f = .ok loc) :
    accessFields f.opcode loc f.operand = f := by
  obtain ⟨k, n, hop, hn, rfl⟩ := decodeRegister_eq_ok_iff.1 h
  have haddr := RegName.address_of_ofAddress hn
  have hacc : accessOp n k = f.op := by
    rw [accessOp, haddr]
    unfold decodeAccessOp at hop
    split at hop
    · next hc => rw [if_pos hc, opCode_of_opOfCode hop]
    · next hc =>
      obtain ⟨h0, -⟩ : f.op = 0#4 ∧ _ := by simpa using hop
      rw [if_neg hc, h0]
  rw [accessFields_loc, registerFields, hacc, haddr]

/-- A command is the one of given fields: it is encoded by them and well formed. -/
def IsCommandOf (f : Fields) (i : Instr) : Prop := encodeFields i = f ∧ wellFormed i = true

theorem operandLegal_Z_iff {x : Word32} : operandLegal .Z x = true ↔ x = 0#32 := by
  simp [operandLegal]

/-- A command without operand is the one of the fields whose operand is legal of kind `Z`. -/
theorem isCommandOf_of_operand_Z {fields : Word32 → Fields} {i : Instr} {x : Word32} (h : encodeFields i = fields 0#32)
    (hi : wellFormed i = true) (hx : operandLegal .Z x = true) : IsCommandOf (fields x) i := by
  rw [operandLegal_Z_iff.1 hx]
  exact ⟨h, hi⟩

theorem isCommandOf_decodeOperator {kind : OperandKind} {mk : UnitIx → OpIx → Word32 → Instr} {o : BitVec 8} {f : Fields}
    {i : Instr} (ho : f.opcode = o) (h : decodeOperator kind mk f = .ok i)
    (hmk : ∀ v k x, operandLegal kind x = true → IsCommandOf (operatorFields o v k x) (mk v k x)) : IsCommandOf f i := by
  obtain ⟨hcls, hreg, k, hop, hx, rfl⟩ := decodeOperator_eq_ok_iff.1 h
  have hf : operatorFields o f.unit k f.operand = f := by
    rw [operatorFields, opCode_of_opOfCode hop, ← hcls, ← hreg, ← ho]
  have hcmd := hmk f.unit k f.operand hx
  rwa [hf] at hcmd

theorem isCommandOf_decodeUnit {kind : OperandKind} {mk : UnitIx → Word32 → Instr} {o : BitVec 8} {f : Fields}
    {i : Instr} (ho : f.opcode = o) (h : decodeUnit kind mk f = .ok i)
    (hmk : ∀ u x, operandLegal kind x = true → IsCommandOf (unitFields o u x) (mk u x)) : IsCommandOf f i := by
  obtain ⟨hcls, hreg, hop, hx, rfl⟩ := decodeUnit_eq_ok_iff.1 h
  have hf : unitFields o f.unit f.operand = f := by
    cases f
    simp_all [unitFields]
  have hcmd := hmk f.unit f.operand hx
  rwa [hf] at hcmd

theorem isCommandOf_decodeRd {f : Fields} {i : Instr} (ho : f.opcode = 0x01#8) (h : decodeRd f = .ok i) :
    IsCommandOf f i := by
  obtain ⟨hcls, hop, hreg, rfl⟩ | ⟨-, loc, hloc, hx, rfl⟩ := decodeRd_eq_ok_iff.1 h
  · refine ⟨?_, rfl⟩
    cases f
    simp_all [encodeFields, accessFields, rdOperand]
  · have hrd : rdOperand loc = f.operand := by
      obtain ⟨k, n, -, -, rfl⟩ := decodeRegister_eq_ok_iff.1 hloc
      rw [rdOperand_register, hx]
    refine ⟨?_, rfl⟩
    rw [encodeFields, hrd, ← ho, accessFields_of_decodeRegister hloc]

theorem isCommandOf_decodeWr {f : Fields} {i : Instr} (ho : f.opcode = 0x02#8) (h : decodeWr f = .ok i) :
    IsCommandOf f i := by
  obtain ⟨-, loc, hloc, hw, hx, rfl⟩ := decodeWr_eq_ok_iff.1 h
  refine ⟨?_, Bool.and_eq_true_iff.2 ⟨hw, hx⟩⟩
  rw [encodeFields, ← ho, accessFields_of_decodeRegister hloc]

theorem isCommandOf_decodeBank {f : Fields} {i : Instr} (ho : f.opcode = 0x70#8) (h : decodeBank f = .ok i) :
    IsCommandOf f i := by
  obtain ⟨hunit, hcls, hreg, hop, hx, rfl⟩ := decodeBank_eq_ok_iff.1 h
  refine ⟨?_, hx⟩
  cases f
  simp_all [encodeFields, unitFields]

/-! The rows of the opcode table (R98), each with what its command is encoded by and where it is in range. -/

/-- A row whose command addresses an operator. -/
structure OperatorRow (o : BitVec 8) (kind : OperandKind) (mk : UnitIx → OpIx → Word32 → Instr) : Prop where
  opcode : o.toNat ∈ opcodes ∧ 0x10 ≤ o.toNat ∧ o.toNat < 0x30 ∧ opcodeKind o.toNat = kind
  command : ∀ v k x, operandLegal kind x = true → IsCommandOf (operatorFields o v k x) (mk v k x)
  inRange_iff : ∀ c v k x, inRange c (mk v k x) = true ↔ v.toNat < c.nv

/-- A row whose command addresses a unit. -/
structure UnitRow (o : BitVec 8) (kind : OperandKind) (mk : UnitIx → Word32 → Instr) : Prop where
  opcode : o.toNat ∈ opcodes ∧ 0x30 ≤ o.toNat ∧ opcodeKind o.toNat = kind
  command : ∀ u x, operandLegal kind x = true → IsCommandOf (unitFields o u x) (mk u x)
  inRange_iff : ∀ c u x, inRange c (mk u x) = true ↔
    u.toNat < opcodeUnits c o.toNat ∧ (o.toNat = 0x40 → F32.lt 0#32 x = true)

/-- What the decoder makes of the fields by the row of their opcode. -/
inductive Dispatch (f : Fields) : Decoded → Prop
  | rd (ho : f.opcode = 0x01#8) : Dispatch f (decodeRd f)
  | wr (ho : f.opcode = 0x02#8) : Dispatch f (decodeWr f)
  | operator {o : BitVec 8} {kind : OperandKind} {mk : UnitIx → OpIx → Word32 → Instr} (row : OperatorRow o kind mk)
      (ho : f.opcode = o) : Dispatch f (decodeOperator kind mk f)
  | unit {o : BitVec 8} {kind : OperandKind} {mk : UnitIx → Word32 → Instr} (row : UnitRow o kind mk)
      (ho : f.opcode = o) : Dispatch f (decodeUnit kind mk f)
  | bank (ho : f.opcode = 0x70#8) : Dispatch f (decodeBank f)
  | reserved (ho : f.opcode.toNat ∉ opcodes) : Dispatch f (.error .reservedOpcode)

theorem Dispatch.ite {f : Fields} {p : Prop} [Decidable p] {a b : Decoded} (ha : p → Dispatch f a)
    (hb : ¬ p → Dispatch f b) : Dispatch f (if p then a else b) := by
  split
  · exact ha ‹_›
  · exact hb ‹_›

/-- The decoder dispatches on the rows of the opcode table. The line that ends in `fun hNN` is the row of opcode `0xNN`. -/
theorem dispatch_decodeFields (f : Fields) : Dispatch f (decodeFields f) := by
  unfold decodeFields
  refine .ite .rd fun h01 => .ite .wr fun h02 => ?_
  refine .ite (.operator ⟨by decide, fun v k x hx => ⟨?_, rfl⟩, fun c v k x => by simp [inRange]⟩) fun h10 => ?_
  · simp [encodeFields, gateWord_gateOf hx]
  refine .ite (.operator ⟨by decide, fun _ _ _ hx => ⟨rfl, hx⟩, by simp [inRange]⟩) fun h11 => ?_
  refine .ite (.operator ⟨by decide, fun _ _ _ => isCommandOf_of_operand_Z rfl rfl, by simp [inRange]⟩) fun h12 => ?_
  refine .ite (.operator ⟨by decide, fun _ _ _ hx => ⟨rfl, hx⟩, by simp [inRange]⟩) fun h20 => ?_
  refine .ite (.operator ⟨by decide, fun _ _ _ hx => ⟨rfl, hx⟩, by simp [inRange]⟩) fun h21 => ?_
  refine .ite (.operator ⟨by decide, fun _ _ _ => isCommandOf_of_operand_Z rfl rfl, by simp [inRange]⟩) fun h22 => ?_
  refine .ite (.unit ⟨by decide, fun _ _ hx => ⟨rfl, hx⟩, by simp [inRange, opcodeUnits]⟩) fun h30 => ?_
  refine .ite (.unit ⟨by decide, fun _ _ => isCommandOf_of_operand_Z rfl rfl, by simp [inRange, opcodeUnits]⟩) fun h31 => ?_
  refine .ite (.unit ⟨by decide, fun _ _ hx => ⟨rfl, hx⟩, by simp [inRange, opcodeUnits]⟩) fun h32 => ?_
  refine .ite (.unit ⟨by decide, fun _ _ hx => ⟨rfl, hx⟩, by simp [inRange, opcodeUnits]⟩) fun h40 => ?_
  refine .ite (.unit ⟨by decide, fun _ _ => isCommandOf_of_operand_Z rfl rfl, by simp [inRange, opcodeUnits]⟩) fun h41 => ?_
  refine .ite (.unit ⟨by decide, fun _ _ hx => ⟨rfl, hx⟩, by simp [inRange, opcodeUnits]⟩) fun h42 => ?_
  refine .ite (.unit ⟨by decide, fun _ _ hx => ⟨rfl, hx⟩, by simp [inRange, opcodeUnits]⟩) fun h50 => ?_
  refine .ite (.unit ⟨by decide, fun _ _ => isCommandOf_of_operand_Z rfl rfl, by simp [inRange, opcodeUnits]⟩) fun h51 => ?_
  refine .ite (.unit ⟨by decide, fun _ _ => isCommandOf_of_operand_Z rfl rfl, by simp [inRange, opcodeUnits]⟩) fun h60 => ?_
  refine .ite (.unit ⟨by decide, fun _ _ => isCommandOf_of_operand_Z rfl rfl, by simp [inRange, opcodeUnits]⟩) fun h61 => ?_
  refine .ite .bank fun h70 => .reserved ?_
  simp_all [opcodes, BitVec.toNat_eq]

/-- What the decoder reads from the fields is the command of the fields. -/
theorem isCommandOf_decodeFields {f : Fields} {i : Instr} (h : decodeFields f = .ok i) : IsCommandOf f i := by
  have hdispatch := dispatch_decodeFields f
  rw [h] at hdispatch
  generalize hd : Except.ok i = d at hdispatch
  cases hdispatch with
  | rd ho => exact isCommandOf_decodeRd ho hd.symm
  | wr ho => exact isCommandOf_decodeWr ho hd.symm
  | operator row ho => exact isCommandOf_decodeOperator ho hd.symm row.command
  | unit row ho => exact isCommandOf_decodeUnit ho hd.symm row.command
  | bank ho => exact isCommandOf_decodeBank ho hd.symm
  | reserved ho => cases hd

/-- Settles O2: the command read from a word's fields has these fields, and the word is the one word with them. -/
theorem encodeInvertsDecode : Obligations.EncodeInvertsDecode := by
  intro w i h
  obtain ⟨hf, hi⟩ := isCommandOf_decodeFields h
  exact ⟨by rw [encode, hf, Fields.toWord_ofWord], hi⟩

/-- Every command's word has the fixed bits of its row (R99). -/
theorem rowMatch (i : Instr) : Laws.RowMatch.Statement i := by
  cases i with
  | rd => exact Laws.RowMatch.rd _
  | wr => exact Laws.RowMatch.wr _ _
  | envSet => exact Laws.RowMatch.envSet _ _ _
  | envUpd => exact Laws.RowMatch.envUpd _ _ _
  | envOut => exact Laws.RowMatch.envOut _ _
  | oscSetF => exact Laws.RowMatch.oscSetF _ _ _
  | oscUpd => exact Laws.RowMatch.oscUpd _ _ _
  | oscOut => exact Laws.RowMatch.oscOut _ _
  | fmNoteOn => exact Laws.RowMatch.fmNoteOn _ _
  | fmNoteOff => exact Laws.RowMatch.fmNoteOff _
  | fmTick => exact Laws.RowMatch.fmTick _ _
  | strNoteOn => exact Laws.RowMatch.strNoteOn _ _
  | strNoteOff => exact Laws.RowMatch.strNoteOff _
  | strTick => exact Laws.RowMatch.strTick _ _
  | denvSetFlags => exact Laws.RowMatch.denvSetFlags _ _
  | denvTick => exact Laws.RowMatch.denvTick _
  | sqTick => exact Laws.RowMatch.sqTick _
  | nzTick => exact Laws.RowMatch.nzTick _
  | bankTick => exact Laws.RowMatch.bankTick _

/-- Settles O3: the word is the encoding of its command, which has the fixed bits of its row. -/
theorem decodedWordMatchesItsRow : Obligations.DecodedWordMatchesItsRow := by
  intro w i h
  obtain ⟨rfl, -⟩ := encodeInvertsDecode w i h
  exact rowMatch i

end Sys2Proof.Machine
end

section
/-! The words that the whole decoding algorithm rejects are the illegal words of 30_encoding R103 (O4), and a step ignores
them (O7, O8); an idle step (O9) and the worked encodings of R108 (O5). For each shape of row, what the decoder accepts and
what R103 leaves legal are the same conditions on the fields. -/

namespace Sys2Proof.Machine

/-! The illegal words of R103 through the fields of the word. -/

theorem toNat_extractLsb'_field (w : CmdWord) (lo len : Nat) :
    (w.extractLsb' lo len).toNat = w.toNat / 2 ^ lo % 2 ^ len := by
  rw [BitVec.extractLsb'_toNat, Nat.shiftRight_eq_div_pow]

theorem opcode_ofWord (w : CmdWord) : w.toNat / 2 ^ 56 = (Fields.ofWord w).opcode.toNat := by
  rw [Fields.ofWord, toNat_extractLsb'_field]
  omega

theorem unit_ofWord (w : CmdWord) : w.toNat / 2 ^ 48 % 2 ^ 8 = (Fields.ofWord w).unit.toNat :=
  (toNat_extractLsb'_field w 48 8).symm

theorem op_ofWord (w : CmdWord) : w.toNat / 2 ^ 44 % 2 ^ 4 = (Fields.ofWord w).op.toNat :=
  (toNat_extractLsb'_field w 44 4).symm

theorem cls_ofWord (w : CmdWord) : w.toNat / 2 ^ 40 % 2 ^ 4 = (Fields.ofWord w).cls.toNat :=
  (toNat_extractLsb'_field w 40 4).symm

theorem reg_ofWord (w : CmdWord) : w.toNat / 2 ^ 32 % 2 ^ 8 = (Fields.ofWord w).reg.toNat :=
  (toNat_extractLsb'_field w 32 8).symm

theorem operand_ofWord (w : CmdWord) : w.toNat % 2 ^ 32 = (Fields.ofWord w).operand.toNat := by
  rw [Fields.ofWord, toNat_extractLsb'_field, Nat.pow_zero, Nat.div_one]

/-- The legality of R93 in the words of R103 (e). -/
theorem operandLegal_iff {kind : OperandKind} {x : Word32} :
    operandLegal kind x = true ↔
      ¬ (kind = .F ∧ nonFinite x.toNat) ∧ ¬ (kind = .G ∧ 1 < x.toNat) ∧ ¬ (kind = .Z ∧ x.toNat ≠ 0) := by
  cases kind with
  | F => simp [operandLegal, F32.isFinite, F32.expField, nonFinite]
  | G =>
    have hbits : x.extractLsb' 1 31 = 0#31 ↔ ¬ 1 < x.toNat := by
      rw [← BitVec.toNat_inj, BitVec.extractLsb'_toNat, Nat.shiftRight_eq_div_pow]
      have := x.isLt
      simp
      omega
    simp [operandLegal, hbits]
  | Z => simp [operandLegal, ← BitVec.toNat_inj]
  | U | X => simp [operandLegal]

/-- A finite pattern above +0 is one that is neither zero nor negative (R103 (f)). -/
theorem F32.zero_lt_iff {x : Sample} (h : F32.isFinite x = true) :
    F32.lt 0#32 x = true ↔ ¬ (x.toNat = 0 ∨ 2 ^ 31 ≤ x.toNat) := by
  have hzero : F32.isNan 0#32 = false ∧ F32.order 0#32 = 0 := by decide
  simp only [F32.lt, hzero, F32.isNan_of_isFinite h, F32.order, F32.sign, F32.absBits, BitVec.msb_eq_decide]
  have := x.isLt
  simp
  omega

/-- The illegal words with an opcode that addresses no register. -/
theorem not_illegalWord_iff_of_command {c : Cfg} {w : CmdWord} {f : Fields} (hf : Fields.ofWord w = f)
    (hmem : f.opcode.toNat ∈ opcodes) (h10 : 0x10 ≤ f.opcode.toNat) :
    ¬ IllegalWord c w ↔ f.cls = 0#4 ∧ f.reg = 0#8 ∧ (if f.opcode.toNat < 0x30 then f.op.toNat ≤ 2 else f.op = 0#4) ∧
      f.unit.toNat < opcodeUnits c f.opcode.toNat ∧ operandLegal (opcodeKind f.opcode.toNat) f.operand = true ∧
      (f.opcode.toNat = 0x40 → ¬ (f.operand.toNat = 0 ∨ 2 ^ 31 ≤ f.operand.toNat)) := by
  have h1 : f.opcode.toNat ≠ 0x01 := by omega
  have h2 : f.opcode.toNat ≠ 0x02 := by omega
  simp only [IllegalWord, opcode_ofWord, unit_ofWord, op_ofWord, cls_ofWord, reg_ofWord, operand_ofWord, hf,
    hmem, h10, h1, h2, operandLegal_iff, ← BitVec.toNat_inj]
  by_cases h30 : f.opcode.toNat < 0x30
  · simp [h30]
    tauto
  · simp [h30]
    tauto

/-! Register access: the (class, register) pairs of R192 are the addresses of the register map. -/

/-- The fields of an access name a register or a delay line of the configuration (R103 (d), (g)). -/
def AccessInRange (c : Cfg) (f : Fields) : Prop :=
  f.unit.toNat < classUnits c f.cls.toNat ∧ f.reg.toNat ∈ classRegs f.cls.toNat ∧ (f.cls ≠ 0#4 → f.op = 0#4) ∧
    (f.cls = 0#4 → f.op.toNat ≤ 2)

theorem cls_le_of_mem_classRegs {cls reg : Nat} (h : reg ∈ classRegs cls) : cls ≤ 5 := by
  by_contra hgt
  have hne : cls ≠ 0 ∧ cls ≠ 1 ∧ cls ≠ 2 ∧ cls ≠ 3 ∧ cls ≠ 4 ∧ cls ≠ 5 := by omega
  simp [classRegs, hne] at h

/-- The illegal words with the opcode of `RD`. -/
theorem not_illegalWord_iff_of_rd {c : Cfg} {w : CmdWord} {f : Fields} (hf : Fields.ofWord w = f)
    (ho : f.opcode = 0x01#8) :
    ¬ IllegalWord c w ↔ AccessInRange c f ∧ (f.cls ≠ 5#4 → f.operand = 0#32) ∧
      (f.cls = 5#4 → f.operand.toNat < c.par.cap) := by
  have hcls := @cls_le_of_mem_classRegs f.cls.toNat f.reg.toNat
  simp only [IllegalWord, opcode_ofWord, unit_ofWord, op_ofWord, cls_ofWord, reg_ofWord, operand_ofWord, hf, ho,
    AccessInRange, ne_eq, ← BitVec.toNat_inj]
  simp [opcodes]
  tauto

/-- The illegal words with the opcode of `WR`. -/
theorem not_illegalWord_iff_of_wr {c : Cfg} {w : CmdWord} {f : Fields} (hf : Fields.ofWord w = f)
    (ho : f.opcode = 0x02#8) :
    ¬ IllegalWord c w ↔ AccessInRange c f ∧
      (f.cls.toNat, f.reg.toNat) ∈ writableSample ++ writableInteger ∧
      ((f.cls.toNat, f.reg.toNat) ∈ writableSample → ¬ nonFinite f.operand.toNat) := by
  have hcls := @cls_le_of_mem_classRegs f.cls.toNat f.reg.toNat
  simp only [IllegalWord, opcode_ofWord, unit_ofWord, op_ofWord, cls_ofWord, reg_ofWord, operand_ofWord, hf, ho,
    AccessInRange, ne_eq, ← BitVec.toNat_inj]
  simp [opcodes]
  tauto

theorem opOfCode_isSome_iff {b : BitVec 4} : (∃ k, opOfCode b = some k) ↔ b.toNat ≤ 2 := by
  constructor
  · rintro ⟨k, hk⟩
    rw [← opCode_of_opOfCode hk]
    cases k <;> decide
  · intro h
    have hb : b = 0#4 ∨ b = 1#4 ∨ b = 2#4 := by
      simp only [← BitVec.toNat_inj, BitVec.toNat_ofNat]
      omega
    rcases hb with rfl | rfl | rfl
    · exact ⟨.op0, rfl⟩
    · exact ⟨.op1, rfl⟩
    · exact ⟨.op2, rfl⟩

theorem decodeAccessOp_isSome_iff {f : Fields} :
    (∃ k, decodeAccessOp f = some k) ↔ (f.cls ≠ 0#4 → f.op = 0#4) ∧ (f.cls = 0#4 → f.op.toNat ≤ 2) := by
  by_cases hc : f.cls = 0#4
  · simp [decodeAccessOp, hc, opOfCode_isSome_iff]
  · simp [decodeAccessOp, hc]

theorem RegName.mem_classRegs (n : RegName) : n.address.2.toNat ∈ classRegs n.address.1.toNat := by
  rcases n with r | r | r | r | r | r <;> cases r <;> decide

/-- Every pair that R192 lists outside class 5 is the address of a register. -/
theorem RegName.ofAddress_isSome {cls : BitVec 4} {reg : BitVec 8} (h5 : cls ≠ 5#4)
    (h : reg.toNat ∈ classRegs cls.toNat) : ∃ n, RegName.ofAddress cls reg = some n := by
  have hlisted : ∀ a < 16, a ≠ 5 → ∀ r ∈ classRegs a,
      (RegName.ofAddress (BitVec.ofNat 4 a) (BitVec.ofNat 8 r)).isSome = true := by decide
  have hsome := hlisted cls.toNat cls.isLt (fun h => h5 (BitVec.eq_of_toNat_eq h)) reg.toNat h
  rw [BitVec.ofNat_toNat, BitVec.ofNat_toNat, BitVec.setWidth_eq, BitVec.setWidth_eq] at hsome
  exact Option.isSome_iff_exists.1 hsome

theorem locExists_register {c : Cfg} (n : RegName) (u : UnitIx) (k : OpIx) :
    locExists c (n.loc u k) = true ↔ u.toNat < classUnits c n.address.1.toNat := by
  rcases n with r | r | r | r | r | r <;> cases r <;>
    simp [locExists, RegName.loc, RegName.address, classUnits]

/-- The host-writable registers are the pairs of R43. -/
theorem locWritable_register (n : RegName) (u : UnitIx) (k : OpIx) :
    locWritable (n.loc u k) = true ↔ (n.address.1.toNat, n.address.2.toNat) ∈ writableSample ++ writableInteger := by
  rcases n with r | r | r | r | r | r <;> cases r <;>
    simp [locWritable, RegName.loc, RegName.address, writableSample, writableInteger]

/-- A host-writable register is of kind `F` where R43 lists a value of `S`, else of kind `U`. -/
theorem wrKind_register {n : RegName} {u : UnitIx} {k : OpIx} (h : locWritable (n.loc u k) = true) :
    wrKind (n.loc u k) = if (n.address.1.toNat, n.address.2.toNat) ∈ writableSample then .F else .U := by
  rcases n with r | r | r | r | r | r <;> cases r <;>
    simp_all [locWritable, wrKind, RegName.loc, RegName.address, writableSample]

/-- What `WR` asks of the register it names (R103 (e), (g)). -/
theorem writable_iff_of_decodeRegister {f : Fields} {loc : Loc} (h : decodeRegister f = .ok loc) :
    locWritable loc = true ∧ operandLegal (wrKind loc) f.operand = true ↔
      (f.cls.toNat, f.reg.toNat) ∈ writableSample ++ writableInteger ∧
      ((f.cls.toNat, f.reg.toNat) ∈ writableSample → ¬ nonFinite f.operand.toNat) := by
  obtain ⟨k, n, -, hn, rfl⟩ := decodeRegister_eq_ok_iff.1 h
  have haddr := RegName.address_of_ofAddress hn
  have hwritable := locWritable_register n f.unit k
  have hkind := @wrKind_register n f.unit k
  rw [haddr] at hwritable hkind
  rw [← hwritable]
  refine and_congr_right fun hw => ?_
  rw [hkind hw]
  split <;> simp [operandLegal_iff, *]

/-- The decoder finds a register of the configuration in the fields of an access outside class 5 that is in range. -/
theorem accessInRange_iff {c : Cfg} {f : Fields} (h5 : f.cls ≠ 5#4) :
    AccessInRange c f ↔ ∃ loc, decodeRegister f = .ok loc ∧ locExists c loc = true := by
  constructor
  · rintro ⟨hu, hreg, hop⟩
    obtain ⟨k, hk⟩ := decodeAccessOp_isSome_iff.2 hop
    obtain ⟨n, hn⟩ := RegName.ofAddress_isSome h5 hreg
    refine ⟨n.loc f.unit k, decodeRegister_eq_ok_iff.2 ⟨k, n, hk, hn, rfl⟩, (locExists_register n f.unit k).2 ?_⟩
    rwa [RegName.address_of_ofAddress hn]
  · rintro ⟨loc, hloc, hex⟩
    obtain ⟨k, n, hk, hn, rfl⟩ := decodeRegister_eq_ok_iff.1 hloc
    have haddr := RegName.address_of_ofAddress hn
    have hu := (locExists_register n f.unit k).1 hex
    have hreg := n.mem_classRegs
    rw [haddr] at hu hreg
    exact ⟨hu, hreg, decodeAccessOp_isSome_iff.1 ⟨k, hk⟩⟩

/-! What the whole decoding algorithm of R100 accepts. -/

/-- The decoder answered a command that is legal in the configuration. -/
def Accepts (c : Cfg) (d : Decoded) : Prop := ∃ i, d = .ok i ∧ legal c i = true

theorem decodeCommand_eq_none_iff {c : Cfg} {w : CmdWord} : decodeCommand c w = none ↔ ¬ Accepts c (decode w) := by
  unfold decodeCommand Accepts
  cases decode w <;> simp

theorem legal_iff {c : Cfg} {i : Instr} : legal c i = true ↔ wellFormed i = true ∧ inRange c i = true :=
  Bool.and_eq_true_iff

theorem accepts_decodeOperator_iff {c : Cfg} {f : Fields} {o : BitVec 8} {kind : OperandKind}
    {mk : UnitIx → OpIx → Word32 → Instr} (row : OperatorRow o kind mk) :
    Accepts c (decodeOperator kind mk f) ↔ f.cls = 0#4 ∧ f.reg = 0#8 ∧ f.op.toNat ≤ 2 ∧ f.unit.toNat < c.nv ∧
      operandLegal kind f.operand = true := by
  constructor
  · rintro ⟨i, hi, hl⟩
    obtain ⟨hcls, hreg, k, hop, hx, rfl⟩ := decodeOperator_eq_ok_iff.1 hi
    exact ⟨hcls, hreg, opOfCode_isSome_iff.1 ⟨k, hop⟩, (row.inRange_iff _ _ _ _).1 (legal_iff.1 hl).2, hx⟩
  · rintro ⟨hcls, hreg, hop, hu, hx⟩
    obtain ⟨k, hk⟩ := opOfCode_isSome_iff.2 hop
    exact ⟨_, decodeOperator_eq_ok_iff.2 ⟨hcls, hreg, k, hk, hx, rfl⟩,
      legal_iff.2 ⟨(row.command _ _ _ hx).2, (row.inRange_iff _ _ _ _).2 hu⟩⟩

theorem accepts_decodeUnit_iff {c : Cfg} {f : Fields} {o : BitVec 8} {kind : OperandKind}
    {mk : UnitIx → Word32 → Instr} (row : UnitRow o kind mk) :
    Accepts c (decodeUnit kind mk f) ↔ f.cls = 0#4 ∧ f.reg = 0#8 ∧ f.op = 0#4 ∧
      f.unit.toNat < opcodeUnits c o.toNat ∧ operandLegal kind f.operand = true ∧
      (o.toNat = 0x40 → F32.lt 0#32 f.operand = true) := by
  constructor
  · rintro ⟨i, hi, hl⟩
    obtain ⟨hcls, hreg, hop, hx, rfl⟩ := decodeUnit_eq_ok_iff.1 hi
    obtain ⟨hu, hpos⟩ := (row.inRange_iff _ _ _).1 (legal_iff.1 hl).2
    exact ⟨hcls, hreg, hop, hu, hx, hpos⟩
  · rintro ⟨hcls, hreg, hop, hu, hx, hpos⟩
    exact ⟨_, decodeUnit_eq_ok_iff.2 ⟨hcls, hreg, hop, hx, rfl⟩,
      legal_iff.2 ⟨(row.command _ _ hx).2, (row.inRange_iff _ _ _).2 ⟨hu, hpos⟩⟩⟩

theorem accepts_decodeBank_iff {c : Cfg} {f : Fields} :
    Accepts c (decodeBank f) ↔ f.unit = 0#8 ∧ f.cls = 0#4 ∧ f.reg = 0#8 ∧ f.op = 0#4 ∧
      operandLegal .F f.operand = true := by
  constructor
  · rintro ⟨i, hi, -⟩
    obtain ⟨hu, hcls, hreg, hop, hx, -⟩ := decodeBank_eq_ok_iff.1 hi
    exact ⟨hu, hcls, hreg, hop, hx⟩
  · rintro ⟨hu, hcls, hreg, hop, hx⟩
    exact ⟨_, decodeBank_eq_ok_iff.2 ⟨hu, hcls, hreg, hop, hx, rfl⟩, legal_iff.2 ⟨hx, rfl⟩⟩

theorem accepts_decodeRd_iff {c : Cfg} {f : Fields} :
    Accepts c (decodeRd f) ↔ AccessInRange c f ∧ (f.cls ≠ 5#4 → f.operand = 0#32) ∧
      (f.cls = 5#4 → f.operand.toNat < c.par.cap) := by
  by_cases h5 : f.cls = 5#4
  · have hdl : AccessInRange c f ↔ f.unit.toNat < c.ns ∧ f.reg = 0#8 ∧ f.op = 0#4 := by
      simp [AccessInRange, h5, classUnits, classRegs, ← BitVec.toNat_inj]
    rw [hdl]
    constructor
    · rintro ⟨i, hi, hl⟩
      obtain ⟨-, hop, hreg, rfl⟩ | ⟨hne, -⟩ := decodeRd_eq_ok_iff.1 hi
      · obtain ⟨hu, ha⟩ : f.unit.toNat < c.ns ∧ f.operand.toNat < c.par.cap := by
          simpa [inRange, locExists] using (legal_iff.1 hl).2
        exact ⟨⟨hu, hreg, hop⟩, fun hne => absurd h5 hne, fun _ => ha⟩
      · exact absurd h5 hne
    · rintro ⟨⟨hu, hreg, hop⟩, -, ha⟩
      exact ⟨_, decodeRd_eq_ok_iff.2 (.inl ⟨h5, hop, hreg, rfl⟩),
        legal_iff.2 ⟨rfl, by simpa [inRange, locExists] using ⟨hu, ha h5⟩⟩⟩
  · rw [accessInRange_iff h5]
    constructor
    · rintro ⟨i, hi, hl⟩
      obtain ⟨hc, -⟩ | ⟨-, loc, hloc, hx, rfl⟩ := decodeRd_eq_ok_iff.1 hi
      · exact absurd hc h5
      · exact ⟨⟨loc, hloc, (legal_iff.1 hl).2⟩, fun _ => hx, fun hc => absurd hc h5⟩
    · rintro ⟨⟨loc, hloc, hex⟩, hx, -⟩
      exact ⟨_, decodeRd_eq_ok_iff.2 (.inr ⟨h5, loc, hloc, hx h5, rfl⟩), legal_iff.2 ⟨rfl, hex⟩⟩

theorem accepts_decodeWr_iff {c : Cfg} {f : Fields} :
    Accepts c (decodeWr f) ↔ AccessInRange c f ∧
      (f.cls.toNat, f.reg.toNat) ∈ writableSample ++ writableInteger ∧
      ((f.cls.toNat, f.reg.toNat) ∈ writableSample → ¬ nonFinite f.operand.toNat) := by
  by_cases h5 : f.cls = 5#4
  · have hro : (f.cls.toNat, f.reg.toNat) ∉ writableSample ++ writableInteger := by
      simp [h5, writableSample, writableInteger]
    have hrej : ¬ Accepts c (decodeWr f) := by simp [Accepts, decodeWr_eq_ok_iff, h5]
    exact iff_of_false hrej fun ⟨_, hw, _⟩ => hro hw
  rw [accessInRange_iff h5]
  constructor
  · rintro ⟨i, hi, hl⟩
    obtain ⟨-, loc, hloc, hw, hx, rfl⟩ := decodeWr_eq_ok_iff.1 hi
    exact ⟨⟨loc, hloc, (legal_iff.1 hl).2⟩, (writable_iff_of_decodeRegister hloc).1 ⟨hw, hx⟩⟩
  · rintro ⟨⟨loc, hloc, hex⟩, hfields⟩
    obtain ⟨hw, hx⟩ := (writable_iff_of_decodeRegister hloc).2 hfields
    exact ⟨_, decodeWr_eq_ok_iff.2 ⟨h5, loc, hloc, hw, hx, rfl⟩, legal_iff.2 ⟨Bool.and_eq_true_iff.2 ⟨hw, hx⟩, hex⟩⟩

/-! The illegal words are the rejected ones, row by row. -/

theorem accepts_decode_iff (c : Cfg) (w : CmdWord) : Accepts c (decode w) ↔ ¬ IllegalWord c w := by
  obtain ⟨f, hf⟩ : ∃ f, Fields.ofWord w = f := ⟨_, rfl⟩
  have hdispatch := dispatch_decodeFields f
  rw [decode, hf]
  generalize decodeFields f = d at hdispatch
  cases hdispatch with
  | rd ho => rw [accepts_decodeRd_iff, not_illegalWord_iff_of_rd hf ho]
  | wr ho => rw [accepts_decodeWr_iff, not_illegalWord_iff_of_wr hf ho]
  | operator row ho =>
    subst ho
    obtain ⟨hmem, h10, h30, hkind⟩ := row.opcode
    rw [accepts_decodeOperator_iff row, not_illegalWord_iff_of_command hf hmem h10, hkind, if_pos h30]
    have hunits : opcodeUnits c f.opcode.toNat = c.nv := if_pos (by omega)
    have h40 : f.opcode.toNat ≠ 0x40 := by omega
    simp [hunits, h40]
  | unit row ho =>
    subst ho
    obtain ⟨hmem, h30, hkind⟩ := row.opcode
    rw [accepts_decodeUnit_iff row, not_illegalWord_iff_of_command hf hmem (by omega), hkind, if_neg (by omega)]
    refine and_congr_right fun _ => and_congr_right fun _ => and_congr_right fun _ => and_congr_right fun _ =>
      and_congr_right fun hx => imp_congr_right fun h40 => F32.zero_lt_iff ?_
    rwa [← hkind, h40] at hx
  | bank ho =>
    rw [accepts_decodeBank_iff, not_illegalWord_iff_of_command hf (by rw [ho]; decide) (by rw [ho]; decide), ho]
    simp [opcodeUnits, opcodeKind, ← BitVec.toNat_inj]
    tauto
  | reserved ho =>
    have hill : IllegalWord c w := .inl (by rwa [opcode_ofWord, hf])
    simp [Accepts, hill]

/-- Settles O4: by the rows of the opcode table. -/
theorem decodingRejectsExactlyIllegalWords : Obligations.DecodingRejectsExactlyIllegalWords :=
  fun c w => decodeCommand_eq_none_iff.trans (accepts_decode_iff c w).not_left

/-! The step on an illegal word and on no word. -/

/-- Settles O8: an illegal command is ignored, whichever it is. -/
theorem illegalCommandIsIgnored : Obligations.IllegalCommandIsIgnored := fun _ _ h => exec_illegal h

/-- The step on a stream whose next word does not decode. -/
theorem step_of_decode_error {s : State} {w : CmdWord} {rest : List CmdWord} {e : DecodeError} (hs : s.cmds = w :: rest)
    (hw : decode w = .error e) : step s = .next (s.withCmds rest).ignore := by
  have hf : s.fetch = some (w, s.withCmds rest) := by simp [State.fetch, hs]
  simp only [step, hf, hw]

/-- A word the decoding algorithm rejects is taken from the stream and ignored. -/
theorem step_of_decodeCommand_none {s : State} {w : CmdWord} {rest : List CmdWord} (hs : s.cmds = w :: rest)
    (hw : decodeCommand s.cfg w = none) : step s = .next (s.withCmds rest).ignore := by
  cases hd : decode w with
  | ok i =>
    have hlegal : legal s.cfg i = false := by simpa [decodeCommand, hd] using hw
    rw [step_of_decode hs hd]
    exact exec_illegal hlegal
  | error e => exact step_of_decode_error hs hd

/-- Settles O7: an illegal word is one the decoding algorithm rejects. -/
theorem illegalWordIsIgnored : Obligations.IllegalWordIsIgnored :=
  fun s w _ hs hw => step_of_decodeCommand_none hs ((decodingRejectsExactlyIllegalWords s.cfg w).2 hw)

/-- The step of an idle block. -/
theorem step_of_cmds_nil {s : State} (hs : s.cmds = []) : step s = .next s.ignore := by
  have hf : s.fetch = none := by simp [State.fetch, hs]
  simp only [step, hf]

/-- Settles O9: with nothing fetched the step ignores. -/
theorem idleBlockHoldsItsState : Obligations.IdleBlockHoldsItsState := fun _ hs => step_of_cmds_nil hs

/-! The worked encodings of R108. -/

/-- A text that stands for one well-formed command assembles to its word, which decodes to it. -/
theorem assemble_and_decode {text : List Char} {w : CmdWord} {i : Instr} (hline : Asm.line text = some [i])
    (hw : encode i = w) (hi : wellFormed i = true) : Asm.assemble text = some [w] ∧ decode w = .ok i := by
  subst hw
  exact ⟨by simp [Asm.assemble, hline], decodeInvertsEncode i hi⟩

/-- Settles O5: each text is read as its command by evaluation; the words are those of the commands. -/
theorem workedEncodingsOfTheSpec : Obligations.WorkedEncodingsOfTheSpec :=
  ⟨assemble_and_decode (by decide +kernel) (by decide) (by decide),
    assemble_and_decode (by decide +kernel) (by decide) (by decide),
    assemble_and_decode (by decide +kernel) (by decide) (by decide),
    assemble_and_decode (by decide +kernel) (by decide) (by decide),
    assemble_and_decode (by decide +kernel) (by decide) (by decide),
    assemble_and_decode (by decide +kernel) (by decide) (by decide)⟩

end Sys2Proof.Machine
end

section
/-! The continuous envelope (40_envelope): O21 to O25. -/

namespace Sys2Proof.Machine

variable {S : Type}

/-! `ENV.UPD` (R116), one lemma per register it writes. -/

/-- The state `st` of the envelope is a timed one and the timer `t` exceeds its duration (R115, R116). -/
def envLeaves (num : Num S) (e : Envelope S) (t : S) : Bool :=
  match e.st with
  | .attack => num.lt e.A t
  | .decay => num.lt e.D t
  | .sustain => false
  | .release => num.lt e.R t
  | .off => false

/-- The state in which a time-out leaves the envelope (R115); a state that is not timed is its own. -/
def EnvState.next : EnvState → EnvState
  | .attack => .decay
  | .decay => .sustain
  | .sustain => .sustain
  | .release => .off
  | .off => .off

/-- Step 3 of `ENV.UPD` (R116): the test, and what it changes. -/
theorem envLeave_eq (num : Num S) (e : Envelope S) :
    envLeave num e = if envLeaves num e e.t then { e with st := e.st.next, t := num.zero } else e := by
  obtain ⟨A, D, SL, R, st, t, out⟩ := e
  cases st <;> rfl

theorem envUpd_out (num : Num S) (dt : S) (e : Envelope S) :
    (envUpd num dt e).out = envOutput num e e.st (num.add e.t dt) := by
  rw [envUpd, envLeave_eq]
  split <;> rfl

theorem envUpd_t (num : Num S) (dt : S) (e : Envelope S) :
    (envUpd num dt e).t = if envLeaves num e (num.add e.t dt) then num.zero else num.add e.t dt := by
  rw [envUpd, envLeave_eq, apply_ite Envelope.t]
  rfl

theorem envUpd_st (num : Num S) (dt : S) (e : Envelope S) :
    (envUpd num dt e).st = if envLeaves num e (num.add e.t dt) then e.st.next else e.st := by
  rw [envUpd, envLeave_eq, apply_ite Envelope.st]
  rfl

/-! The commands. `ENV.SET` and `ENV.UPD` step the envelope of one operator and write `st`, `t` and `out` (R42). -/

/-- A location is `st`, `t` or `out` of the envelope of operator `k` of voice `v`. -/
abbrev EnvTickLoc (v : UnitIx) (k : OpIx) (loc : Loc) : Prop :=
  loc = .env v k .st ∨ loc = .env v k .t ∨ loc = .env v k .out

theorem envTickLoc_of_envTickReg {v : UnitIx} {k : OpIx} {r : EnvReg} (h : mayWrite.envTickReg r = true) :
    EnvTickLoc v k (.env v k r) := by
  cases r with
  | st => exact .inl rfl
  | t => exact .inr (.inl rfl)
  | out => exact .inr (.inr rfl)
  | A | D | SL | R => exact absurd h (by decide)

section
variable {s : State} {v : UnitIx} {k : OpIx} {x : FmVoice Sample}

/-- A legal command that steps the envelope of one operator of a voice: the registers of that envelope afterwards, no
result, and the frame of the voice as the frame of the state. -/
theorem exec_setEnv {i : Instr} {f : Envelope Sample → Envelope Sample} {W : Loc → Prop}
    (hexec : exec i s = perform i s fun s => s.onVoice v fun x => (x.setEnv k (f (x.op k).env), .none))
    (hlegal : legal s.cfg i = true) (hx : s.fm[v.toNat]? = some x)
    (hframe : FmVoice.Frame v W x (x.setEnv k (f (x.op k).env))) :
    ∃ t, exec i s = .next t ∧ t.result = .none ∧
      (∀ r, t.readLoc (.env v k r) = envRegResult (f (x.op k).env) r) ∧ s.OnlyChanges t W := by
  obtain ⟨henv, hosc⟩ := hframe
  refine ⟨_, hexec.trans (perform_legal hlegal), ?_, fun r => ?_, ?_⟩
  · rw [State.onVoice_some hx, State.withResult_result]
  · rw [State.onVoice_some hx, State.withResult_readLoc, State.readLoc_set_env _ (unit_lt hx), if_pos rfl,
      FmVoice.setEnv_env_same]
  · rw [State.onVoice_some hx]
    exact State.OnlyChanges_voice hx W henv hosc

/-- Everything `ENV.SET` does to a voice that is there. -/
theorem exec_envSet_of (gate : Bool) (hx : s.fm[v.toNat]? = some x) :
    ∃ t, exec (.envSet v k gate) s = .next t ∧ t.result = .none ∧
      (∀ r, t.readLoc (.env v k r) = envRegResult (envSet numF32 gate (x.op k).env) r) ∧
      s.OnlyChanges t (EnvTickLoc v k) :=
  exec_setEnv (exec_envSet v k gate s) (by simp [legal, wellFormed, inRange, unit_lt hx]) hx
    (.envSet gate (fun _ => envTickLoc_of_envTickReg) x)

/-- Everything `ENV.UPD` by a finite time does to a voice that is there. -/
theorem exec_envUpd_of {dt : Word32} (hdt : F32.isFinite dt = true) (hx : s.fm[v.toNat]? = some x) :
    ∃ t, exec (.envUpd v k dt) s = .next t ∧ t.result = .none ∧
      (∀ r, t.readLoc (.env v k r) = envRegResult (envUpd numF32 dt (x.op k).env) r) ∧
      s.OnlyChanges t (EnvTickLoc v k) :=
  exec_setEnv (exec_envUpd v k dt s) (by simp [legal, wellFormed, operandLegal, hdt, inRange, unit_lt hx]) hx
    (.envUpd dt (fun _ => envTickLoc_of_envTickReg) x)

/-- Presenting a value read from a voice is all that `ENV.OUT` does. -/
theorem exec_envOut_of (hx : s.fm[v.toNat]? = some x) :
    exec (.envOut v k) s = .next (s.withResult (.sample (x.op k).env.out)) := by
  have hlegal : legal s.cfg (.envOut v k) = true := by simp [legal, wellFormed, inRange, unit_lt hx]
  rw [exec_envOut, perform_legal hlegal, State.onVoice_some hx, set_unit_self hx]
  rfl

end

/-- Settles O21: the new envelope by cases on the gate. -/
theorem envSetRestartsTheEnvelope : Obligations.EnvSetRestartsTheEnvelope := by
  intro s v k gate x hx
  obtain ⟨t, hexec, hres, hread, hframe⟩ := exec_envSet_of (k := k) gate hx
  refine ⟨rfl, t, hexec, hres, ?_, ?_, ?_, hframe⟩
  · rw [hread]
    cases gate <;> rfl
  · rw [hread, envRegResult, envSet, numF32_zero]
  · rw [hread, envRegResult, envSet, numF32_zero]
    cases gate with
    | true => simp only [if_true, envOutput, envf_attack]
    | false => simp only [Bool.false_eq_true, if_false, envOutput, envf_release]

/-- Settles O22: the three registers of `ENV.UPD`, each by cases on the state held on entry. -/
theorem envUpdAdvancesTheEnvelope : Obligations.EnvUpdAdvancesTheEnvelope := by
  intro s v k dt x hdt hx
  obtain ⟨t, hexec, hres, hread, hframe⟩ := exec_envUpd_of (k := k) hdt hx
  refine ⟨rfl, t, hexec, hres, ?_, ?_, ?_, hframe⟩
  · rw [hread, envRegResult, envUpd_out]
    cases (x.op k).env.st with
    | attack => exact congrArg Result.sample (envf_attack ..)
    | decay => exact congrArg Result.sample (envf_decay ..)
    | sustain => exact congrArg Result.sample (envf_sustain ..)
    | release => exact congrArg Result.sample (envf_release ..)
    | off => exact congrArg Result.sample (envf_off ..)
  · rw [hread, envRegResult, envUpd_t, envLeaves, numF32_zero]
    cases (x.op k).env.st <;> rfl
  · rw [hread, envRegResult, envUpd_st, envLeaves, apply_ite envStateCode]
    cases (x.op k).env.st <;> rfl

/-- Settles O23: the meaning of `ENV.OUT` on a voice that is there. -/
theorem envOutPresentsTheStoredOutput : Obligations.EnvOutPresentsTheStoredOutput :=
  fun _ _ _ _ hx => ⟨rfl, exec_envOut_of hx⟩

/-! The output formulas at the state boundaries (R120) over the reals. -/

@[simp] theorem numReal_zero : numReal.zero = 0 := Nat.cast_zero

@[simp] theorem numReal_one : numReal.one = 1 := Nat.cast_one

/-- A positive duration does not take the branch of R112 for one at or below 0. -/
theorem numReal_le_zero_of_pos {a : ℝ} (h : 0 < a) : numReal.le a numReal.zero = false := by
  rw [numReal_zero]
  exact decide_eq_false h.not_ge

section
variable (t : ℝ) {A D R : ℝ} (SL : ℝ)

theorem envf_attack_real (hA : 0 < A) : envf numReal .attack t A D SL R = t / A := by
  simp only [envf, numReal_le_zero_of_pos hA, numReal_div hA.ne', Bool.false_eq_true, if_false]

theorem envf_decay_real (hD : 0 < D) : envf numReal .decay t A D SL R = (1 - t / D) + t / D * SL := by
  simp only [envf, numReal_le_zero_of_pos hD, numReal_div hD.ne', Bool.false_eq_true, if_false, numReal_one]
  rfl

theorem envf_release_real (hR : 0 < R) : envf numReal .release t A D SL R = SL * (1 - t / R) := by
  simp only [envf, numReal_le_zero_of_pos hR, numReal_div hR.ne', Bool.false_eq_true, if_false, numReal_one]
  rfl

end

/-- Settles O24: a duration over itself is 1, so each formula ends where the next one starts. -/
theorem envelopeIsContinuousAtBoundaries : Obligations.EnvelopeIsContinuousAtBoundaries := by
  intro A D SL R hA hD hR
  refine ⟨⟨?_, ?_⟩, ⟨?_, rfl⟩, ⟨?_, numReal_zero⟩⟩
  · rw [envf_attack_real A SL hA, div_self hA.ne']
  · rw [envf_decay_real 0 SL hD, zero_div, sub_zero, zero_mul, add_zero]
  · rw [envf_decay_real D SL hD, div_self hD.ne', sub_self, zero_add, one_mul]
  · rw [envf_release_real R SL hR, div_self hR.ne', sub_self, mul_zero]

/-! The same boundary in binary32. The operations round correctly (O54), so one whose exact result is a word that is not a
zero gives that word (O56). -/

@[simp] theorem realOfF32_zero : realOfF32 0#32 = 0 := by
  rw [realOfF32_eq_toInt (by decide), show F32.toInt 0#32 = 0 by decide, Int.cast_zero, zero_div]

@[simp] theorem realOfF32_one : realOfF32 0x3F800000#32 = 1 := by
  have hone : F32.toInt 0x3F800000#32 = 2 ^ 149 := by decide +kernel
  rw [realOfF32_eq_toInt (by decide), hone]
  norm_num

theorem realToF32_one : realToF32 1 = 0x3F800000#32 := by
  rw [← realOfF32_one, realToF32_realOfF32 (by decide) (by decide)]

/-- The two zeros are the only finite words of value 0. -/
theorem eq_zero_of_realOfF32 {x : Sample} (hx : F32.isFinite x = true) (hneg : x ≠ 0x80000000#32)
    (h0 : realOfF32 x = 0) : x = 0#32 := by
  rw [← realToF32_realOfF32 hx hneg, h0, ← realOfF32_zero, realToF32_realOfF32 (by decide) (by decide)]

theorem realOfF32_pos {x : Sample} (hx : F32.isFinite x = true) (hpos : F32.lt 0#32 x = true) : 0 < realOfF32 x := by
  obtain ⟨hlt, -, -⟩ := comparisonsAndRoundingFollowTheReals 0#32 x (by decide) hx
  simpa using hlt.1 hpos

theorem F32.le_zero_of_pos {x : Sample} (hx : F32.isFinite x = true) (hpos : F32.lt 0#32 x = true) :
    F32.le x 0#32 = false := by
  obtain ⟨-, hle, -⟩ := comparisonsAndRoundingFollowTheReals x 0#32 hx (by decide)
  rw [Bool.eq_false_iff, Ne, hle, realOfF32_zero, not_le]
  exact realOfF32_pos hx hpos

theorem F32.div_self_of_pos {x : Sample} (hx : F32.isFinite x = true) (hpos : F32.lt 0#32 x = true) :
    F32.div x x = 0x3F800000#32 := by
  have hne := (realOfF32_pos hx hpos).ne'
  have hone : realOfF32 x / realOfF32 x = 1 := div_self hne
  rw [div_eq_realToF32 hx hx hne (hone ▸ one_ne_zero), hone, realToF32_one]

theorem F32.sub_one_one : F32.sub 0x3F800000#32 0x3F800000#32 = 0#32 := by decide +kernel

theorem F32.one_mul_of_finite {x : Sample} (hx : F32.isFinite x = true) : F32.mul 0x3F800000#32 x = x := by
  by_cases hneg : x = 0x80000000#32
  · subst hneg
    decide +kernel
  by_cases h0 : realOfF32 x = 0
  · rw [eq_zero_of_realOfF32 hx hneg h0]
    decide +kernel
  · rw [mul_eq_realToF32 (by decide) hx (by simpa using h0), realOfF32_one, one_mul, realToF32_realOfF32 hx hneg]

/-- The sum of +0 and -0 is +0, hence the exception. -/
theorem F32.zero_add_of_finite {x : Sample} (hx : F32.isFinite x = true) (hneg : x ≠ 0x80000000#32) :
    F32.add 0#32 x = x := by
  by_cases h0 : realOfF32 x = 0
  · rw [eq_zero_of_realOfF32 hx hneg h0]
    decide +kernel
  · rw [F32.add, addAs_eq_realToF32 .add (by decide) hx (by simpa using h0), realOfF32_zero, zero_add,
      realToF32_realOfF32 hx hneg]

/-- Settles O25: the quotient of the decay time by itself is 1 exactly, so the output is `0 + 1 * SL`. -/
theorem decayMeetsSustainInBinary32 : Obligations.DecayMeetsSustainInBinary32 := by
  intro A D SL R hD hpos hSL hneg
  refine ⟨?_, envf_sustain ..⟩
  rw [envf_decay, F32.le_zero_of_pos hD hpos, if_neg Bool.false_ne_true, F32.div_self_of_pos hD hpos, F32.sub_one_one,
    F32.one_mul_of_finite hSL, F32.zero_add_of_finite hSL hneg]

end Sys2Proof.Machine
end

section
/-! The oscillator (41_oscillator): O26 to O29. -/

namespace Sys2Proof.Machine

variable {S : Type}

/-! The registers of an oscillator after `OSC.SETF` (R126), after steps 1 to 3 of `OSC.UPD` (R127) and after a push. -/

section
variable (num : Num S) (f dt a : S) (o : Oscillator S)

@[simp] theorem oscSetF_w : (oscSetF num f o).w = num.mul num.twoPi f := rfl
@[simp] theorem oscSetF_p : (oscSetF num f o).p = num.zero := rfl
@[simp] theorem oscSetF_vol : (oscSetF num f o).vol = o.vol := rfl
@[simp] theorem oscSetF_m : (oscSetF num f o).m = o.m := rfl
@[simp] theorem oscSetF_raw : (oscSetF num f o).raw = o.raw := rfl

@[simp] theorem oscAdvance_w : (oscAdvance num dt o).w = o.w := rfl
@[simp] theorem oscAdvance_p : (oscAdvance num dt o).p = num.add o.p dt := rfl
@[simp] theorem oscAdvance_vol : (oscAdvance num dt o).vol = o.vol := rfl
@[simp] theorem oscAdvance_m : (oscAdvance num dt o).m = num.zero := rfl
@[simp] theorem oscAdvance_raw : (oscAdvance num dt o).raw = num.sin (num.add (num.mul o.w o.p) o.m) := rfl

@[simp] theorem oscPush_m : (oscPush num a o).m = num.add o.m a := rfl

end

/-! `OSC.UPD` (R127) on the two oscillators it steps: its own, and the one that it feeds. -/

/-- The modulators feed the carrier (10_state R24). -/
theorem oscTarget_eq_some_iff {k j : OpIx} : oscTarget k = some j ↔ k ≠ .op0 ∧ j = .op0 := by
  cases k <;> simp [oscTarget, eq_comm]

theorem oscUpd_osc_same (num : Num S) (k : OpIx) (dt : S) (x : FmVoice S) :
    ((oscUpd num k dt x).op k).osc = oscAdvance num dt (x.op k).osc := by
  cases k <;> rfl

/-- The carrier takes the raw sample that the modulator has just formed. -/
theorem oscUpd_osc_carrier (num : Num S) {k : OpIx} (hk : k ≠ .op0) (dt : S) (x : FmVoice S) :
    ((oscUpd num k dt x).op .op0).osc = oscPush num (oscAdvance num dt (x.op k).osc).raw x.op0.osc := by
  cases k with
  | op0 => exact absurd rfl hk
  | op1 | op2 => rfl

/-! The commands. -/

section
variable {s : State} {v : UnitIx} {k : OpIx} {x : FmVoice Sample}

/-- A legal command that steps one FM voice: the registers of the voice afterwards, the result, and the frame of the voice
as the frame of the state. -/
theorem exec_voice {i : Instr} {f : FmVoice Sample → FmVoice Sample × Result Sample} {W : Loc → Prop}
    (hexec : exec i s = perform i s fun s => s.onVoice v f) (hlegal : legal s.cfg i = true)
    (hx : s.fm[v.toNat]? = some x) (hframe : FmVoice.Frame v W x (f x).1) :
    ∃ t, exec i s = .next t ∧ t.result = (f x).2 ∧
      (∀ j r, t.readLoc (.env v j r) = envRegResult ((f x).1.op j).env r) ∧
      (∀ j r, t.readLoc (.osc v j r) = oscRegResult j ((f x).1.op j).osc r) ∧ s.OnlyChanges t W := by
  obtain ⟨henv, hosc⟩ := hframe
  refine ⟨_, hexec.trans (perform_legal hlegal), ?_⟩
  rw [State.onVoice_some hx]
  refine ⟨rfl, fun j r => ?_, fun j r => ?_, State.OnlyChanges_voice hx W henv hosc⟩
  · rw [State.withResult_readLoc, State.readLoc_set_env _ (unit_lt hx), if_pos rfl]
  · rw [State.withResult_readLoc, State.readLoc_set_osc _ (unit_lt hx), if_pos rfl]

/-- A location is `w` or `p` of the oscillator of operator `k` of voice `v`. -/
abbrev OscSetFLoc (v : UnitIx) (k : OpIx) (loc : Loc) : Prop :=
  loc = .osc v k .w ∨ loc = .osc v k .p

/-- Everything `OSC.SETF` with a finite frequency does to a voice that is there. -/
theorem exec_oscSetF_of {f : Word32} (hf : F32.isFinite f = true) (hx : s.fm[v.toNat]? = some x) :
    ∃ t, exec (.oscSetF v k f) s = .next t ∧ t.result = .none ∧
      (∀ r, t.readLoc (.osc v k r) = oscRegResult k (oscSetF numF32 f (x.op k).osc) r) ∧
      s.OnlyChanges t (OscSetFLoc v k) := by
  have hlegal : legal s.cfg (.oscSetF v k f) = true := by
    simp [legal, wellFormed, operandLegal, hf, inRange, unit_lt hx]
  obtain ⟨t, hexec, hres, -, hosc, hframe⟩ :=
    exec_voice (W := OscSetFLoc v k) (exec_oscSetF v k f s) hlegal hx (.oscSetF f (.inl rfl) (.inr rfl) x)
  exact ⟨t, hexec, hres, fun r => by rw [hosc, FmVoice.setOsc_osc_same, numF32_ofF32], hframe⟩

/-- A location is written by `OSC.UPD` on operator `k` of voice `v` (R42): its own `raw`, `p` and `m`, and the carrier's `m`
if `k` is a modulator. -/
abbrev OscUpdLoc (v : UnitIx) (k : OpIx) (loc : Loc) : Prop :=
  loc = .osc v k .raw ∨ loc = .osc v k .p ∨ loc = .osc v k .m ∨ (k ≠ .op0 ∧ loc = .osc v .op0 .m)

/-- Everything `OSC.UPD` by a finite time does to a voice that is there. -/
theorem exec_oscUpd_of {dt : Word32} (hdt : F32.isFinite dt = true) (hx : s.fm[v.toNat]? = some x) :
    ∃ t, exec (.oscUpd v k dt) s = .next t ∧ t.result = .none ∧
      (∀ j r, t.readLoc (.osc v j r) = oscRegResult j ((oscUpd numF32 k dt x).op j).osc r) ∧
      s.OnlyChanges t (OscUpdLoc v k) := by
  have hlegal : legal s.cfg (.oscUpd v k dt) = true := by
    simp [legal, wellFormed, operandLegal, hdt, inRange, unit_lt hx]
  have htarget (j : OpIx) (hj : oscTarget k = some j) : OscUpdLoc v k (.osc v j .m) := by
    obtain ⟨hk, rfl⟩ := oscTarget_eq_some_iff.1 hj
    exact .inr (.inr (.inr ⟨hk, rfl⟩))
  obtain ⟨t, hexec, hres, -, hosc, hframe⟩ := exec_voice (W := OscUpdLoc v k) (exec_oscUpd v k dt s) hlegal hx
    (.oscUpd dt (.inr (.inl rfl)) (.inr (.inr (.inl rfl))) (.inl rfl) htarget x)
  exact ⟨t, hexec, hres, hosc, hframe⟩

/-- Presenting the product formed from a voice is all that `OSC.OUT` does. -/
theorem exec_oscOut_of (hx : s.fm[v.toNat]? = some x) :
    exec (.oscOut v k) s = .next (s.withResult (.sample (oscOut numF32 (x.op k).osc))) := by
  have hlegal : legal s.cfg (.oscOut v k) = true := by simp [legal, wellFormed, inRange, unit_lt hx]
  rw [exec_oscOut, perform_legal hlegal, State.onVoice_some hx, set_unit_self hx]
  rfl

end

/-- Settles O26: the registers `w` and `p` of the new oscillator, and the frame of `OSC.SETF`. -/
theorem oscSetFSetsTheFrequency : Obligations.OscSetFSetsTheFrequency := by
  intro s v k f x hf hx
  obtain ⟨t, hexec, hres, hread, hframe⟩ := exec_oscSetF_of (k := k) hf hx
  refine ⟨rfl, t, hexec, hres, ?_, ?_, hframe⟩
  · rw [hread, oscRegResult, oscSetF_w, numF32_mul, numF32_twoPi, Config.twoPi]
  · rw [hread, oscRegResult, oscSetF_p, numF32_zero]

/-- Settles O27: the oscillator's own registers are those of steps 1 to 3, and the carrier's `m` that of the push. -/
theorem oscUpdSamplesAndPushes : Obligations.OscUpdSamplesAndPushes := by
  intro s v k dt x hdt hx
  obtain ⟨t, hexec, hres, hread, hframe⟩ := exec_oscUpd_of (k := k) hdt hx
  refine ⟨rfl, t, hexec, hres, ?_, ?_, ?_, fun hk => ?_, hframe⟩
  · rw [hread, oscUpd_osc_same, oscRegResult, oscAdvance_raw, numF32_sin, numF32_add, numF32_mul]
  · rw [hread, oscUpd_osc_same, oscRegResult, oscAdvance_p, numF32_add]
  · rw [hread, oscUpd_osc_same, oscRegResult, oscAdvance_m, numF32_zero]
  · rw [hread, oscUpd_osc_carrier _ hk, oscRegResult, oscPush_m, oscAdvance_raw, numF32_sin, numF32_add, numF32_mul]

/-- Settles O28: the meaning of `OSC.OUT` on a voice that is there. -/
theorem oscOutPresentsTheScaledSample : Obligations.OscOutPresentsTheScaledSample :=
  fun _ _ _ _ hx => ⟨rfl, exec_oscOut_of hx⟩

/-! The free-running oscillator (R130): `n` updates with no modulation arriving. -/

section
variable (num : Num S) (dt : S) (n : Nat) (o : Oscillator S)

theorem oscAdvance_iterate_w : ((oscAdvance num dt)^[n] o).w = o.w := by
  have h : Function.Semiconj Oscillator.w (oscAdvance num dt) id := oscAdvance_w num dt
  rw [h.iterate_right n o, Function.iterate_id, id]

/-- The phase is advanced by repeated addition (R128 (d)). -/
theorem oscAdvance_iterate_p : ((oscAdvance num dt)^[n] o).p = (fun p => num.add p dt)^[n] o.p := by
  have h : Function.Semiconj Oscillator.p (oscAdvance num dt) (fun p => num.add p dt) := oscAdvance_p num dt
  exact h.iterate_right n o

variable {o}

theorem oscAdvance_iterate_m (hm : o.m = num.zero) : ((oscAdvance num dt)^[n] o).m = num.zero := by
  cases n with
  | zero => exact hm
  | succ n => rw [Function.iterate_succ_apply', oscAdvance_m]

/-- In every profile the update that follows `n` earlier ones samples the phase after `n` additions of `dt`. -/
theorem oscAdvance_iterate_raw (hm : o.m = num.zero) :
    ((oscAdvance num dt)^[n + 1] o).raw =
      num.sin (num.add (num.mul o.w ((fun p => num.add p dt)^[n] o.p)) num.zero) := by
  rw [Function.iterate_succ_apply', oscAdvance_raw, oscAdvance_iterate_w, oscAdvance_iterate_p,
    oscAdvance_iterate_m num dt n hm]

end

@[simp] theorem numReal_add (a b : ℝ) : numReal.add a b = a + b := rfl
@[simp] theorem numReal_mul (a b : ℝ) : numReal.mul a b = a * b := rfl
@[simp] theorem numReal_sin : numReal.sin = Real.sin := rfl
@[simp] theorem numReal_twoPi : numReal.twoPi = 2 * Real.pi := rfl

/-- Repeated addition is exact over the reals. -/
theorem numReal_add_iterate (dt p : ℝ) (n : Nat) : (fun p => numReal.add p dt)^[n] p = p + n * dt := by
  simp only [numReal_add, add_right_iterate, nsmul_eq_mul]

/-- Settles O29: the phase sampled is `n * dt`, since it starts at 0 and is advanced exactly. -/
theorem freeRunningOscillatorIsASine : Obligations.FreeRunningOscillatorIsASine := by
  intro o f dt n hm
  have hm' : (oscSetF numReal f o).m = numReal.zero := by rw [oscSetF_m, hm, numReal_zero]
  rw [oscAdvance_iterate_raw numReal dt n hm', numReal_add_iterate, oscSetF_w, oscSetF_p]
  simp only [numReal_sin, numReal_add, numReal_mul, numReal_twoPi, numReal_zero, zero_add, add_zero]

end Sys2Proof.Machine
end

section
/-! The FM voice (42_fm_voice): O30, O31, O32 and O34. Each command is a sequence of unit operations, so what it leaves in
one operator is what the operations on that operator leave there, in their order. -/

namespace Sys2Proof.Machine

variable {S : Type}

/-! The unit operations on the parts of a voice that they do not step. -/

@[simp] theorem voiceEnvUpd_osc (num : Num S) (k j : OpIx) (dt : S) (x : FmVoice S) :
    ((voiceEnvUpd num k dt x).op j).osc = (x.op j).osc := FmVoice.setEnv_osc ..

@[simp] theorem oscUpd_env (num : Num S) (k j : OpIx) (dt : S) (x : FmVoice S) :
    ((oscUpd num k dt x).op j).env = (x.op j).env := by
  unfold oscUpd
  split <;> simp only [FmVoice.setOsc_env]

/-! The operators after `FM.NOTEON` (R134) and `FM.NOTEOFF` (R135). -/

/-- `ENV.SET` on the three envelopes sets each of them. -/
theorem voiceGate_env (num : Num S) (gate : Bool) (k : OpIx) (x : FmVoice S) :
    ((voiceGate num gate x).op k).env = envSet num gate (x.op k).env := by
  cases k <;> rfl

theorem voiceGate_osc (num : Num S) (gate : Bool) (k : OpIx) (x : FmVoice S) :
    ((voiceGate num gate x).op k).osc = (x.op k).osc := by
  simp only [voiceGate, voiceEnvSet, FmVoice.setEnv_osc]

/-- The frequency that `FM.NOTEON` with frequency `f` gives to operator `k` (R134). -/
def noteFrequency (num : Num S) (f : S) : OpIx → S
  | .op0 => f
  | .op1 => num.mul num.two f
  | .op2 => num.mul num.four f

theorem fmNoteOn_env (num : Num S) (f : S) (k : OpIx) (x : FmVoice S) :
    ((fmNoteOn num f x).op k).env = envSet num true (x.op k).env := by
  simp only [fmNoteOn, voiceGate_env, voiceOscSetF, FmVoice.setOsc_env]

theorem fmNoteOn_osc (num : Num S) (f : S) (k : OpIx) (x : FmVoice S) :
    ((fmNoteOn num f x).op k).osc = oscSetF num (noteFrequency num f k) (x.op k).osc := by
  rw [fmNoteOn, voiceGate_osc]
  cases k <;> rfl

/-! The operators after `FM.TICK` (R136). -/

/-- The carrier's oscillator as the modulators of a tick leave it: their raw samples of this tick pushed in index order. -/
def modulatedCarrier (num : Num S) (dt : S) (x : FmVoice S) : Oscillator S :=
  oscPush num (oscAdvance num dt (x.op .op2).osc).raw
    (oscPush num (oscAdvance num dt (x.op .op1).osc).raw (x.op .op0).osc)

section
variable (num : Num S) (a dt : S) (o : Oscillator S) (x : FmVoice S)

@[simp] theorem oscPush_w : (oscPush num a o).w = o.w := rfl
@[simp] theorem oscPush_p : (oscPush num a o).p = o.p := rfl
@[simp] theorem oscPush_vol : (oscPush num a o).vol = o.vol := rfl

@[simp] theorem modulatedCarrier_w : (modulatedCarrier num dt x).w = x.op0.osc.w := rfl
@[simp] theorem modulatedCarrier_p : (modulatedCarrier num dt x).p = x.op0.osc.p := rfl
@[simp] theorem modulatedCarrier_vol : (modulatedCarrier num dt x).vol = x.op0.osc.vol := rfl
@[simp] theorem modulatedCarrier_m : (modulatedCarrier num dt x).m =
    num.add (num.add x.op0.osc.m (oscAdvance num dt (x.op .op1).osc).raw) (oscAdvance num dt (x.op .op2).osc).raw := rfl

theorem fmAdvance_env (k : OpIx) : ((fmAdvance num dt x).op k).env = envUpd num dt (x.op k).env := by
  simp only [fmAdvance, oscUpd_env]
  cases k <;> rfl

/-- A modulator takes no modulation in a tick: it is advanced, and the other operators' updates leave it alone. -/
theorem fmAdvance_osc_modulator {k : OpIx} (hk : k ≠ .op0) :
    ((fmAdvance num dt x).op k).osc = oscAdvance num dt (x.op k).osc := by
  unfold fmAdvance
  cases k with
  | op0 => exact absurd rfl hk
  | op1 =>
    rw [oscUpd_osc_other num (k := .op0) dt _ (by decide) (by decide),
      oscUpd_osc_other num (k := .op2) dt _ (by decide) (by decide), oscUpd_osc_same]
    simp only [voiceEnvUpd_osc]
  | op2 =>
    rw [oscUpd_osc_other num (k := .op0) dt _ (by decide) (by decide), oscUpd_osc_same,
      oscUpd_osc_other num (k := .op1) dt _ (by decide) (by decide)]
    simp only [voiceEnvUpd_osc]

/-- The carrier is advanced last, after both pushes: the ordering invariant of R136. -/
theorem fmAdvance_osc_carrier :
    ((fmAdvance num dt x).op .op0).osc = oscAdvance num dt (modulatedCarrier num dt x) := by
  rw [fmAdvance, oscUpd_osc_same, oscUpd_osc_carrier num (k := .op2) (by decide),
    oscUpd_osc_other num (k := .op1) dt _ (by decide) (by decide), ← FmVoice.op_op0 (oscUpd num .op1 dt _),
    oscUpd_osc_carrier num (k := .op1) (by decide), ← FmVoice.op_op0 (voiceEnvUpd num .op2 dt _)]
  simp only [voiceEnvUpd_osc, modulatedCarrier]

/-- The sample of a tick is made of the carrier's registers and of the modulators' raw samples (R136, R137). -/
theorem fmTick_sample : (fmTick num dt x).2 =
    num.mul (num.mul (oscAdvance num dt (modulatedCarrier num dt x)).raw x.op0.osc.vol)
      (envUpd num dt x.op0.env).out := by
  rw [fmTick, fmSample, ← FmVoice.op_op0, fmAdvance_osc_carrier, fmAdvance_env, oscOut, oscAdvance_vol,
    modulatedCarrier_vol, FmVoice.op_op0]

theorem fmAdvance_osc_p (k : OpIx) : ((fmAdvance num dt x).op k).osc.p = num.add (x.op k).osc.p dt := by
  by_cases hk : k = .op0
  · rw [hk, fmAdvance_osc_carrier, oscAdvance_p, modulatedCarrier_p, FmVoice.op_op0]
  · rw [fmAdvance_osc_modulator num dt x hk, oscAdvance_p]

end

/-! The commands. -/

/-- A location is written by `FM.NOTEON` on voice `v` (R42). -/
abbrev FmNoteOnLoc (v : UnitIx) (loc : Loc) : Prop :=
  ∃ k, loc = .osc v k .w ∨ loc = .osc v k .p ∨ EnvTickLoc v k loc

/-- A location is written by `FM.NOTEOFF` on voice `v` (R42). -/
abbrev FmNoteOffLoc (v : UnitIx) (loc : Loc) : Prop := ∃ k, EnvTickLoc v k loc

/-- A location is written by `FM.TICK` on voice `v` (R42). -/
abbrev FmTickLoc (v : UnitIx) (loc : Loc) : Prop :=
  ∃ k, loc = .osc v k .raw ∨ loc = .osc v k .p ∨ loc = .osc v k .m ∨ EnvTickLoc v k loc

section
variable {s : State} {v : UnitIx} {x : FmVoice Sample}

/-- Everything `FM.NOTEON` with a finite frequency does to a voice that is there. -/
theorem exec_fmNoteOn_of {f : Word32} (hf : F32.isFinite f = true) (hx : s.fm[v.toNat]? = some x) :
    ∃ t, exec (.fmNoteOn v f) s = .next t ∧ t.result = .none ∧
      (∀ k r, t.readLoc (.env v k r) = envRegResult (envSet numF32 true (x.op k).env) r) ∧
      (∀ k r, t.readLoc (.osc v k r) = oscRegResult k (oscSetF numF32 (noteFrequency numF32 f k) (x.op k).osc) r) ∧
      s.OnlyChanges t (FmNoteOnLoc v) := by
  have hlegal : legal s.cfg (.fmNoteOn v f) = true := by
    simp [legal, wellFormed, operandLegal, hf, inRange, unit_lt hx]
  obtain ⟨t, hexec, hres, henv, hosc, hframe⟩ := exec_voice (W := FmNoteOnLoc v) (exec_fmNoteOn v f s) hlegal hx
    (.noteOn f (fun k _ hr => ⟨k, .inr (.inr (envTickLoc_of_envTickReg hr))⟩) (fun k => ⟨k, .inl rfl⟩)
      (fun k => ⟨k, .inr (.inl rfl)⟩) x)
  refine ⟨t, hexec, hres, fun k r => ?_, fun k r => ?_, hframe⟩
  · rw [henv, fmNoteOn_env]
  · rw [hosc, fmNoteOn_osc, numF32_ofF32]

/-- Everything `FM.NOTEOFF` does to a voice that is there. -/
theorem exec_fmNoteOff_of (hx : s.fm[v.toNat]? = some x) :
    ∃ t, exec (.fmNoteOff v) s = .next t ∧ t.result = .none ∧
      (∀ k r, t.readLoc (.env v k r) = envRegResult (envSet numF32 false (x.op k).env) r) ∧
      s.OnlyChanges t (FmNoteOffLoc v) := by
  have hlegal : legal s.cfg (.fmNoteOff v) = true := by simp [legal, wellFormed, inRange, unit_lt hx]
  obtain ⟨t, hexec, hres, henv, -, hframe⟩ := exec_voice (W := FmNoteOffLoc v) (exec_fmNoteOff v s) hlegal hx
    (.gate false (fun k _ hr => ⟨k, envTickLoc_of_envTickReg hr⟩) x)
  exact ⟨t, hexec, hres, fun k r => by rw [henv, fmNoteOff, voiceGate_env], hframe⟩

/-- Everything `FM.TICK` by a finite time does to a voice that is there. -/
theorem exec_fmTick_of {dt : Word32} (hdt : F32.isFinite dt = true) (hx : s.fm[v.toNat]? = some x) :
    ∃ t, exec (.fmTick v dt) s = .next t ∧ t.result = .sample (fmTick numF32 dt x).2 ∧
      (∀ k r, t.readLoc (.env v k r) = envRegResult (envUpd numF32 dt (x.op k).env) r) ∧
      (∀ k r, t.readLoc (.osc v k r) = oscRegResult k ((fmAdvance numF32 dt x).op k).osc r) ∧
      s.OnlyChanges t (FmTickLoc v) := by
  have hlegal : legal s.cfg (.fmTick v dt) = true := by
    simp [legal, wellFormed, operandLegal, hdt, inRange, unit_lt hx]
  obtain ⟨t, hexec, hres, henv, hosc, hframe⟩ := exec_voice (W := FmTickLoc v)
    (f := fun x => (fmAdvance numF32 dt x, .sample (fmTick numF32 dt x).2)) (exec_fmTick v dt s) hlegal hx
    (.advance dt (fun k _ hr => ⟨k, .inr (.inr (.inr (envTickLoc_of_envTickReg hr)))⟩)
      (fun k => ⟨k, .inr (.inl rfl)⟩) (fun k => ⟨k, .inr (.inr (.inl rfl))⟩) (fun k => ⟨k, .inl rfl⟩) x)
  exact ⟨t, hexec, hres, fun k r => by rw [henv, fmAdvance_env], hosc, hframe⟩

end

/-! The registers that the unit operations write, as binary32 words. -/

/-- The output at time 0 of the state that `ENV.SET` enters (R112, R113). -/
theorem envRegResult_envSet_attack (e : Envelope Sample) :
    envRegResult (envSet numF32 true e) .out =
      .sample (if F32.le e.A 0#32 then 0x3F800000#32 else F32.div 0#32 e.A) := by
  rw [envRegResult, envSet, numF32_zero, if_pos rfl, envOutput, envf_attack]

theorem envRegResult_envSet_release (e : Envelope Sample) :
    envRegResult (envSet numF32 false e) .out =
      .sample (if F32.le e.R 0#32 then 0#32
        else F32.mul e.SL (F32.sub 0x3F800000#32 (F32.div 0#32 e.R))) := by
  rw [envRegResult, envSet, numF32_zero, if_neg Bool.false_ne_true, envOutput, envf_release]

theorem envRegResult_envSet_t (gate : Bool) (e : Envelope Sample) :
    envRegResult (envSet numF32 gate e) .t = .sample 0#32 := by
  rw [envRegResult, envSet, numF32_zero]

/-- The register `w` after `OSC.SETF` (R126). -/
theorem oscRegResult_oscSetF_w (k : OpIx) (f : Sample) (o : Oscillator Sample) :
    oscRegResult k (oscSetF numF32 f o) .w = .sample (F32.mul 0x40C90FDB#32 f) := by
  rw [oscRegResult, oscSetF_w, numF32_mul, numF32_twoPi, Config.twoPi]

/-- The sample that `OSC.UPD` stores (R127). -/
theorem oscAdvance_raw_f32 (dt : Sample) (o : Oscillator Sample) :
    (oscAdvance numF32 dt o).raw = Config.sin32 (F32.add (F32.mul o.w o.p) o.m) := by
  rw [oscAdvance_raw, numF32_sin, numF32_add, numF32_mul]

/-- The carrier's sample of a tick (R136): the modulators' samples are in the argument of its sine. -/
theorem carrier_raw_f32 (dt : Sample) (x : FmVoice Sample) :
    (oscAdvance numF32 dt (modulatedCarrier numF32 dt x)).raw =
      Config.sin32 (F32.add (F32.mul x.op0.osc.w x.op0.osc.p)
        (F32.add (F32.add x.op0.osc.m (Config.sin32 (F32.add (F32.mul x.op1.osc.w x.op1.osc.p) x.op1.osc.m)))
          (Config.sin32 (F32.add (F32.mul x.op2.osc.w x.op2.osc.p) x.op2.osc.m)))) := by
  rw [oscAdvance_raw_f32, modulatedCarrier_w, modulatedCarrier_p, modulatedCarrier_m, oscAdvance_raw_f32,
    oscAdvance_raw_f32, numF32_add, FmVoice.op_op1, FmVoice.op_op2]

/-- Settles O30: each oscillator as `OSC.SETF` leaves it at its own frequency, each envelope as `ENV.SET` does. -/
theorem fmNoteOnStartsAllOperators : Obligations.FmNoteOnStartsAllOperators := by
  intro s v f x hf hx
  obtain ⟨t, hexec, hres, henv, hosc, hframe⟩ := exec_fmNoteOn_of hf hx
  refine ⟨rfl, t, hexec, hres, ?_, ?_, ?_, fun k => ⟨?_, ?_, ?_, ?_⟩, hframe⟩
  · rw [hosc, oscRegResult_oscSetF_w, noteFrequency]
  · rw [hosc, oscRegResult_oscSetF_w, noteFrequency, numF32_mul, numF32_two]
  · rw [hosc, oscRegResult_oscSetF_w, noteFrequency, numF32_mul, numF32_four]
  · rw [hosc, oscRegResult, oscSetF_p, numF32_zero]
  · rw [henv]
    rfl
  · rw [henv, envRegResult_envSet_t]
  · rw [henv, envRegResult_envSet_attack]

/-- Settles O31: each envelope as `ENV.SET` with the gate off leaves it; the frame names no oscillator. -/
theorem fmNoteOffReleasesAllEnvelopes : Obligations.FmNoteOffReleasesAllEnvelopes := by
  intro s v x hx
  obtain ⟨t, hexec, hres, henv, hframe⟩ := exec_fmNoteOff_of hx
  refine ⟨rfl, t, hexec, hres, fun k => ⟨?_, ?_, ?_⟩, hframe⟩
  · rw [henv]
    rfl
  · rw [henv, envRegResult_envSet_t]
  · rw [henv, envRegResult_envSet_release]

/-- Settles O32: the modulators advance by themselves, and the carrier with their samples of this tick in its `m`. -/
theorem fmTickModulatesInTheSameTick : Obligations.FmTickModulatesInTheSameTick := by
  intro s v dt x hdt hx
  obtain ⟨t, hexec, hres, henv, hosc, hframe⟩ := exec_fmTick_of hdt hx
  refine ⟨rfl, t, hexec, ?_, ?_, ?_, ?_, fun k => ⟨?_, ?_, henv k .st, henv k .t, henv k .out⟩, hframe⟩
  · rw [hres, fmTick_sample, carrier_raw_f32, numF32_mul]
  · rw [hosc, fmAdvance_osc_carrier, oscRegResult, carrier_raw_f32]
  · rw [hosc, fmAdvance_osc_modulator _ _ _ (by decide), oscRegResult, oscAdvance_raw_f32, FmVoice.op_op1]
  · rw [hosc, fmAdvance_osc_modulator _ _ _ (by decide), oscRegResult, oscAdvance_raw_f32, FmVoice.op_op2]
  · rw [hosc, oscRegResult, fmAdvance_osc_p, numF32_add]
  · rw [hosc, oscRegResult, fmAdvance_m, numF32_zero]

/-- Settles O34: of a modulator the sample takes the raw sample only, which neither its volume nor its envelope enters. -/
theorem modulatorVolumesAndEnvelopesStaySilent : Obligations.ModulatorVolumesAndEnvelopesStaySilent := by
  intro S num dt v v' h0 hosc
  have hraw (k : OpIx) : (oscAdvance num dt (v'.op k).osc).raw = (oscAdvance num dt (v.op k).osc).raw := by
    obtain ⟨vol, hvol⟩ := hosc k
    simp only [hvol, oscAdvance_raw]
  have hcarrier : modulatedCarrier num dt v' = modulatedCarrier num dt v := by
    simp only [modulatedCarrier, hraw, FmVoice.op_op0, h0]
  rw [fmTick_sample, fmTick_sample, hcarrier, h0]

end Sys2Proof.Machine
end

section
/-! The string voice (43_string_voice): O35, O37 to O41. Of the ticks one fact is used throughout: a word that a tick has
written is next written `N` ticks later. -/

namespace Sys2Proof.Machine

/-! A command that steps one string voice. -/

section
variable {s : State} {i : UnitIx} {v : StringVoice Sample}

/-- What a command whose effect steps string voice `i` leaves: the stepped voice in its registers and in its delay line, the
result, and the frame of the voice as the frame of the state. -/
theorem exec_string {c : Instr} {f : StringVoice Sample → StringVoice Sample × Result Sample} {W : Loc → Prop}
    (hexec : exec c s = .next (s.onString i f)) (hv : s.str[i.toNat]? = some v)
    (hreg : ∀ r, ¬ W (.str i r) → strRegResult (S := Sample) (f v).1 r = strRegResult v r)
    (hdl : ∀ a : Word32, ¬ W (.dl i a) → a.toNat < s.par.cap →
      Memory.read numF32.zero (f v).1.dl a.toNat = Memory.read numF32.zero v.dl a.toNat) :
    ∃ t, exec c s = .next t ∧ t.result = (f v).2 ∧ t.str[i.toNat]? = some (f v).1 ∧
      (∀ r, t.readLoc (.str i r) = strRegResult (f v).1 r) ∧
      (∀ a : Word32, a.toNat < s.par.cap →
        t.readLoc (.dl i a) = .sample (Memory.read numF32.zero (f v).1.dl a.toNat)) ∧ s.OnlyChanges t W := by
  refine ⟨_, hexec, ?_⟩
  rw [State.onString_some hv]
  refine ⟨rfl, ?_, fun r => ?_, fun a ha => ?_, State.OnlyChanges_string hv W hreg hdl⟩
  · rw [State.withResult_str, State.withStr_str, getElem?_set_unit _ (unit_lt hv), if_pos rfl]
  · rw [State.withResult_readLoc, State.readLoc_set_str _ (unit_lt hv), if_pos rfl]
  · rw [State.withResult_readLoc, State.readLoc_set_dl _ (unit_lt hv), if_pos rfl, if_pos ha]

end

/-! `STR.NOTEOFF` (R146). -/

theorem legal_strNoteOff {c : Cfg} {i : UnitIx} (h : i.toNat < c.ns) : legal c (.strNoteOff i) = true := by
  simp [legal, wellFormed, inRange, h]

/-- Settles O37: the command is legal, and its effect is to present no result. -/
theorem strNoteOffChangesNothing : Obligations.StrNoteOffChangesNothing := by
  intro s i hi
  have hlegal : legal s.cfg (.strNoteOff i) = true := legal_strNoteOff hi
  exact ⟨rfl, hlegal, (exec_strNoteOff i s).trans (perform_legal hlegal)⟩

/-! `STR.NOTEON` (R142): the voice afterwards, and the words of its delay line. -/

section
variable {S : Type} [DecidableEq S] (num : Num S) (par : Params S) (draw : Nat → S) (f : S) (v : StringVoice S)

@[simp] theorem strNoteOn_N : (strNoteOn num par draw f v).N = stringLength num par f := rfl
@[simp] theorem strNoteOn_cur : (strNoteOn num par draw f v).cur = 0 := rfl
@[simp] theorem strNoteOn_taken : (strNoteOn num par draw f v).taken = v.taken + stringLength num par f := rfl

/-- The words below the new length hold the smoothed excitation, the others what they held. -/
theorem strNoteOn_read (a : Nat) :
    Memory.read num.zero (strNoteOn num par draw f v).dl a =
      if a < stringLength num par f then
        smoothed num (excitation num par draw (stringLength num par f)) (stringLength num par f) a
      else Memory.read num.zero v.dl a :=
  Memory.read_fill _ _ _ _

end

/-- A location is written by `STR.NOTEON` on string `i` with the new length `n` (R42, R142). -/
abbrev StrNoteOnLoc (i : UnitIx) (n : Nat) (loc : Loc) : Prop :=
  loc = .str i .N ∨ loc = .str i .cur ∨ ∃ a : Word32, a.toNat < n ∧ loc = .dl i a

/-- Everything `STR.NOTEON` with a finite positive frequency does to a string that is there. -/
theorem exec_strNoteOn_of {s : State} {i : UnitIx} {f : Word32} {v : StringVoice Sample} (hf : F32.isFinite f = true)
    (hpos : F32.lt 0#32 f = true) (hv : s.str[i.toNat]? = some v) :
    ∃ t, exec (.strNoteOn i f) s = .next t ∧ t.result = .none ∧
      t.str[i.toNat]? = some (strNoteOn numF32 s.par (v.draw i) f v) ∧
      (∀ r, t.readLoc (.str i r) = strRegResult (strNoteOn numF32 s.par (v.draw i) f v) r) ∧
      (∀ a : Word32, a.toNat < s.par.cap → t.readLoc (.dl i a) =
        .sample (Memory.read numF32.zero (strNoteOn numF32 s.par (v.draw i) f v).dl a.toNat)) ∧
      s.OnlyChanges t (StrNoteOnLoc i (stringLength numF32 s.par f)) := by
  have hlegal : legal s.cfg (.strNoteOn i f) = true := by
    simp [legal, wellFormed, operandLegal, hf, inRange, hpos, State.cfg, unit_lt hv]
  refine exec_string ((exec_strNoteOn i f s).trans (perform_legal hlegal)) hv (fun r hr => ?_) (fun a ha _ => ?_)
  · cases r with
    | N => exact absurd (.inl rfl) hr
    | cur => exact absurd (.inr (.inl rfl)) hr
  · have hlen : ¬ a.toNat < stringLength numF32 s.par f := fun hn => ha (.inr (.inr ⟨a, hn, rfl⟩))
    rw [numF32_ofF32, strNoteOn_read, if_neg hlen]

/-- Settles O35: the words below the length hold the smoothed excitation, made of the string's next draws. -/
theorem strNoteOnFillsTheDelayLine : Obligations.StrNoteOnFillsTheDelayLine := by
  intro s i f v hf hpos hv q n x
  obtain ⟨t, hexec, hres, hvoice, hreg, hword, hframe⟩ := exec_strNoteOn_of hf hpos hv
  have hn : stringLength numF32 s.par f = n := stringLength_f32 s.par f
  have hx : excitation numF32 s.par (v.draw i) n = x := funext fun j => excitation_f32 s.par (v.draw i) n j
  refine ⟨drawAt_mem i.toNat, rfl, t, hexec, hres, ?_, ?_, fun a hcap ha => ?_, ?_, hn ▸ hframe⟩
  · rw [hreg, strRegResult, strNoteOn_N, hn]
  · rw [hreg, strRegResult, strNoteOn_cur]
  · rw [hword a hcap, strNoteOn_read, hn, if_pos ha, hx, smoothed_f32, prevIndex_eq ha]
  · rw [hvoice, Option.map_some, strNoteOn_taken, hn]

/-! `STR.TICK` (R147): the voice afterwards. -/

section
variable {S : Type} [DecidableEq S] (num : Num S) (par : Params S) (v : StringVoice S)

@[simp] theorem strTick_N : (strTick num par v).1.N = v.N := rfl
@[simp] theorem strTick_cur : (strTick num par v).1.cur = (v.cur + 1) % v.N := rfl
@[simp] theorem strTick_sample : (strTick num par v).2 = num.mul (stringSample num par v) par.strGain := rfl

/-- A tick writes its sample at the cursor, and no other word. -/
theorem strTick_read (a : Nat) :
    Memory.read num.zero (strTick num par v).1.dl a =
      if a = v.cur then stringSample num par v else Memory.read num.zero v.dl a :=
  Memory.read_write _ _ _ _

end

/-- The sample that a tick writes in binary32, the word before the cursor by cases. -/
theorem stringSample_f32 (par : Params Sample) {v : StringVoice Sample} (h : v.cur < v.N) :
    stringSample numF32 par v =
      F32.mul par.damping (F32.add (F32.mul par.blendA (Memory.read 0#32 v.dl v.cur))
        (F32.mul (F32.sub 0x3F800000#32 par.blendA)
          (Memory.read 0#32 v.dl (if v.cur = 0 then v.N - 1 else v.cur - 1)))) := by
  rw [stringSample, stringBlend_f32, prevIndex_eq h, numF32_zero]

/-- The cursor wraps from the last word to word 0 (R147). -/
theorem succ_mod_eq {i n : Nat} (h : i < n) : (i + 1) % n = if i + 1 = n then 0 else i + 1 := by
  split
  · next hn => rw [hn, Nat.mod_self]
  · exact Nat.mod_eq_of_lt (by omega)

/-- A location is written by `STR.TICK` on string `i` with the cursor at `cur` (R42, R147). -/
abbrev StrTickLoc (i : UnitIx) (cur : Nat) (loc : Loc) : Prop :=
  loc = .str i .cur ∨ loc = .dl i (BitVec.ofNat 32 cur)

/-- Everything `STR.TICK` does to a string that is there, whatever the ignored operand. -/
theorem exec_strTick_of {s : State} {i : UnitIx} (ignored : Word32) {v : StringVoice Sample}
    (hv : s.str[i.toNat]? = some v) :
    ∃ t, exec (.strTick i ignored) s = .next t ∧ t.result = .sample (strTick numF32 s.par v).2 ∧
      (∀ r, t.readLoc (.str i r) = strRegResult (strTick numF32 s.par v).1 r) ∧
      (∀ a : Word32, a.toNat < s.par.cap →
        t.readLoc (.dl i a) = .sample (Memory.read numF32.zero (strTick numF32 s.par v).1.dl a.toNat)) ∧
      s.OnlyChanges t (StrTickLoc i v.cur) := by
  have hlegal : legal s.cfg (.strTick i ignored) = true := by
    simp [legal, wellFormed, operandLegal, inRange, State.cfg, unit_lt hv]
  obtain ⟨t, hexec, hres, -, hreads⟩ := exec_string (W := StrTickLoc i v.cur)
    (f := fun x => ((strTick numF32 s.par x).1, .sample (strTick numF32 s.par x).2))
    ((exec_strTick i ignored s).trans (perform_legal hlegal)) hv
    (fun r hr => by
      cases r with
      | N => rfl
      | cur => exact absurd (.inl rfl) hr)
    (fun a ha _ => by
      have hcur : a.toNat ≠ v.cur := fun h => ha (.inr (by rw [← h, BitVec.ofNat_toNat, BitVec.setWidth_eq]))
      rw [strTick_read, if_neg hcur])
  exact ⟨t, hexec, hres, hreads⟩

/-- Settles O38: the cursor of a string with its invariant is a word address below `CAP`. -/
theorem strTickClosesTheLoop : Obligations.StrTickClosesTheLoop := by
  intro s i ignored v hv hok hcap cur0 prev y
  obtain ⟨⟨-, hN, hcur⟩, -⟩ := hok
  obtain ⟨t, hexec, hres, hreg, hword, hframe⟩ := exec_strTick_of ignored hv
  have hy : stringSample numF32 s.par v = y := stringSample_f32 s.par hcur
  have haddr : (BitVec.ofNat 32 v.cur).toNat = v.cur := by
    rw [BitVec.toNat_ofNat]
    exact Nat.mod_eq_of_lt (by omega)
  refine ⟨rfl, t, hexec, ?_, ?_, ?_, hframe⟩
  · rw [hres, strTick_sample, hy, numF32_mul]
  · rw [hword _ (by omega), haddr, strTick_read, if_pos rfl, hy]
  · rw [hreg, strRegResult, strTick_cur, succ_mod_eq hcur]

/-! Ticks in sequence, in every numerics profile (R148). -/

/-- The word before word `(k + 1) mod n` is word `k mod n`. -/
theorem prevIndex_succ_mod (k : Nat) {n : Nat} (h : 1 ≤ n) : prevIndex ((k + 1) % n) n = k % n := by
  rw [prevIndex, Nat.mod_add_mod, show k + 1 + (n - 1) = k + n by omega, Nat.add_mod_right]

/-- The voice after `n` ticks. -/
def strTicks {S : Type} [DecidableEq S] (num : Num S) (par : Params S) (v : StringVoice S) (n : Nat) : StringVoice S :=
  (fun u => (strTick num par u).1)^[n] v

section
variable {S : Type} [DecidableEq S] (num : Num S) (par : Params S) (v : StringVoice S)

theorem strTicks_succ (n : Nat) : strTicks num par v (n + 1) = (strTick num par (strTicks num par v n)).1 :=
  Function.iterate_succ_apply' _ n v

theorem strTicks_N (n : Nat) : (strTicks num par v n).N = v.N := by
  induction n with
  | zero => rfl
  | succ n ih => rw [strTicks_succ, strTick_N, ih]

variable {v}

/-- The cursor counts the ticks modulo `N`. -/
theorem strTicks_cur (hcur : v.cur = 0) (n : Nat) : (strTicks num par v n).cur = n % v.N := by
  induction n with
  | zero => exact hcur.trans (Nat.zero_mod _).symm
  | succ n ih => rw [strTicks_succ, strTick_cur, strTicks_N, ih, Nat.mod_add_mod]

/-- Tick `n` writes word `n mod N`, and no other. -/
theorem strTicks_succ_read (hcur : v.cur = 0) (n a : Nat) :
    Memory.read num.zero (strTicks num par v (n + 1)).dl a =
      if a = n % v.N then stringSample num par (strTicks num par v n)
      else Memory.read num.zero (strTicks num par v n).dl a := by
  rw [strTicks_succ, strTick_read, strTicks_cur num par hcur]

/-- The word that tick `m` writes keeps its sample over fewer than `N` further ticks. -/
theorem strTicks_read_written (hcur : v.cur = 0) (m : Nat) {d : Nat} (hd : d < v.N) :
    Memory.read num.zero (strTicks num par v (m + 1 + d)).dl (m % v.N) =
      stringSample num par (strTicks num par v m) := by
  induction d with
  | zero => rw [Nat.add_zero, strTicks_succ_read num par hcur, if_pos rfl]
  | succ d ih =>
    have hne : m % v.N ≠ (m + 1 + d) % v.N := fun h => by
      have hdvd : v.N ∣ m + 1 + d - m := (Nat.modEq_iff_dvd' (by omega)).1 h
      have hle := Nat.le_of_dvd (by omega) hdvd
      omega
    rw [← Nat.add_assoc, strTicks_succ_read num par hcur, if_neg hne, ih (by omega)]

/-- A word of the first round holds what it held until its tick. -/
theorem strTicks_read_unwritten (hcur : v.cur = 0) {n a : Nat} (hn : n ≤ a) (ha : a < v.N) :
    Memory.read num.zero (strTicks num par v n).dl a = Memory.read num.zero v.dl a := by
  induction n with
  | zero => rfl
  | succ n ih =>
    have hne : a ≠ n % v.N := by
      rw [Nat.mod_eq_of_lt (by omega)]
      omega
    rw [strTicks_succ_read num par hcur, if_neg hne, ih (by omega)]

/-- From the second tick on, a tick blends the word at its cursor with the sample of the tick before. -/
theorem stringSample_strTicks_succ (hcur : v.cur = 0) (hN : 1 ≤ v.N) (n : Nat) :
    stringSample num par (strTicks num par v (n + 1)) =
      stringBlend num par (Memory.read num.zero (strTicks num par v (n + 1)).dl ((n + 1) % v.N))
        (stringSample num par (strTicks num par v n)) := by
  rw [stringSample, strTicks_cur num par hcur, strTicks_N, prevIndex_succ_mod n hN,
    strTicks_succ_read num par hcur n (n % v.N), if_pos rfl]

/-- The recurrence of R148, with `m` for `n - N`. -/
theorem stringSample_strTicks_add (hcur : v.cur = 0) (hN : 1 ≤ v.N) (m : Nat) :
    stringSample num par (strTicks num par v (m + v.N)) =
      stringBlend num par (stringSample num par (strTicks num par v m))
        (stringSample num par (strTicks num par v (m + v.N - 1))) := by
  obtain ⟨d, hd⟩ : ∃ d, v.N = d + 1 := ⟨v.N - 1, by omega⟩
  have hword : Memory.read num.zero (strTicks num par v (m + d + 1)).dl ((m + d + 1) % v.N) =
      stringSample num par (strTicks num par v m) := by
    rw [show (m + d + 1) % v.N = m % v.N by rw [hd, Nat.add_assoc, Nat.add_mod_right], Nat.add_right_comm,
      strTicks_read_written num par hcur m (by omega)]
  rw [show m + v.N = m + d + 1 by omega, stringSample_strTicks_succ num par hcur hN, hword, Nat.add_sub_cancel]

end

/-- Settles O39: tick `n` finds at its cursor the sample of tick `n - N`, and before it the one of tick `n - 1`. -/
theorem stringTicksObeyTheRecurrence : Obligations.StringTicksObeyTheRecurrence := by
  intro S num par v n hN hcur hn
  obtain ⟨m, rfl⟩ := Nat.exists_eq_add_of_le' hn
  dsimp only
  rw [Nat.add_sub_cancel]
  classical exact stringSample_strTicks_add num par hcur (by omega) m

/-! The blend over the reals. -/

@[simp] theorem numReal_sub (a b : ℝ) : numReal.sub a b = a - b := rfl

theorem stringBlend_real (par : Params ℝ) (cur0 prev : ℝ) :
    stringBlend numReal par cur0 prev = par.damping * (par.blendA * cur0 + (1 - par.blendA) * prev) := by
  simp only [stringBlend, numReal_one, numReal_mul, numReal_add, numReal_sub]

/-- A convex combination is in magnitude at most the larger of its two points. -/
theorem abs_convex_le_max {a : ℝ} (h0 : 0 ≤ a) (h1 : a ≤ 1) (x y : ℝ) :
    |a * x + (1 - a) * y| ≤ max |x| |y| := by
  have h1' : 0 ≤ 1 - a := sub_nonneg.2 h1
  calc |a * x + (1 - a) * y| ≤ |a * x| + |(1 - a) * y| := abs_add_le _ _
    _ = a * |x| + (1 - a) * |y| := by rw [abs_mul, abs_mul, abs_of_nonneg h0, abs_of_nonneg h1']
    _ ≤ a * max |x| |y| + (1 - a) * max |x| |y| := by
      gcongr
      · exact le_max_left _ _
      · exact le_max_right _ _
    _ = max |x| |y| := by ring

/-- Settles O40: the blend before the damping is a convex combination. -/
theorem stringBlendIsDamped : Obligations.StringBlendIsDamped := by
  intro par cur0 prev hdamp h0 h1
  rw [stringBlend_real, abs_mul, abs_of_nonneg hdamp]
  exact mul_le_mul_of_nonneg_left (abs_convex_le_max h0 h1 cur0 prev) hdamp

/-! The energy over a round (R150). -/

section
variable {S : Type} [DecidableEq S] (num : Num S) (par : Params S) {v : StringVoice S}

/-- The first tick reads the first and the last word of the buffer. -/
theorem stringSample_strTicks_zero (hcur : v.cur = 0) (hN : 1 ≤ v.N) :
    stringSample num par (strTicks num par v 0) =
      stringBlend num par (Memory.read num.zero v.dl 0) (Memory.read num.zero v.dl (v.N - 1)) := by
  rw [stringSample, strTicks_cur num par hcur, strTicks_N, Nat.zero_mod, prevIndex_zero hN]
  rfl

/-- A further tick of the first round blends an untouched word with the sample of the tick before. -/
theorem stringSample_first_round (hcur : v.cur = 0) {n : Nat} (hn : n + 1 < v.N) :
    stringSample num par (strTicks num par v (n + 1)) =
      stringBlend num par (Memory.read num.zero v.dl (n + 1)) (stringSample num par (strTicks num par v n)) := by
  rw [stringSample_strTicks_succ num par hcur (by omega), Nat.mod_eq_of_lt hn,
    strTicks_read_unwritten num par hcur le_rfl hn]

/-- After a round each word holds the sample of its own tick. -/
theorem strTicks_round_read (hcur : v.cur = 0) {j : Nat} (hj : j < v.N) :
    Memory.read num.zero (strTicks num par v v.N).dl j = stringSample num par (strTicks num par v j) := by
  have h := strTicks_read_written num par hcur j (d := v.N - 1 - j) (by omega)
  rwa [Nat.mod_eq_of_lt hj, show j + 1 + (v.N - 1 - j) = v.N by omega] at h

end

/-- The energy of a buffer of `n` words (R150). -/
noncomputable def bufferEnergy (n : Nat) (v : StringVoice ℝ) : ℝ :=
  ((List.range n).map fun j => Memory.read 0 v.dl j ^ 2).sum

theorem bufferEnergy_two (v : StringVoice ℝ) :
    bufferEnergy 2 v = Memory.read 0 v.dl 0 ^ 2 + Memory.read 0 v.dl 1 ^ 2 := by
  simp [bufferEnergy, List.range_succ]

/-- The energy of a buffer of two words after a round: the second tick blends the second word with the sample `y` of the
first. -/
theorem bufferEnergy_two_words_round (par : Params ℝ) {v : StringVoice ℝ} (hcur : v.cur = 0) (hN : v.N = 2) :
    ∃ y, y = par.damping * (par.blendA * Memory.read 0 v.dl 0 + (1 - par.blendA) * Memory.read 0 v.dl 1) ∧
      bufferEnergy 2 (strTicks numReal par v 2) =
        y ^ 2 + (par.damping * (par.blendA * Memory.read 0 v.dl 1 + (1 - par.blendA) * y)) ^ 2 := by
  have hread (j : Nat) (hj : j < 2) :
      Memory.read 0 (strTicks numReal par v 2).dl j = stringSample numReal par (strTicks numReal par v j) := by
    rw [← hN, ← numReal_zero]
    exact strTicks_round_read numReal par hcur (hN ▸ hj)
  have hfirst := stringSample_strTicks_zero numReal par hcur (by omega)
  rw [stringBlend_real, hN, numReal_zero] at hfirst
  refine ⟨_, hfirst, ?_⟩
  rw [bufferEnergy_two, hread 0 (by omega), hread 1 (by omega),
    stringSample_first_round numReal par hcur (by omega), stringBlend_real, numReal_zero]

/-- Refutes O41: a weight of 0.1 and a damping of 0.9 turn the buffer (0, 1) into (0.81, 0.7461) in one round, since each
tick takes most of its sample from the one before; the energy rises from 1 to above 1.2. -/
theorem not_bufferEnergyNeverRisesOverARound : ¬ Obligations.BufferEnergyNeverRisesOverARound := by
  intro h
  have henergy : bufferEnergy 2 (strTicks numReal _ ⟨2, 0, [(1, 1)], 0⟩ 2) ≤ bufferEnergy 2 ⟨2, 0, [(1, 1)], 0⟩ :=
    h ⟨2, 44100, 9 / 10, 1 / 10, 1, 1, 0⟩ ⟨2, 0, [(1, 1)], 0⟩
      (by norm_num) (by norm_num) (by norm_num) (by norm_num) (by decide) (by decide)
  obtain ⟨y, hy, hround⟩ := bufferEnergy_two_words_round _ (v := ⟨2, 0, [(1, 1)], 0⟩) rfl rfl
  rw [hround, hy, bufferEnergy_two] at henergy
  norm_num [Memory.read] at henergy

end Sys2Proof.Machine
end

section
/-! The discrete envelope (44_discrete_envelope): O42 to O45. A tick is a function of the selector: in a hold state it only
presents a constant, in a ramp it presents the fraction of the count and then counts or wraps. -/

namespace Sys2Proof.Machine

variable {S : Type}

/-- Settles O42: each flag value is looked up in the stored row and its code is decoded. -/
theorem transitionTableOfTheSpec : Obligations.TransitionTableOfTheSpec :=
  ⟨by decide, by decide⟩

/-! The commands. -/

theorem eq_of_mayWrite_denvSetFlags {d : UnitIx} {flags : Word32} {loc : Loc}
    (h : mayWrite (.denvSetFlags d flags) loc = true) : loc = .denv d .flags ∨ loc = .denv d .sel := by
  cases loc with
  | denv d' r =>
    have hr : d = d' ∧ (r = .flags ∨ r = .sel) := by simpa [mayWrite] using h
    obtain ⟨rfl, rfl | rfl⟩ := hr
    · exact .inl rfl
    · exact .inr rfl
  | _ => exact absurd h Bool.false_ne_true

theorem eq_of_mayWrite_denvTick {d : UnitIx} {loc : Loc} (h : mayWrite (.denvTick d) loc = true) :
    loc = .denv d .counter ∨ loc = .denv d .sel ∨ loc = .denv d .out := by
  cases loc with
  | denv d' r =>
    have hr : d = d' ∧ (r = .counter ∨ r = .sel ∨ r = .out) := by simpa [mayWrite, or_assoc] using h
    obtain ⟨rfl, rfl | rfl | rfl⟩ := hr
    · exact .inl rfl
    · exact .inr (.inl rfl)
    · exact .inr (.inr rfl)
  | _ => exact absurd h Bool.false_ne_true

section
variable {s : State} {d : UnitIx} {g : Denv Sample}

/-- A legal command that steps one discrete envelope: the envelope afterwards, its registers, the result, and as the frame
the entry of R42. -/
theorem exec_denv {i : Instr} {f : Denv Sample → Denv Sample × Result Sample} {W : Loc → Prop}
    (hexec : exec i s = perform i s fun s => s.onDenv d f) (hlegal : legal s.cfg i = true)
    (hg : s.denv[d.toNat]? = some g) (hW : ∀ loc, mayWrite i loc = true → W loc) :
    ∃ t, exec i s = .next t ∧ t.result = (f g).2 ∧ t.denv[d.toNat]? = some (f g).1 ∧
      (∀ r, t.readLoc (.denv d r) = denvRegResult (f g).1 r) ∧ s.OnlyChanges t W := by
  have ht : exec i s = .next (s.onDenv d f) := hexec.trans (perform_legal hlegal)
  have hunit : (s.onDenv d f).denv[d.toNat]? = some (f g).1 := by
    rw [State.onDenv_some hg, State.withResult_denv, State.withDenv_denv, getElem?_set_unit _ (unit_lt hg), if_pos rfl]
  refine ⟨_, ht, ?_, hunit, State.readLoc_denv_of hunit, State.OnlyChanges_mono (exec_frame ht).1 hW⟩
  rw [State.onDenv_some hg, State.withResult_result]

/-- Everything `DENV.SETFLAGS` does to an envelope that is there. -/
theorem exec_denvSetFlags_of (flags : Word32) (hg : s.denv[d.toNat]? = some g) :
    ∃ t, exec (.denvSetFlags d flags) s = .next t ∧ t.result = .none ∧
      (∀ r, t.readLoc (.denv d r) = denvRegResult (denvSetFlags flags g) r) ∧
      s.OnlyChanges t (fun l => l = .denv d .flags ∨ l = .denv d .sel) := by
  obtain ⟨t, hexec, hres, -, hreg, hframe⟩ := exec_denv (exec_denvSetFlags d flags s)
    (by simp [legal, wellFormed, operandLegal, inRange, unit_lt hg]) hg (fun _ => eq_of_mayWrite_denvSetFlags)
  exact ⟨t, hexec, hres, hreg, hframe⟩

/-- Everything `DENV.TICK` does to an envelope that is there. -/
theorem exec_denvTick_of (hg : s.denv[d.toNat]? = some g) :
    ∃ t, exec (.denvTick d) s = .next t ∧ t.result = .sample (denvTick numF32 g).out ∧
      t.denv[d.toNat]? = some (denvTick numF32 g) ∧
      s.OnlyChanges t (fun l => l = .denv d .counter ∨ l = .denv d .sel ∨ l = .denv d .out) := by
  obtain ⟨t, hexec, hres, hunit, -, hframe⟩ := exec_denv (exec_denvTick d s)
    (by simp [legal, wellFormed, inRange, unit_lt hg]) hg (fun _ => eq_of_mayWrite_denvTick)
  exact ⟨t, hexec, hres, hunit, hframe⟩

end

/-! `DENV.SETFLAGS` (R163). -/

/-- The four flag bits as a register presents them are the low bits of the operand. -/
theorem setWidth_extractLsb'_four (x : Word32) : (x.extractLsb' 0 4).setWidth 32 = x &&& 0xF#32 := by
  apply BitVec.eq_of_toNat_eq
  rw [BitVec.toNat_setWidth_of_le (by decide), BitVec.extractLsb'_toNat, BitVec.toNat_and, Nat.shiftRight_zero]
  exact (Nat.and_two_pow_sub_one_eq_mod x.toNat 4).symm

theorem flagAttackFirst_extractLsb' (x : Word32) : flagAttackFirst (x.extractLsb' 0 4) = x.getLsbD 2 := by
  simp [flagAttackFirst]

theorem denvSetFlags_flags (x : Word32) (g : Denv S) :
    denvRegResult (denvSetFlags x g) .flags = .word (x &&& 0xF#32) := by
  simp [denvRegResult, denvSetFlags, setWidth_extractLsb'_four]

theorem denvSetFlags_sel (x : Word32) (g : Denv S) :
    denvRegResult (denvSetFlags x g) .sel = .word (if x.getLsbD 2 then 1#32 else 0#32) := by
  simp only [denvRegResult, denvSetFlags, flagAttackFirst_extractLsb']
  cases x.getLsbD 2 <;> rfl

/-- Settles O43: the two written registers as they read, and the frame of the command. -/
theorem denvSetFlagsSelectsTheStart : Obligations.DenvSetFlagsSelectsTheStart := by
  intro s d flags hd
  obtain ⟨g, hg⟩ := exists_unit hd
  obtain ⟨t, hexec, hres, hreg, hframe⟩ := exec_denvSetFlags_of flags hg
  exact ⟨rfl, t, hexec, hres, (hreg .flags).trans (denvSetFlags_flags flags g),
    (hreg .sel).trans (denvSetFlags_sel flags g), hframe⟩

/-! `DENV.TICK` (R165). -/

/-- A ramp: Decay or Attack (R161). -/
abbrev DSel.isRamp (sel : DSel) : Prop := sel = .decay ∨ sel = .attack

/-- The row of the table that a ramp looks up when it wraps (R165). -/
abbrev DSel.row (sel : DSel) : Direction := if sel = .decay then .leavingDecay else .leavingAttack

/-- What `DENV.TICK` presents: the output before the increment, or the hold value (R164, R165). -/
def denvOut (num : Num S) (g : Denv S) : S :=
  match g.sel with
  | .decay => num.sub num.one (rampfrac num g.counter g.period)
  | .attack => rampfrac num g.counter g.period
  | .holdLow => num.zero
  | .holdHigh => num.one

theorem denvOut_ramp (num : Num S) {g : Denv S} (h : g.sel.isRamp) :
    denvOut num g = if g.sel = .decay then num.sub num.one (rampfrac num g.counter g.period)
      else rampfrac num g.counter g.period := by
  obtain h | h := h
  · simp [denvOut, h]
  · simp [denvOut, h]

theorem denvTick_hold (num : Num S) {g : Denv S} (h : g.sel = .holdLow ∨ g.sel = .holdHigh) :
    denvTick num g = { g with out := denvOut num g } := by
  obtain h | h := h
  · simp only [denvTick, denvOut, h]
  · simp only [denvTick, denvOut, h]

theorem denvTick_ramp (num : Num S) {g : Denv S} (h : g.sel.isRamp) :
    denvTick num g = denvAdvance g.sel.row { g with out := denvOut num g } := by
  obtain h | h := h
  · simp [denvTick, denvOut, DSel.row, h]
  · simp [denvTick, denvOut, DSel.row, h]

/-- A ramp whose count is below the period counts. -/
theorem denvTick_count (num : Num S) {g : Denv S} (h : g.sel.isRamp) (hc : g.counter.toNat < g.period.toNat) :
    denvTick num g = { g with counter := BitVec.ofNat 32 (g.counter.toNat + 1), out := denvOut num g } := by
  rw [denvTick_ramp num h]
  exact if_neg (Nat.not_lt.2 hc)

/-- A ramp whose count has reached the period starts again from 0 and takes the table's successor. -/
theorem denvTick_wrap (num : Num S) {g : Denv S} (h : g.sel.isRamp) (hc : g.period.toNat ≤ g.counter.toNat) :
    denvTick num g =
      { g with counter := 0#32, sel := (ttEntry g.sel.row g.flags).getD g.sel, out := denvOut num g } := by
  rw [denvTick_ramp num h]
  exact if_pos (Nat.lt_succ_of_le hc)

theorem denvTick_out (num : Num S) (g : Denv S) : (denvTick num g).out = denvOut num g := by
  cases hsel : g.sel with
  | decay | attack =>
    obtain hc | hc := Nat.lt_or_ge g.counter.toNat g.period.toNat
    · rw [denvTick_count num (by simp [DSel.isRamp, hsel]) hc]
    · rw [denvTick_wrap num (by simp [DSel.isRamp, hsel]) hc]
  | holdLow | holdHigh => rw [denvTick_hold num (by simp [hsel])]

/-- A word counts up to another word without wrap. -/
theorem toNat_ofNat_of_le {n : Nat} {x : Word32} (h : n ≤ x.toNat) : (BitVec.ofNat 32 n).toNat = n := by
  rw [BitVec.toNat_ofNat, Nat.mod_eq_of_lt (h.trans_lt x.isLt)]

/-- Settles O44: the envelope afterwards, by cases on the hold states and on the wrap. -/
theorem denvTickRampsAndLooksUp : Obligations.DenvTickRampsAndLooksUp := by
  intro s d g hg ramp out wraps
  have hramp : rampfrac numF32 g.counter g.period = ramp := rampfrac_f32 _ _
  have hout : (denvTick numF32 g).out = out := by
    rw [denvTick_out]
    cases hsel : g.sel with
    | decay | attack | holdLow | holdHigh =>
      simp only [out, denvOut, hsel, hramp, numF32_zero, numF32_one, numF32_sub]
  obtain ⟨t, hexec, hres, hunit, hframe⟩ := exec_denvTick_of hg
  refine ⟨rfl, t, denvTick numF32 g, hexec, hout ▸ hres, hunit, hout, fun hhold => ?_, fun hsel hc => ?_,
    fun hsel hc => ?_, hframe⟩
  · rw [denvTick_hold _ hhold]
    exact ⟨rfl, rfl⟩
  · have hle : g.counter.toNat + 1 ≤ g.period.toNat := Nat.le_of_not_lt hc
    rw [denvTick_count _ hsel hle]
    exact ⟨toNat_ofNat_of_le hle, rfl⟩
  · rw [denvTick_wrap _ hsel (Nat.le_of_lt_succ hc)]
    exact ⟨rfl, rfl⟩

/-! A ramp from count 0 (R165). -/

/-- Up to the period a ramp from count 0 counts its ticks and keeps its other registers but `out`. -/
theorem denvTick_iterate_ramp (num : Num S) {g : Denv S} (hcounter : g.counter = 0#32) (hsel : g.sel.isRamp) {n : Nat}
    (hn : n ≤ g.period.toNat) :
    ((denvTick num)^[n] g).sel = g.sel ∧ ((denvTick num)^[n] g).counter.toNat = n ∧
      ((denvTick num)^[n] g).period = g.period ∧ ((denvTick num)^[n] g).flags = g.flags := by
  induction n with
  | zero => exact ⟨rfl, congrArg BitVec.toNat hcounter, rfl, rfl⟩
  | succ n ih =>
    obtain ⟨hs, hc, hp, hf⟩ := ih (Nat.le_of_succ_le hn)
    rw [Function.iterate_succ_apply', denvTick_count num (hs.symm ▸ hsel) (by rw [hc, hp]; exact hn), hc]
    exact ⟨hs, toNat_ofNat_of_le hn, hp, hf⟩

/-- Settles O45: tick `n + 1` is one tick of the ramp that has counted to `n`. -/
theorem rampLastsOneTickMoreThanThePeriod : Obligations.RampLastsOneTickMoreThanThePeriod := by
  intro S num g n hcounter hsel ticks fraction hn
  obtain ⟨hs, hc, hp, hf⟩ := denvTick_iterate_ramp num hcounter hsel hn
  have hramp : (ticks n).sel.isRamp := hs.symm ▸ hsel
  have hnext : ticks (n + 1) = denvTick num (ticks n) := Function.iterate_succ_apply' _ _ _
  have hfraction : rampfrac num (ticks n).counter (ticks n).period = fraction := by rw [rampfrac, hp, hc]
  refine ⟨⟨hs, hc⟩, ?_, fun hlast => ?_⟩
  · rw [hnext, denvTick_out, denvOut_ramp num hramp, hfraction, hs]
  · rw [hnext, denvTick_wrap num hramp (by rw [hc, hp, hlast]), hs, hf]
    exact ⟨rfl, rfl⟩

end Sys2Proof.Machine
end

section
/-! The square and noise generators (45_square_noise): O47 to O52. Both count with `countTick`, which fires or counts. The
LFSR is linear over XOR, so a number of its steps is known from what they do to the 17 single bits; 2^17 steps are then one
step, and the length 2^17 - 1 of the cycle is prime. -/

namespace Sys2Proof.Machine

/-! The count (R176) and the two generators after a tick (R178, R181). -/

theorem countTick_fires {c P : Word32} (h : P.toNat ≤ c.toNat + 1) : countTick c P = (0#32, true) := if_pos h

theorem countTick_counts {c P : Word32} (h : ¬ P.toNat ≤ c.toNat + 1) :
    countTick c P = (BitVec.ofNat 32 (c.toNat + 1), false) := if_neg h

theorem sqTick_fires {g : Square} (h : g.period.toNat ≤ g.counter.toNat + 1) :
    sqTick g = { g with counter := 0#32, out := ~~~ g.out } := by
  have htoggle : ∀ b : BitVec 1, b ^^^ 1#1 = ~~~ b := by decide
  simp only [sqTick, countTick_fires h, if_true, htoggle]

theorem sqTick_counts {g : Square} (h : ¬ g.period.toNat ≤ g.counter.toNat + 1) :
    sqTick g = { g with counter := BitVec.ofNat 32 (g.counter.toNat + 1) } := by
  simp only [sqTick, countTick_counts h, Bool.false_eq_true, if_false]

theorem nzTick_fires {g : Noise} (h : g.period.toNat ≤ g.counter.toNat + 1) :
    nzTick g = { g with counter := 0#32, rng := lfsr g.rng, out := (lfsr g.rng).extractLsb' 0 1 } := by
  simp only [nzTick, countTick_fires h, if_true]

theorem nzTick_counts {g : Noise} (h : ¬ g.period.toNat ≤ g.counter.toNat + 1) :
    nzTick g = { g with counter := BitVec.ofNat 32 (g.counter.toNat + 1), out := g.rng.extractLsb' 0 1 } := by
  simp only [nzTick, countTick_counts h, Bool.false_eq_true, if_false]

/-- The output is republished at every tick (R181). -/
theorem nzTick_out (g : Noise) : (nzTick g).out = (nzTick g).rng.extractLsb' 0 1 := rfl

/-- A tick reads nothing of the stale output. -/
theorem nzTick_congr {g h : Noise} (hp : g.period = h.period) (hc : g.counter = h.counter) (hr : g.rng = h.rng) :
    nzTick g = nzTick h := by
  simp only [nzTick, hp, hc, hr]

/-- Settles O52: after the first tick the two generators are equal. -/
theorem noiseGeneratorsAgreeOnEqualSeeds : Obligations.NoiseGeneratorsAgreeOnEqualSeeds := by
  intro g h n hp hc hr
  rw [Function.iterate_succ_apply, Function.iterate_succ_apply, nzTick_congr hp hc hr]

/-! The square generator from count 0 (R176). -/

/-- The quotient counts the ticks that come to a multiple of `p`. -/
theorem succ_div_eq {p : Nat} (hp : 1 ≤ p) (n : Nat) : (n + 1) / p = if n % p + 1 = p then n / p + 1 else n / p := by
  have hdvd : p ∣ n + 1 ↔ n % p + 1 = p := by
    rw [Nat.dvd_iff_mod_eq_zero, ← Nat.mod_add_mod, succ_mod_eq (Nat.mod_lt n hp)]
    simp
  rw [Nat.succ_div, if_congr hdvd rfl rfl]
  split <;> rfl

/-- An output after `k` toggles. -/
def toggled (b : BitVec 1) (k : Nat) : BitVec 1 := if k % 2 = 0 then b else ~~~ b

theorem toggled_succ (b : BitVec 1) (k : Nat) : toggled b (k + 1) = ~~~ toggled b k := by
  obtain h | h := Nat.mod_two_eq_zero_or_one k
  · have hk : (k + 1) % 2 = 1 := by omega
    simp [toggled, h, hk]
  · have hk : (k + 1) % 2 = 0 := by omega
    simp [toggled, h, hk]

theorem sqTick_iterate {g : Square} (hcounter : g.counter = 0#32) (hperiod : 1 ≤ g.period.toNat) (n : Nat) :
    (sqTick^[n] g).period = g.period ∧ (sqTick^[n] g).counter.toNat = n % g.period.toNat ∧
      (sqTick^[n] g).out = toggled g.out (n / g.period.toNat) := by
  induction n with
  | zero => simp [hcounter, toggled]
  | succ n ih =>
    obtain ⟨hp, hc, ho⟩ := ih
    have hlt : n % g.period.toNat < g.period.toNat := Nat.mod_lt n hperiod
    rw [Function.iterate_succ_apply', ← Nat.mod_add_mod, succ_mod_eq hlt, succ_div_eq hperiod]
    by_cases hfire : n % g.period.toNat + 1 = g.period.toNat
    · rw [sqTick_fires (by rw [hp, hc, hfire]), if_pos hfire, if_pos hfire, toggled_succ, ho]
      exact ⟨hp, rfl, rfl⟩
    · rw [sqTick_counts (by rw [hp, hc]; omega), if_neg hfire, if_neg hfire, hc]
      exact ⟨hp, toNat_ofNat_of_le hlt, ho⟩

/-- Settles O48. -/
theorem squareTogglesEveryPeriodTicks : Obligations.SquareTogglesEveryPeriodTicks :=
  fun _ n hcounter hperiod => (sqTick_iterate hcounter hperiod n).2

/-! The LFSR step (R180), bit by bit. -/

theorem lfsr_getLsbD_top (x : BitVec 17) : (lfsr x).getLsbD 16 = (x.getLsbD 0 ^^ x.getLsbD 3) :=
  BitVec.getLsbD_append.trans (by simp)

theorem lfsr_getLsbD_of_lt (x : BitVec 17) {j : Nat} (h : j < 16) : (lfsr x).getLsbD j = x.getLsbD (j + 1) :=
  BitVec.getLsbD_append.trans (by simp [h, Nat.add_comm 1 j])

/-- A 17-bit register has a top bit and 16 others. -/
theorem eq_of_getLsbD_seventeen {x y : BitVec 17} (htop : x.getLsbD 16 = y.getLsbD 16)
    (hlow : ∀ j, j < 16 → x.getLsbD j = y.getLsbD j) : x = y := by
  refine BitVec.eq_of_getLsbD_eq fun j hj => ?_
  obtain hj | rfl := Nat.lt_succ_iff_lt_or_eq.1 hj
  · exact hlow j hj
  · exact htop

/-- The feedback of the source's formula is one bit (R180). -/
theorem feedback_testBit (r j : Nat) :
    ((r &&& 1) ^^^ ((r >>> 3) &&& 1)).testBit j = (decide (j = 0) && (r.testBit 0 ^^ r.testBit 3)) := by
  have hone : Nat.testBit 1 j = decide (j = 0) := by
    rw [Bool.eq_iff_iff, Nat.testBit_one_eq_true_iff_self_eq_zero, decide_eq_true_iff]
  rw [Nat.testBit_xor, Nat.testBit_and, Nat.testBit_and, Nat.testBit_shiftRight, hone]
  by_cases hj : j = 0
  · rw [hj, decide_eq_true rfl, Bool.and_true, Bool.and_true, Bool.true_and]
  · rw [decide_eq_false hj, Bool.and_false, Bool.and_false, Bool.false_and, Bool.xor_false]

/-- Settles O50: the two sides agree at the top bit, below it and above it. -/
theorem lfsrIsTheSourcesFormula : Obligations.LfsrIsTheSourcesFormula := by
  intro x
  refine Nat.eq_of_testBit_eq fun j => ?_
  rw [Nat.testBit_shiftRight, Nat.testBit_xor, Nat.testBit_shiftLeft, feedback_testBit]
  simp only [BitVec.testBit_toNat]
  obtain hj | rfl | hj := Nat.lt_trichotomy j 16
  · rw [lfsr_getLsbD_of_lt x hj, Nat.add_comm]
    simp [show ¬ 17 ≤ 1 + j by omega]
  · rw [lfsr_getLsbD_top]
    simp
  · rw [BitVec.getLsbD_of_ge _ _ hj, BitVec.getLsbD_of_ge _ _ (by omega)]
    simp [show ¬ 1 + j - 17 = 0 by omega]

theorem lfsr_xor (x y : BitVec 17) : lfsr (x ^^^ y) = lfsr x ^^^ lfsr y := by
  refine eq_of_getLsbD_seventeen ?_ fun j hj => ?_
  · simp only [BitVec.getLsbD_xor, lfsr_getLsbD_top]
    simp only [Bool.xor_assoc, Bool.xor_left_comm]
  · simp only [BitVec.getLsbD_xor, lfsr_getLsbD_of_lt _ hj]

theorem lfsr_injective : Function.Injective lfsr := by
  intro x y h
  have htop : (x.getLsbD 0 ^^ x.getLsbD 3) = (y.getLsbD 0 ^^ y.getLsbD 3) := by
    rw [← lfsr_getLsbD_top, ← lfsr_getLsbD_top, h]
  have hhigh : ∀ j, j < 16 → x.getLsbD (j + 1) = y.getLsbD (j + 1) := fun j hj => by
    rw [← lfsr_getLsbD_of_lt x hj, ← lfsr_getLsbD_of_lt y hj, h]
  rw [hhigh 2 (by decide), Bool.xor_left_inj] at htop
  refine BitVec.eq_of_getLsbD_eq fun j hj => ?_
  cases j with
  | zero => exact htop
  | succ j => exact hhigh j (Nat.lt_of_succ_lt_succ hj)

theorem lfsr_zero : lfsr 0#17 = 0#17 := by decide

/-- A fixed point has all its bits equal, and the feedback of equal bits is 0. -/
theorem eq_zero_of_lfsr_eq {x : BitVec 17} (h : lfsr x = x) : x = 0#17 := by
  have hbit : ∀ j, j < 17 → x.getLsbD j = x.getLsbD 0 := fun j hj => by
    induction j with
    | zero => rfl
    | succ j ih =>
      rw [← lfsr_getLsbD_of_lt x (Nat.lt_of_succ_lt_succ hj), h, ih (Nat.lt_of_succ_lt hj)]
  have hzero : x.getLsbD 0 = false := by
    rw [← hbit 16 (by decide), ← h, lfsr_getLsbD_top, hbit 3 (by decide), Bool.xor_self]
  exact BitVec.eq_of_getLsbD_eq fun j hj => by rw [hbit j hj, hzero, BitVec.getLsbD_zero]

/-! Linear maps of registers over XOR, by their columns: what they make of the single bits. -/

section
variable {w : Nat}

/-- The XOR of the columns at the set bits of `x`. -/
def combine : List (BitVec w) → BitVec w → BitVec w
  | [], _ => 0#w
  | c :: cs, x => (if x.getLsbD 0 then c else 0#w) ^^^ combine cs (x >>> 1)

/-- The single bits. -/
def unitColumns (w : Nat) : List (BitVec w) := (List.range' 0 w).map (BitVec.twoPow w)

/-- The columns of a map applied twice, from its columns. -/
def squareColumns (cs : List (BitVec w)) : List (BitVec w) := cs.map (combine cs)

/-- The single bits from `k` on give back the bits of the register from `k` on. -/
theorem combine_twoPow_getLsbD (x : BitVec w) (n k j : Nat) :
    (combine ((List.range' k n).map (BitVec.twoPow w)) (x >>> k)).getLsbD j =
      (x.getLsbD j && decide (k ≤ j ∧ j < k + n)) := by
  induction n generalizing k with
  | zero =>
    simp [combine]
  | succ n ih =>
    rw [List.range'_succ, List.map_cons, combine, BitVec.getLsbD_xor, ← BitVec.shiftRight_add, ih,
      BitVec.getLsbD_ushiftRight, Nat.add_zero]
    by_cases hj : k = j
    · subst hj
      cases hx : x.getLsbD k with
      | false => simp
      | true => simp [BitVec.lt_of_getLsbD hx]
    · have hiff : k + 1 ≤ j ∧ j < k + 1 + n ↔ k ≤ j ∧ j < k + (n + 1) := by omega
      simp only [hiff]
      split <;> simp [BitVec.getLsbD_twoPow, hj]

theorem combine_unitColumns (x : BitVec w) : combine (unitColumns w) x = x := by
  refine BitVec.eq_of_getLsbD_eq fun j hj => ?_
  have h := combine_twoPow_getLsbD x w 0 j
  rw [BitVec.ushiftRight_zero] at h
  simpa [unitColumns, hj] using h

/-- A map that keeps XOR keeps combinations of columns. -/
theorem map_combine {f : BitVec w → BitVec w} (hf : ∀ x y, f (x ^^^ y) = f x ^^^ f y) (cs : List (BitVec w))
    (x : BitVec w) : f (combine cs x) = combine (cs.map f) x := by
  have hzero : f 0#w = 0#w := by simpa using hf 0#w 0#w
  induction cs generalizing x with
  | nil => exact hzero
  | cons c cs ih => rw [List.map_cons, combine, combine, hf, ih, apply_ite f, hzero]

theorem combine_xor (cs : List (BitVec w)) (x y : BitVec w) : combine cs (x ^^^ y) = combine cs x ^^^ combine cs y := by
  induction cs generalizing x y with
  | nil => simp [combine]
  | cons c cs ih =>
    simp only [combine, BitVec.ushiftRight_xor_distrib, ih, BitVec.getLsbD_xor]
    have hc : (if (x.getLsbD 0 ^^ y.getLsbD 0) = true then c else 0#w) =
        (if x.getLsbD 0 then c else 0#w) ^^^ (if y.getLsbD 0 then c else 0#w) := by
      cases x.getLsbD 0 <;> cases y.getLsbD 0 <;> simp
    rw [hc]
    ac_rfl

/-- Squaring the columns `k` times gives the columns of `2 ^ k` steps. -/
theorem iterate_two_pow_eq_combine {f : BitVec w → BitVec w} {cs : List (BitVec w)} (hf : ∀ x, f x = combine cs x) (k : Nat)
    (x : BitVec w) : f^[2 ^ k] x = combine (squareColumns^[k] cs) x := by
  induction k generalizing x with
  | zero => exact hf x
  | succ k ih =>
    rw [Nat.pow_succ, Nat.mul_two, Function.iterate_add_apply, ih, ih, map_combine (combine_xor _),
      Function.iterate_succ_apply']
    rfl
end

/-! The cycle (R180). -/

/-- The columns of the LFSR step. -/
def lfsrColumns : List (BitVec 17) := (unitColumns 17).map lfsr

theorem lfsr_eq_combine (x : BitVec 17) : lfsr x = combine lfsrColumns x := by
  rw [lfsrColumns, ← map_combine lfsr_xor, combine_unitColumns]

/-- Seventeen squarings of a 17 by 17 matrix of bits. -/
theorem squareColumns_iterate_lfsrColumns : squareColumns^[17] lfsrColumns = lfsrColumns := by decide +kernel

/-- An injective map whose `n + 1` steps from a point are one step comes back to the point after `n`. -/
theorem iterate_eq_self_of_succ {α : Type} {f : α → α} (hf : Function.Injective f) {n : Nat} {x : α}
    (h : f^[n + 1] x = f x) : f^[n] x = x := hf ((Function.iterate_succ_apply' f n x).symm.trans h)

/-- 2^17 steps are one step, so one step less is none. -/
theorem lfsr_iterate_period (x : BitVec 17) : lfsr^[131071] x = x := by
  have hsteps : 131071 + 1 = 2 ^ 17 := by norm_num
  refine iterate_eq_self_of_succ lfsr_injective ?_
  rw [hsteps, iterate_two_pow_eq_combine lfsr_eq_combine, squareColumns_iterate_lfsrColumns, ← lfsr_eq_combine]

/-- Settles O51: 131071 is prime, so a value that came back sooner would be a fixed point. -/
theorem lfsrCycleHasFullLength : Obligations.LfsrCycleHasFullLength := by
  refine ⟨lfsr_zero, fun x hx => ⟨lfsr_iterate_period x, fun n hpos hlt hn => hx ?_⟩⟩
  have hprime : Nat.Prime 131071 := by norm_num
  have hcoprime : Nat.gcd n 131071 = 1 := (Nat.coprime_of_lt_prime hpos.ne' hlt hprime).symm
  have hperiod : Function.IsPeriodicPt lfsr (Nat.gcd n 131071) x := .gcd hn (lfsr_iterate_period x)
  rw [hcoprime] at hperiod
  exact eq_zero_of_lfsr_eq hperiod

/-! The commands. -/

/-- A legal command that steps one unit of a bank: the result, the unit afterwards, and as the frame the entry of R42. -/
theorem exec_bank {α : Type} {s : State} {i : Instr} {u : UnitIx} {bank : State → List α} {put : State → List α → State}
    {f : α → α × Result Sample} {x : α} {W : Loc → Prop}
    (hput : ∀ xs r, bank ((put s xs).withResult r) = xs)
    (hexec : exec i s = perform i s fun s => s.onUnit (bank s) put u f) (hlegal : legal s.cfg i = true)
    (hx : (bank s)[u.toNat]? = some x) (hW : ∀ loc, mayWrite i loc = true → W loc) :
    ∃ t, exec i s = .next t ∧ t.result = (f x).2 ∧ (bank t)[u.toNat]? = some (f x).1 ∧ s.OnlyChanges t W := by
  have ht : exec i s = .next (s.onUnit (bank s) put u f) := hexec.trans (perform_legal hlegal)
  refine ⟨_, ht, ?_, ?_, State.OnlyChanges_mono (exec_frame ht).1 hW⟩
  · rw [State.onUnit_some hx, State.withResult_result]
  · rw [State.onUnit_some hx, hput, getElem?_set_unit _ (unit_lt hx), if_pos rfl]

theorem eq_of_mayWrite_sqTick {q : UnitIx} {loc : Loc} (h : mayWrite (.sqTick q) loc = true) :
    loc = .sq q .counter ∨ loc = .sq q .out := by
  cases loc with
  | sq q' r =>
    have hr : q = q' ∧ (r = .counter ∨ r = .out) := by simpa [mayWrite] using h
    obtain ⟨rfl, rfl | rfl⟩ := hr
    · exact .inl rfl
    · exact .inr rfl
  | _ => exact absurd h Bool.false_ne_true

theorem eq_of_mayWrite_nzTick {n : UnitIx} {loc : Loc} (h : mayWrite (.nzTick n) loc = true) :
    loc = .nz n .counter ∨ loc = .nz n .out ∨ loc = .nz n .rng := by
  cases loc with
  | nz n' r =>
    have hr : n = n' ∧ (r = .counter ∨ r = .out ∨ r = .rng) := by simpa [mayWrite, or_assoc] using h
    obtain ⟨rfl, rfl | rfl | rfl⟩ := hr
    · exact .inl rfl
    · exact .inr (.inl rfl)
    · exact .inr (.inr rfl)
  | _ => exact absurd h Bool.false_ne_true

/-- Settles O47: the generator afterwards, by cases on whether the count fires. -/
theorem sqTickCountsAndToggles : Obligations.SqTickCountsAndToggles := by
  intro s q g hg fires
  obtain ⟨t, hexec, hres, hunit, hframe⟩ := exec_bank (bank := State.sq) (put := State.withSq) (fun _ _ => rfl)
    (exec_sqTick q s) (by simp [legal, wellFormed, inRange, unit_lt hg]) hg fun _ => eq_of_mayWrite_sqTick
  refine ⟨rfl, t, sqTick g, hexec, hres, hunit, fun hfire => ?_, fun hfire => ?_, hframe⟩
  · rw [sqTick_fires hfire]
    exact ⟨rfl, rfl⟩
  · rw [sqTick_counts hfire]
    exact ⟨toNat_ofNat_of_le (Nat.le_of_not_le hfire), rfl⟩

/-- Settles O49: the generator afterwards, by cases on whether the count fires. -/
theorem nzTickShiftsAndRepublishes : Obligations.NzTickShiftsAndRepublishes := by
  intro s n g hg fires
  obtain ⟨t, hexec, hres, hunit, hframe⟩ := exec_bank (bank := State.nz) (put := State.withNz) (fun _ _ => rfl)
    (exec_nzTick n s) (by simp [legal, wellFormed, inRange, unit_lt hg]) hg fun _ => eq_of_mayWrite_nzTick
  have hout : (nzTick g).out.getLsbD 0 = (nzTick g).rng.getLsbD 0 := by simp [nzTick_out]
  refine ⟨rfl, t, nzTick g, hexec, hres, hunit, fun hfire => ?_, fun hfire => ?_, hout, hframe⟩
  · rw [nzTick_fires hfire]
    exact ⟨rfl, lfsr_getLsbD_top g.rng, fun _ => lfsr_getLsbD_of_lt g.rng⟩
  · rw [nzTick_counts hfire]
    exact ⟨toNat_ofNat_of_le (Nat.le_of_not_le hfire), rfl⟩

end Sys2Proof.Machine
end

section
/-! The voice bank summer (46_bank_mixer): O53. -/

namespace Sys2Proof.Machine

/-- The sum that `BANK.TICK` presents: the samples of `FM.TICK`, added on the right from the first voice to the last. -/
theorem bankTick_total {S : Type} (num : Num S) (dt : S) (xs : List (FmVoice S)) (acc : S) :
    (bankTick num dt xs acc).2 = ((xs.map (fmTick num dt)).map Prod.snd).foldl num.add acc := by
  induction xs generalizing acc with
  | nil => rfl
  | cons x rest ih => exact ih (num.add acc (fmTick num dt x).2)

/-- The voices that the ticks of a bank leave. -/
theorem map_fst_fmTick {S : Type} (num : Num S) (dt : S) (xs : List (FmVoice S)) :
    (xs.map (fmTick num dt)).map Prod.fst = xs.map (fmAdvance num dt) := List.map_map

theorem legal_bankTick {c : Cfg} {dt : Word32} (h : F32.isFinite dt = true) : legal c (.bankTick dt) = true := by
  simp [legal, wellFormed, operandLegal, inRange, h]

/-- Settles O53: the bank and the sum of the loop are a map and a left fold over the voices. -/
theorem bankTickSumsEveryVoiceOnce : Obligations.BankTickSumsEveryVoiceOnce := by
  intro s dt hdt ticked
  have hvoices : ticked.map Prod.fst = s.fm.map (fmAdvance numF32 dt) := map_fst_fmTick numF32 dt s.fm
  have htotal : (bankTick numF32 dt s.fm numF32.zero).2 = (ticked.map Prod.snd).foldl F32.add 0#32 := by
    rw [bankTick_total, numF32_zero, numF32_add]
  refine ⟨rfl, ?_⟩
  rw [exec_bankTick_map, perform_legal (legal_bankTick hdt), htotal, ← hvoices]
  rfl

end Sys2Proof.Machine
end

section
/-! Register access (47_register_access): O19 and O20. -/

namespace Sys2Proof.Machine

/-! `RD` (R193). -/

/-- `RD` of a location that exists presents what the location reads as, and that is all it does. -/
theorem exec_rd_of {s : State} {loc : Loc} {r : Result Sample} (hread : s.readLoc loc = r)
    (hexists : locExists s.cfg loc = true) : exec (.rd loc) s = .next (s.withResult r) := by
  have hlegal : legal s.cfg (.rd loc) = true := by simp [legal, wellFormed, inRange, hexists]
  rw [exec_rd, perform_legal hlegal, hread]

/-- The hardwired target as `RD` presents it (10_state R24): 3 for the carrier, which has none, 0 for a modulator. -/
theorem targetCode_eq (k : OpIx) : targetCode k = if k = .op0 then 3#32 else 0#32 := by
  cases k <;> rfl

/-- Settles O19: each location that exists reads as its unit's register, by the class of the location and the register. -/
theorem rdPresentsTheLocation : Obligations.RdPresentsTheLocation := by
  refine ⟨fun loc => by cases loc <;> rfl, fun s => ⟨fun v k x hx => ⟨fun r => ?env, fun r => ?osc⟩,
    fun i x hx => ⟨?N, ?cur, fun a ha => ?dl⟩, fun d g hg r => ?denv, fun q g hg r => ?sq, fun n g hg r => ?nz⟩⟩
  case env =>
    rw [exec_rd_of (State.readLoc_env_of hx k r) (decide_eq_true (unit_lt hx))]
    cases r <;> rfl
  case osc =>
    rw [exec_rd_of (State.readLoc_osc_of hx k r) (decide_eq_true (unit_lt hx))]
    cases r with
    | tgt => rw [oscRegResult, targetCode_eq]; rfl
    | _ => rfl
  case N => exact exec_rd_of (State.readLoc_str_of hx .N) (decide_eq_true (unit_lt hx))
  case cur => exact exec_rd_of (State.readLoc_str_of hx .cur) (decide_eq_true (unit_lt hx))
  case dl =>
    have hexists : locExists s.cfg (.dl i a) = true := by simp [locExists, unit_lt hx, ha]
    have hread : s.readLoc (.dl i a) = .sample (Memory.read 0#32 x.dl a.toNat) := by
      rw [State.readLoc_dl_of hx, if_pos ha, numF32_zero]
    exact exec_rd_of hread hexists
  case denv =>
    rw [exec_rd_of (State.readLoc_denv_of hg r) (decide_eq_true (unit_lt hg))]
    cases r <;> rfl
  case sq =>
    rw [exec_rd_of (State.readLoc_sq_of hg r) (decide_eq_true (unit_lt hg))]
    cases r <;> rfl
  case nz =>
    rw [exec_rd_of (State.readLoc_nz_of hg r) (decide_eq_true (unit_lt hg))]
    cases r <;> rfl

/-! `WR` (R195, R196). -/

/-- A `WR` is to an `S` register or to an integer one. -/
theorem wrKind_cases (loc : Loc) : wrKind loc = .F ∨ wrKind loc = .U := by
  unfold wrKind
  split <;> simp

/-- A `WR` is legal exactly if its location exists and is writable and, at an `S` register, the operand is finite. -/
theorem legal_wr_iff {c : Cfg} {loc : Loc} {x : Word32} :
    legal c (.wr loc x) = true ↔
      locExists c loc = true ∧ locWritable loc = true ∧ (wrKind loc = .F → F32.isFinite x = true) := by
  have hkind : operandLegal (wrKind loc) x = true ↔ (wrKind loc = .F → F32.isFinite x = true) := by
    obtain h | h := wrKind_cases loc <;> simp [h, operandLegal]
  simp only [legal, wellFormed, inRange, Bool.and_eq_true, hkind]
  exact and_comm

/-- Keeping the low bits of a word and extending them again masks the others. -/
theorem setWidth_extractLsb'_low (x : Word32) {n : Nat} (h : n ≤ 32) :
    (x.extractLsb' 0 n).setWidth 32 = x &&& BitVec.ofNat 32 (2 ^ n - 1) := by
  have hmask : 2 ^ n - 1 < 2 ^ 32 := by
    have := Nat.pow_le_pow_right (n := 2) (by decide) h
    omega
  apply BitVec.eq_of_toNat_eq
  rw [BitVec.toNat_setWidth_of_le h, BitVec.extractLsb'_toNat, BitVec.toNat_and, BitVec.toNat_ofNat,
    Nat.mod_eq_of_lt hmask, Nat.shiftRight_zero, Nat.and_two_pow_sub_one_eq_mod]

/-! A writable register of a unit reads as the operand just written to it. -/

section
variable {S : Type}

theorem envRegResult_writeEnvReg_same {v : UnitIx} {k : OpIx} {r : EnvReg} (h : locWritable (.env v k r) = true)
    (e : Envelope S) (x : S) : envRegResult (writeEnvReg e r x) r = .sample x := by
  cases r with
  | A | D | SL | R => rfl
  | st | t | out => cases h

theorem oscRegResult_writeOscReg_same {v : UnitIx} {k : OpIx} {r : OscReg} (h : locWritable (.osc v k r) = true)
    (o : Oscillator S) (x : S) : oscRegResult k (writeOscReg o r x) r = .sample x := by
  cases r with
  | vol => rfl
  | w | p | m | raw | tgt => cases h

theorem denvRegResult_writeDenvReg_same {d : UnitIx} {r : DenvReg} (h : locWritable (.denv d r) = true)
    (g : Denv S) (x : Word32) : denvRegResult (writeDenvReg g r x) r = .word x := by
  cases r with
  | period => rfl
  | counter | flags | sel | out => cases h

theorem sqRegResult_writeSqReg_same {q : UnitIx} {r : SqReg} (h : locWritable (.sq q r) = true)
    (g : Square) (x : Word32) : sqRegResult (S := S) (writeSqReg g r x) r = .word x := by
  cases r with
  | period => rfl
  | counter | out => cases h

/-- `rng` keeps the low 17 bits of the operand. -/
theorem nzRegResult_writeNzReg_same {n : UnitIx} {r : NzReg} (h : locWritable (.nz n r) = true) (g : Noise)
    (x : Word32) :
    nzRegResult (S := S) (writeNzReg g r x) r = .word (if r = .rng then x &&& 0x1FFFF#32 else x) := by
  cases r with
  | period => rfl
  | rng => exact congrArg Result.word (setWidth_extractLsb'_low x (by decide))
  | counter | out => cases h

end

/-- What a writable location reads as after operand `x` is written to it: the operand as a value of the register's type,
of `rng` the low 17 bits. -/
def operandRead (x : Word32) : Loc → Result Sample
  | .env _ _ _ => .sample x
  | .osc _ _ _ => .sample x
  | .nz _ .rng => .word (x &&& 0x1FFFF#32)
  | _ => .word x

/-- A writable location that exists reads as the operand just written to it. -/
theorem State.writeLoc_readLoc_same {s : State} {loc : Loc} (x : Word32) (hexists : locExists s.cfg loc = true)
    (hwritable : locWritable loc = true) : (s.writeLoc loc x).readLoc loc = operandRead x loc := by
  cases loc with
  | env v k r =>
    obtain ⟨y, hy⟩ := exists_unit (of_decide_eq_true hexists)
    rw [State.writeLoc, State.onVoice_some hy, State.withResult_readLoc, State.readLoc_set_env _ (unit_lt hy),
      if_pos rfl, FmVoice.setEnv_env_same, envRegResult_writeEnvReg_same hwritable]
    rfl
  | osc v k r =>
    obtain ⟨y, hy⟩ := exists_unit (of_decide_eq_true hexists)
    rw [State.writeLoc, State.onVoice_some hy, State.withResult_readLoc, State.readLoc_set_osc _ (unit_lt hy),
      if_pos rfl, FmVoice.setOsc_osc_same, oscRegResult_writeOscReg_same hwritable]
    rfl
  | denv d r =>
    obtain ⟨y, hy⟩ := exists_unit (of_decide_eq_true hexists)
    rw [State.writeLoc, State.onDenv_some hy, State.withResult_readLoc, State.readLoc_set_denv _ (unit_lt hy),
      if_pos rfl, denvRegResult_writeDenvReg_same hwritable]
    rfl
  | sq q r =>
    obtain ⟨y, hy⟩ := exists_unit (of_decide_eq_true hexists)
    rw [State.writeLoc, State.onSquare_some hy, State.withResult_readLoc, State.readLoc_set_sq _ (unit_lt hy),
      if_pos rfl, sqRegResult_writeSqReg_same hwritable]
    rfl
  | nz n r =>
    obtain ⟨y, hy⟩ := exists_unit (of_decide_eq_true hexists)
    rw [State.writeLoc, State.onNoise_some hy, State.withResult_readLoc, State.readLoc_set_nz _ (unit_lt hy),
      if_pos rfl, nzRegResult_writeNzReg_same hwritable]
    cases r <;> rfl
  | str | dl => cases hwritable

/-- Stepping a unit without a result presents none, whether or not the unit is there. -/
theorem State.onUnit_result_none {α : Type} {s : State} {xs : List α} {put : State → List α → State} {i : UnitIx}
    {f : α → α × Result Sample} (hf : ∀ x, (f x).2 = .none) : (s.onUnit xs put i f).result = .none := by
  obtain ⟨x, -, h⟩ | ⟨-, h⟩ := s.onUnit_cases xs put i f
  · rw [h, State.withResult_result, hf]
  · rw [h, State.ignore_result]

theorem State.writeLoc_result (s : State) (loc : Loc) (x : Word32) : (s.writeLoc loc x).result = .none := by
  cases loc with
  | str | dl => rfl
  | env | osc | denv | sq | nz => exact State.onUnit_result_none fun _ => rfl

/-- The entry of `WR` in R42: it may write the location it names and no other. -/
theorem eq_of_mayWrite_wr {target loc : Loc} {x : Word32} (h : mayWrite (.wr target x) loc = true) : loc = target := by
  obtain ⟨rfl, -⟩ : target = loc ∧ locWritable loc = true := by simpa [mayWrite] using h
  rfl

/-- Settles O20: a legal `WR` writes its location and no other, and the second clause is the illegal one. -/
theorem wrStoresTheOperand : Obligations.WrStoresTheOperand := by
  intro s loc x
  refine ⟨by cases loc <;> rfl, fun hexists hwritable hfinite => ?_, fun hillegal => ?_⟩
  · have hexec : exec (.wr loc x) s = .next (s.writeLoc loc x) :=
      (exec_wr loc x s).trans (perform_legal (legal_wr_iff.2 ⟨hexists, hwritable, hfinite⟩))
    exact ⟨_, hexec, s.writeLoc_result loc x, State.writeLoc_readLoc_same x hexists hwritable,
      State.OnlyChanges_mono (exec_frame hexec).1 fun _ => eq_of_mayWrite_wr⟩
  · have hnot : legal s.cfg (.wr loc x) = false := by
      refine Bool.eq_false_iff.2 fun hlegal => ?_
      obtain ⟨hexists, hwritable, hfinite⟩ := legal_wr_iff.1 hlegal
      obtain h | h | ⟨hkind, h⟩ := hillegal
      · simp [h] at hexists
      · simp [h] at hwritable
      · simp [hkind, h] at hfinite
    exact (exec_wr loc x s).trans (perform_illegal hnot)

end Sys2Proof.Machine
end

section
/-! No step faults and none is refused (60_exceptions R200, R206): O10. A legal command has its effect, and everything the
block does not accept is ignored. -/

namespace Sys2Proof.Machine

/-- Every command runs to completion: it has its effect or is ignored, and there is no third outcome (R206). -/
theorem exec_answers_next (i : Instr) (s : State) : ∃ t, exec i s = .next t := by
  obtain ⟨effect, hexec⟩ := exec_cases i s
  cases hlegal : legal s.cfg i with
  | true => exact ⟨effect s, hexec.trans (perform_legal hlegal)⟩
  | false => exact ⟨s.ignore, hexec.trans (perform_illegal hlegal)⟩

/-- Settles O10: by cases on the stream and on the decoding of its head. -/
theorem everyStepAnswersNext : Obligations.EveryStepAnswersNext := by
  intro s
  cases hs : s.cmds with
  | nil => exact ⟨s.ignore, step_of_cmds_nil hs⟩
  | cons w rest =>
    cases hw : decode w with
    | ok i =>
      obtain ⟨t, ht⟩ := exec_answers_next i (s.withCmds rest)
      exact ⟨t, (step_of_decode hs hw).trans ht⟩
    | error e => exact ⟨(s.withCmds rest).ignore, step_of_decode_error hs hw⟩

end Sys2Proof.Machine
end
